-- ==== Sys2Proof/Word.lean ====
section
/-! DEFINITION. The words the ports carry and the `real` values the units hold (spec/00_scope.md R8, R9, R10). -/

namespace Sys2Proof

/-- A command word or a notification word: 32 bits, bit 0 the least significant (R8, R81). -/
abbrev Word32 := BitVec 32

/-- A data word of DIN or DOUT, or an event word of EVT: 64 bits (R8, R80). -/
abbrev Word64 := BitVec 64

/-- The `ARG` field of a format A word: an unsigned 16-bit immediate (R81, R82). -/
abbrev Arg := BitVec 16

/-- The magnitude code of infinity: bits 62:0 of the binary64 pattern with exponent 0x7FF and fraction 0.
Magnitude codes below it are exactly those of the finite values (R9). -/
abbrev infMag : Nat := 0x7FF0000000000000

/-- A `real`: an IEEE 754 binary64 value (R9). A finite value is its sign and its magnitude code (bits 62:0 of
its pattern), so `+0.0` and `-0.0` differ, as the spec wants (93_implementation_defined.md U28). There is ONE
NaN: "a model must not distinguish NaNs" (R10, U28). -/
inductive F64 where
  | nan
  | inf (neg : Bool)
  | fin (neg : Bool) (mag : Fin infMag)
deriving DecidableEq, Repr, Inhabited

end Sys2Proof
end

