-- ==== Sys2Proof/Machine/Arith.lean ====
section
/-! DEFINITION. The arithmetic of the datapath: IEEE 754 binary64, round to nearest, ties to even
(spec/00_scope.md R9 to R12). Every operation works on exact integers counted in units of the least subnormal
2^-1074 and rounds once at the end. -/

namespace Sys2Proof
namespace F64

/-! ### Patterns -/

/-- The binary64 value whose 64-bit pattern is `w` (R9: sign bit 63, exponent 62:52, fraction 51:0). -/
def ofBits (w : Word64) : F64 :=
  if h : w.toNat % 2 ^ 63 < infMag then .fin w.msb ⟨w.toNat % 2 ^ 63, h⟩
  else if w.toNat % 2 ^ 63 = infMag then .inf w.msb
  else .nan

/-- The 64-bit pattern with sign `neg` and magnitude code `mag`. -/
def pattern (neg : Bool) (mag : Nat) : Word64 := BitVec.ofNat 64 ((if neg then 2 ^ 63 else 0) + mag)

/-- The value of sign `neg` and magnitude code `mag`, infinite where the code is not that of a finite value. -/
def ofMag (neg : Bool) (mag : Nat) : F64 :=
  if h : mag < infMag then .fin neg ⟨mag, h⟩ else .inf neg

/-! ### Exact values and rounding -/

/-- The exact magnitude that a finite code stands for, in units of 2^-1074. -/
def units (mag : Nat) : Nat :=
  if mag / 2 ^ 52 = 0 then mag else (2 ^ 52 + mag % 2 ^ 52) * 2 ^ (mag / 2 ^ 52 - 1)

/-- The exact signed value of a finite real in units of 2^-1074 (0 for NaN and the infinities, where no caller
asks). -/
def toUnits : F64 → Int
  | .fin neg mag => if neg then -(units mag : Int) else (units mag : Int)
  | _ => 0

/-- The magnitude code nearest to `num / den` units of 2^-1074, ties to even (R10). A significand that rounds up
to the next power of two carries into the exponent field by itself; a code of `infMag` or above is an
overflow. -/
def roundMag (num den : Nat) : Nat :=
  let e := Nat.log2 (num / den) - 52
  let d := den * 2 ^ e
  let m := num / d
  let r := num % d
  e * 2 ^ 52 + (m + (if 2 * r > d then 1 else if 2 * r = d then m % 2 else 0))

/-- Sign `neg` and the magnitude nearest to `num / den` units. -/
@[irreducible] def roundUnits (neg : Bool) (num den : Nat) : F64 := ofMag neg (roundMag num den)

/-- The binary64 nearest to `num / den`: what a decimal literal denotes (R10), `lit 1 100000` being `1e-5`. -/
def lit (num den : Nat) : F64 := roundUnits false (num * 2 ^ 1074) den

/-- `real(n)`: an integer as a real, exact below 2^53 in magnitude (R12). -/
def ofInt (n : Int) : F64 := roundUnits (decide (n < 0)) (n.natAbs * 2 ^ 1074) 1

def zero : F64 := .fin false 0
def half : F64 := lit 1 2
def one : F64 := lit 1 1
def two : F64 := lit 2 1

/-! ### Classification and comparison (R11) -/

/-- `isNaN(a)`. -/
def isNaN : F64 → Bool
  | .nan => true
  | _ => false

/-- `isFinite(a)`. -/
def isFinite : F64 → Bool
  | .fin _ _ => true
  | _ => false

/-- A number that orders the non-NaN reals: the magnitude code with the sign (codes grow with magnitude, the two
zeros share 0). -/
def key : F64 → Option Int
  | .nan => none
  | .inf neg => some (if neg then -(infMag : Int) else (infMag : Int))
  | .fin neg mag => some (if neg then -(mag.val : Int) else (mag.val : Int))

/-- `a < b`, false when either is NaN. `a > b` is `lt b a`. -/
def lt (a b : F64) : Bool :=
  match a.key, b.key with
  | some x, some y => decide (x < y)
  | _, _ => false

/-- `a <= b`, false when either is NaN. `a >= b` is `le b a`. -/
def le (a b : F64) : Bool :=
  match a.key, b.key with
  | some x, some y => decide (x ≤ y)
  | _, _ => false

/-- `a == b`, false when either is NaN; `-0.0 == +0.0`. -/
def feq (a b : F64) : Bool :=
  match a.key, b.key with
  | some x, some y => decide (x = y)
  | _, _ => false

/-- `fmax(a,b)`: `a` if `a > b`, else `b` (R10). -/
def fmax (a b : F64) : F64 := if lt b a then a else b

/-- `fmin(a,b)`: `a` if `a < b`, else `b` (R10). -/
def fmin (a b : F64) : F64 := if lt a b then a else b

/-- `abs(a)`: clears the sign bit (R10). -/
def abs : F64 → F64
  | .nan => .nan
  | .inf _ => .inf false
  | .fin _ mag => .fin false mag

/-- `-a`: inverts the sign bit. -/
def neg : F64 → F64
  | .nan => .nan
  | .inf s => .inf (!s)
  | .fin s mag => .fin (!s) mag

/-- The sign bit (of a NaN: false, where no caller asks). -/
def sign : F64 → Bool
  | .nan => false
  | .inf s => s
  | .fin s _ => s

/-! ### Arithmetic (R10) -/

/-- `a + b`. An exact zero sum is `+0.0`, unless both operands are negative zeros. -/
def add (a b : F64) : F64 :=
  match a, b with
  | .nan, _ => .nan
  | _, .nan => .nan
  | .inf s, .inf t => if s = t then .inf s else .nan
  | .inf s, .fin _ _ => .inf s
  | .fin _ _, .inf t => .inf t
  | .fin s m, .fin t n =>
    let v := toUnits (.fin s m) + toUnits (.fin t n)
    if v = 0 then .fin (s && t) 0 else roundUnits (decide (v < 0)) v.natAbs 1

/-- `a - b`. -/
def sub (a b : F64) : F64 := add a (neg b)

/-- `a * b`. -/
def mul (a b : F64) : F64 :=
  match a, b with
  | .nan, _ => .nan
  | _, .nan => .nan
  | .inf s, .inf t => .inf (s != t)
  | .inf s, .fin t n => if n.val = 0 then .nan else .inf (s != t)
  | .fin s m, .inf t => if m.val = 0 then .nan else .inf (s != t)
  | .fin s m, .fin t n => roundUnits (s != t) (units m * units n) (2 ^ 1074)

/-- `a / b`. -/
def div (a b : F64) : F64 :=
  match a, b with
  | .nan, _ => .nan
  | _, .nan => .nan
  | .inf _, .inf _ => .nan
  | .inf s, .fin t _ => .inf (s != t)
  | .fin s _, .inf t => .fin (s != t) 0
  | .fin s m, .fin t n =>
    if n.val = 0 then (if m.val = 0 then .nan else .inf (s != t))
    else roundUnits (s != t) (units m * 2 ^ 1074) (units n)

/-- The integer square root by base-4 digits: the largest `r` with `r * r ≤ n`, for `n < 4 ^ fuel`. -/
def isqrt : Nat → Nat → Nat
  | 0, _ => 0
  | fuel + 1, n =>
    let r := 2 * isqrt fuel (n / 4)
    if (r + 1) * (r + 1) ≤ n then r + 1 else r

/-- The magnitude code nearest to the square root of `u` units (`u > 0`). `u` is scaled to an even power of two
that leaves 112 or 113 bits, its integer root has at least 56 bits, and an inexact root is marked by an odd
last bit; no rounding boundary of a 53-bit significand lies between, so one rounding is correct. -/
def sqrtMag (u : Nat) : Nat :=
  let t := (Nat.log2 u + 1074 - 111) / 2
  let h := u * 2 ^ 1074 / 2 ^ (2 * t)
  let r := isqrt 60 h
  roundMag ((2 * r + (if r * r = h then 0 else 1)) * 2 ^ t) 2

/-- `sqrt(a)`. -/
def sqrt : F64 → F64
  | .nan => .nan
  | .inf s => if s then .nan else .inf false
  | .fin s m => if m.val = 0 then .fin s m else if s then .nan else ofMag false (sqrtMag (units m))

/-! ### Conversions (R12) -/

/-- The largest integer not above a finite real. -/
def floorInt (a : F64) : Int := a.toUnits / 2 ^ 1074

/-- `floor(a)`: the largest integral real not above `a`; NaN, infinities and zeros are their own floor. -/
def floor (a : F64) : F64 :=
  match a with
  | .fin s m => if m.val = 0 then .fin s m else ofInt (floorInt a)
  | _ => a

/-- `toIndex(a, lo, hi)`. -/
def toIndex (a : F64) (lo hi : Int) : Int :=
  if a.isNaN then lo
  else if le a (ofInt lo) then lo
  else if le (ofInt hi) a then hi
  else floorInt a

end F64
end Sys2Proof
end

