-- ==== Sys2Proof/Machine/Arctan.lean ====
section
/-! DEFINITION. The arctangent of the demodulator (spec/42_demod.md R142): the named properties the spec asks of it,
and the correctly rounded arctangent, the spec's default instance (spec/93_implementation_defined.md U3). -/

namespace Sys2Proof.Machine

open Sys2Proof

/-! ### Named properties (R142) -/

/-- The exact value of a finite real; 0 for NaN and the infinities, where no property asks. -/
def value (x : F64) : ℚ := (x.toUnits : ℚ) / 2 ^ 1074

/-- One unit in the last place at a magnitude code: the distance to the next code. -/
def ulpAt (mag : Nat) : ℚ := ((F64.units (mag + 1) : ℚ) - F64.units mag) / 2 ^ 1074

/-- The magnitude code of the binary64 nearest pi/2, 0x3FF921FB54442D18 (`ATAN_RANGE`). -/
def atanBound : Fin infMag := 0x3FF921FB54442D18

/-- `ATAN_ZERO`. -/
def AtanZero (f : F64 → F64) : Prop := f (.fin false 0) = .fin false 0 ∧ f (.fin true 0) = .fin true 0

/-- `ATAN_ODD`. -/
def AtanOdd (f : F64 → F64) : Prop := ∀ x, f x.neg = (f x).neg

/-- `ATAN_MONO`. -/
def AtanMono (f : F64 → F64) : Prop := ∀ x y, F64.le x y = true → F64.le (f x) (f y) = true

/-- `ATAN_RANGE`: for every argument but NaN, with equality at the infinities. -/
def AtanRange (f : F64 → F64) : Prop :=
  (∀ x, x ≠ .nan → F64.le (f x).abs (.fin false atanBound) = true) ∧
    ∀ neg, (f (.inf neg)).abs = .fin false atanBound

/-- `ATAN_NAN`. -/
def AtanNan (f : F64 → F64) : Prop := f .nan = .nan

/-- `ATAN_ACC`: for a finite argument, a finite result within one unit in its last place of the true arctangent
(notes/assumptions/2.md). -/
def AtanAcc (f : F64 → F64) : Prop :=
  ∀ (neg : Bool) (mag : Fin infMag), ∃ (neg' : Bool) (mag' : Fin infMag), f (.fin neg mag) = .fin neg' mag' ∧
    |((value (.fin neg' mag') : ℚ) : ℝ) - Real.arctan ((value (.fin neg mag) : ℚ) : ℝ)| ≤ ((ulpAt mag'.val : ℚ) : ℝ)

/-! ### The correctly rounded arctangent

The result of a positive argument is the greatest code whose rounding boundary, the point halfway from the code
before it, is at or below the arctangent. Whether a boundary `y` is, is asked of the tangent: `sin y ≤ x * cos y`.
Sine and cosine are Taylor polynomials in exact integers. -/

/-- Numerator and denominator of `1 - y²/(a(a+1)) * (1 - y²/((a+2)(a+3)) * ...)`, `n` levels deep, where `y²` is
`y2 / d2`. From `a = 1` it is the polynomial of `cos y`, from `a = 2` that of `sin y / y`. -/
def taylor (y2 d2 : Int) : Nat → Int → Int × Int
  | 0, _ => (1, 1)
  | n + 1, a =>
    let t := taylor y2 d2 n (a + 2)
    let q := a * (a + 1) * d2 * t.2
    (q - y2 * t.1, q)

/-- Twice the point halfway between a magnitude code and the one before it, in units of 2^-1074. -/
def boundary (mag : Nat) : Int := F64.units (mag - 1) + F64.units mag

/-- Whether the arctangent of `u` units reaches the boundary below a code. -/
def reaches (u mag : Nat) : Bool :=
  let y := boundary mag
  let s := taylor (y * y) (2 ^ 2150) 30 2
  let c := taylor (y * y) (2 ^ 2150) 30 1
  decide (mag ≤ atanBound.val) && decide (0 ≤ c.1) && decide (y * s.1 * c.2 ≤ 2 * u * c.1 * s.2)

/-- The greatest `c + d`, `d < 2 ^ k`, that passes a test which fails from some point on, bit by bit. -/
def greatest (test : Nat → Bool) : Nat → Nat → Nat
  | 0, c => c
  | k + 1, c =>
    match test (c + 2 ^ k) with
    | true => greatest test k (c + 2 ^ k)
    | false => greatest test k c

/-- The magnitude code of the arctangent of `u` units. -/
@[irreducible] def arctanCode (u : Nat) : Nat := greatest (reaches u) 62 0

/-- The arctangent rounded to nearest (U3). -/
def arctanNearest : F64 → F64
  | .nan => .nan
  | .inf neg => .fin neg atanBound
  | .fin neg mag =>
    if mag.val = 0 then .fin neg mag else .ofMag neg (arctanCode (F64.units mag))

end Sys2Proof.Machine
end

