-- ==== Sys2Proof/Laws/Arctan.lean ====
section
/-! SUPPORT. The correctly rounded arctangent has the six properties of spec/42_demod.md R142. Its code is found
bit by bit, so it grows with the argument whatever the test; the test is right up to the error of the Taylor
polynomials, which is far below a unit in the last place. -/

namespace Sys2Proof.Machine

open Sys2Proof

theorem units_succ (m : Nat) : F64.units (m + 1) = F64.units m + 2 ^ (m / 2 ^ 52 - 1) := by
  unfold F64.units
  rcases Nat.lt_or_ge (m % 2 ^ 52 + 1) (2 ^ 52) with h | h
  · rw [show (m + 1) / 2 ^ 52 = m / 2 ^ 52 by omega, show (m + 1) % 2 ^ 52 = m % 2 ^ 52 + 1 by omega]
    split
    · next h0 => rw [h0]; rfl
    · ring
  · rw [show (m + 1) / 2 ^ 52 = m / 2 ^ 52 + 1 by omega, show (m + 1) % 2 ^ 52 = 0 by omega,
      show m % 2 ^ 52 = 2 ^ 52 - 1 by omega]
    split
    · next h0 => omega
    · split
      · next h0 => rw [h0]; omega
      · next h0 =>
        obtain ⟨e, he⟩ : ∃ e, m / 2 ^ 52 = e + 1 := ⟨m / 2 ^ 52 - 1, by omega⟩
        rw [he, show e + 1 + 1 - 1 = e + 1 by omega, show e + 1 - 1 = e by omega, pow_succ 2 e]
        omega

theorem units_mono : Monotone F64.units :=
  monotone_nat_of_le_succ fun m => by rw [units_succ]; exact Nat.le_add_right _ _

theorem units_le (m : Nat) : F64.units m ≤ 2 ^ 53 * 2 ^ (m / 2 ^ 52 - 1) := by
  unfold F64.units
  split
  · next h => rw [h]; omega
  · exact Nat.mul_le_mul_right _ (by omega)

theorem units_pos {m : Nat} (h : 0 < m) : 0 < F64.units m :=
  lt_of_lt_of_le (by decide) (units_mono h)

/-! ### Bit by bit -/

theorem greatest_succ (p : Nat → Bool) (k c : Nat) :
    greatest p (k + 1) c = greatest p k (if p (c + 2 ^ k) = true then c + 2 ^ k else c) := by
  rw [greatest]
  cases p (c + 2 ^ k) <;> rfl

theorem greatest_bounds (p : Nat → Bool) (k c : Nat) : c ≤ greatest p k c ∧ greatest p k c < c + 2 ^ k := by
  induction k generalizing c with
  | zero => simp [greatest]
  | succ k ih =>
    have h := ih (if p (c + 2 ^ k) then c + 2 ^ k else c)
    rw [greatest_succ, pow_succ]
    have := Nat.two_pow_pos k
    cases e : p (c + 2 ^ k) <;> simp only [e, if_true, if_false, Bool.false_eq_true] at h ⊢ <;>
      exact ⟨by linarith [h.1], by linarith [h.2]⟩

theorem greatest_mono {p q : Nat → Bool} (h : ∀ m, p m = true → q m = true) (k c : Nat) :
    greatest p k c ≤ greatest q k c := by
  induction k generalizing c with
  | zero => simp [greatest]
  | succ k ih =>
    rw [greatest_succ, greatest_succ]
    have hp := greatest_bounds p k c
    have hq := greatest_bounds q k (c + 2 ^ k)
    have hpq := h (c + 2 ^ k)
    cases ep : p (c + 2 ^ k) <;> cases eq : q (c + 2 ^ k) <;> simp_all
    omega

theorem greatest_spec (p : Nat → Bool) (k c : Nat) :
    (greatest p k c = c ∨ p (greatest p k c) = true) ∧
      (p (greatest p k c + 1) = false ∨ greatest p k c + 1 = c + 2 ^ k) := by
  induction k generalizing c with
  | zero => simp [greatest]
  | succ k ih =>
    rw [greatest_succ, pow_succ]
    have h := ih (if p (c + 2 ^ k) then c + 2 ^ k else c)
    cases e : p (c + 2 ^ k) <;> simp only [e, if_true, if_false, Bool.false_eq_true] at h ⊢
    · refine ⟨h.1, .inl ?_⟩
      rcases h.2 with h | h
      · exact h
      · rw [h, e]
    · refine ⟨.inr ?_, ?_⟩
      · rcases h.1 with h | h
        · rw [h, e]
        · exact h
      · rcases h.2 with h | h
        · exact .inl h
        · right; omega

/-! ### The Taylor polynomials -/

theorem taylor_den_pos {y2 d2 : Int} (hd : 0 < d2) (n : Nat) {a : Int} (ha : 0 < a) : 0 < (taylor y2 d2 n a).2 := by
  induction n generalizing a with
  | zero => simp [taylor]
  | succ n ih => simp only [taylor]; have := ih (a := a + 2) (by omega); positivity

theorem taylor_eq {y2 d2 : Int} (hd : 0 < d2) (n a : Nat) :
    ((taylor y2 d2 n (a + 1)).1 : ℝ) / (taylor y2 d2 n (a + 1)).2 =
      ∑ k ∈ Finset.range (n + 1), (-1) ^ k * ((y2 : ℝ) / d2) ^ k * (a.factorial / (a + 2 * k).factorial) := by
  induction n generalizing a with
  | zero => simp [taylor]; field_simp
  | succ n ih =>
    have hq := taylor_den_pos (y2 := y2) hd n (a := a + 3) (by omega)
    have h := ih (a + 2)
    rw [show ((a + 2 : Nat) : Int) + 1 = a + 3 by push_cast; ring] at h
    rw [Finset.sum_range_succ']
    have e : ((taylor y2 d2 (n + 1) (a + 1)).1 : ℝ) / (taylor y2 d2 (n + 1) (a + 1)).2 =
        1 - (y2 / d2 : ℝ) / ((a + 1) * (a + 2)) * ((taylor y2 d2 n (a + 3)).1 / (taylor y2 d2 n (a + 3)).2) := by
      simp only [taylor]
      rw [show (a : Int) + 1 + 2 = a + 3 by ring, show (a : Int) + 1 + 1 = a + 2 by ring]
      have hd' : (d2 : ℝ) ≠ 0 := by exact_mod_cast hd.ne'
      have hq' : ((taylor y2 d2 n (a + 3)).2 : ℝ) ≠ 0 := by exact_mod_cast hq.ne'
      have h1 : (a : ℝ) + 1 ≠ 0 := by positivity
      have h2 : (a : ℝ) + 2 ≠ 0 := by positivity
      push_cast
      field_simp
    rw [e, h, Finset.mul_sum, sub_eq_add_neg, ← Finset.sum_neg_distrib, add_comm]
    congr 1
    · refine Finset.sum_congr rfl fun k _ => ?_
      rw [show a + 2 * (k + 1) = a + 2 + 2 * k by ring, show (a + 2).factorial = (a + 2) * ((a + 1) * a.factorial) from rfl]
      have h1 : (a : ℝ) + 1 ≠ 0 := by positivity
      have h2 : (a : ℝ) + 2 ≠ 0 := by positivity
      have h3 : ((a + 2 + 2 * k).factorial : ℝ) ≠ 0 := by positivity
      have hd' : (d2 : ℝ) ≠ 0 := by exact_mod_cast hd.ne'
      push_cast
      rw [div_pow, div_pow, pow_succ (y2 : ℝ), pow_succ (d2 : ℝ), pow_succ (-1 : ℝ)]
      field_simp
    · simp; field_simp

theorem exp_partial (y : ℝ) (n : Nat) :
    ∑ m ∈ Finset.range (2 * n), ((y * Complex.I : ℂ)) ^ m / m.factorial =
      ((∑ k ∈ Finset.range n, (-1) ^ k * y ^ (2 * k) / (2 * k).factorial : ℝ) : ℂ) +
      ((∑ k ∈ Finset.range n, (-1) ^ k * y ^ (2 * k + 1) / (2 * k + 1).factorial : ℝ) : ℂ) * Complex.I := by
  induction n with
  | zero => simp
  | succ n ih =>
    rw [show 2 * (n + 1) = 2 * n + 1 + 1 by ring, Finset.sum_range_succ, Finset.sum_range_succ, ih,
      Finset.sum_range_succ, Finset.sum_range_succ]
    have h : (Complex.I) ^ (2 * n) = (-1) ^ n := by rw [pow_mul, Complex.I_sq]
    rw [mul_pow, mul_pow, pow_succ Complex.I, h]
    push_cast
    ring

/-- Both polynomials are within 2^-60 of a `y` in (0, 2), relative to `y`. -/
theorem taylor_error {y : ℝ} (h0 : 0 < y) (h2 : y < 2) :
    |Real.cos y - ∑ k ∈ Finset.range 31, (-1) ^ k * y ^ (2 * k) / (2 * k).factorial| ≤ y / 2 ^ 60 ∧
      |Real.sin y - ∑ k ∈ Finset.range 31, (-1) ^ k * y ^ (2 * k + 1) / (2 * k + 1).factorial| ≤ y / 2 ^ 60 := by
  have hn : ‖(y * Complex.I : ℂ)‖ = y := by simp [abs_of_pos h0]
  have h := Complex.exp_bound' (x := (y * Complex.I : ℂ)) (n := 62) (by rw [hn]; norm_num; linarith)
  rw [hn, exp_partial y 31, Complex.exp_mul_I, ← Complex.ofReal_cos, ← Complex.ofReal_sin] at h
  have he : y ^ 62 / (Nat.factorial 62 : ℝ) * 2 ≤ y / 2 ^ 60 := by
    have h61 : y ^ 61 ≤ 2 ^ 61 := pow_le_pow_left₀ h0.le h2.le 61
    have : y ^ 62 ≤ 2 ^ 61 * y := by rw [pow_succ]; exact mul_le_mul_of_nonneg_right h61 h0.le
    calc y ^ 62 / (Nat.factorial 62 : ℝ) * 2 ≤ 2 ^ 61 * y / (Nat.factorial 62 : ℝ) * 2 := by gcongr
      _ = y * (2 ^ 62 / (Nat.factorial 62 : ℝ)) := by ring
      _ ≤ y * (1 / 2 ^ 60) := by
        refine mul_le_mul_of_nonneg_left ?_ h0.le
        rw [div_le_div_iff₀ (by positivity) (by positivity)]
        norm_num [Nat.factorial]
      _ = _ := by ring
  set c := ∑ k ∈ Finset.range 31, (-1) ^ k * y ^ (2 * k) / ((2 * k).factorial : ℝ)
  set s := ∑ k ∈ Finset.range 31, (-1) ^ k * y ^ (2 * k + 1) / ((2 * k + 1).factorial : ℝ)
  rw [show (Real.cos y : ℂ) + Real.sin y * Complex.I - (c + s * Complex.I) =
    ((Real.cos y - c : ℝ) : ℂ) + ((Real.sin y - s : ℝ) : ℂ) * Complex.I by push_cast; ring] at h
  constructor
  · have := Complex.abs_re_le_norm (((Real.cos y - c : ℝ) : ℂ) + ((Real.sin y - s : ℝ) : ℂ) * Complex.I)
    simp only [Complex.add_re, Complex.ofReal_re, Complex.mul_re, Complex.I_re, Complex.I_im, Complex.ofReal_im] at this
    simp only [mul_zero, zero_mul, sub_zero, add_zero] at this
    linarith
  · have := Complex.abs_im_le_norm (((Real.cos y - c : ℝ) : ℂ) + ((Real.sin y - s : ℝ) : ℂ) * Complex.I)
    simp only [Complex.add_im, Complex.ofReal_re, Complex.mul_im, Complex.I_re, Complex.I_im, Complex.ofReal_im] at this
    simp only [mul_zero, mul_one, zero_add, add_zero] at this
    linarith


/-! ### Rounding boundaries -/

theorem boundary_succ (m : Nat) : boundary (m + 1) = 2 * F64.units m + 2 ^ (m / 2 ^ 52 - 1) := by
  simp only [boundary, Nat.add_sub_cancel, units_succ]
  push_cast
  ring

theorem pi_gt : (2 * (F64.units atanBound : ℝ) / 2 ^ 1074) < Real.pi := by
  have h : F64.units atanBound = 7074237752028440 * 2 ^ 1022 := by decide +kernel
  rw [h, show (1074 : Nat) = 1022 + 52 by rfl, pow_add]
  have := Real.pi_gt_d20
  push_cast
  have hp : (0 : ℝ) < 2 ^ 1022 := by positivity
  generalize (2 : ℝ) ^ 1022 = p at *
  rw [div_lt_iff₀ (by positivity)]
  nlinarith

theorem pi_lt : Real.pi < 2 * ((F64.units atanBound : ℝ) + 2 ^ 1022) / 2 ^ 1074 := by
  have h : F64.units atanBound = 7074237752028440 * 2 ^ 1022 := by decide +kernel
  rw [h, show (1074 : Nat) = 1022 + 52 by rfl, pow_add]
  have := Real.pi_lt_d20
  push_cast
  have hp : (0 : ℝ) < 2 ^ 1022 := by positivity
  generalize (2 : ℝ) ^ 1022 = p at *
  rw [lt_div_iff₀ (by positivity)]
  nlinarith

/-- A boundary is a positive angle below pi/2. -/
theorem boundary_range {m : Nat} (h0 : 0 < m) (hm : m ≤ atanBound.val) :
    0 < (boundary m : ℝ) / 2 ^ 1075 ∧ (boundary m : ℝ) / 2 ^ 1075 < Real.pi / 2 := by
  have h1 := units_pos h0
  have h2 := units_mono hm
  have h3 := units_mono (Nat.sub_le m 1)
  have hb : 0 < boundary m := by simp only [boundary]; omega
  have hb' : boundary m ≤ 2 * F64.units atanBound := by simp only [boundary]; omega
  refine ⟨div_pos (by exact_mod_cast hb) (by positivity), ?_⟩
  have hb'' : (boundary m : ℝ) ≤ 2 * F64.units atanBound := by exact_mod_cast hb'
  have := pi_gt
  rw [show (1075 : Nat) = 1074 + 1 by rfl, pow_succ, ← div_div]
  have : (boundary m : ℝ) / 2 ^ 1074 ≤ 2 * F64.units atanBound / 2 ^ 1074 := by gcongr
  linarith

/-- What the test says, in reals: `y * s ≤ x * c` for polynomials near the sine and the cosine. -/
theorem reaches_iff {u m : Nat} (h0 : 0 < m) (hm : m ≤ atanBound.val) :
    ∃ s c : ℝ, |Real.sin ((boundary m : ℝ) / 2 ^ 1075) - s| ≤ (boundary m : ℝ) / 2 ^ 1075 / 2 ^ 60 ∧
      |Real.cos ((boundary m : ℝ) / 2 ^ 1075) - c| ≤ (boundary m : ℝ) / 2 ^ 1075 / 2 ^ 60 ∧
      (reaches u m = true ↔ 0 ≤ c ∧ s ≤ (u : ℝ) / 2 ^ 1074 * c) := by
  obtain ⟨hy0, hy1⟩ := boundary_range h0 hm
  have hy2 : (boundary m : ℝ) / 2 ^ 1075 < 2 := by linarith [Real.pi_le_four]
  obtain ⟨hc, hs⟩ := taylor_error hy0 hy2
  have ec := taylor_eq (y2 := boundary m * boundary m) (d2 := 2 ^ 2150) (by positivity) 30 0
  have es := taylor_eq (y2 := boundary m * boundary m) (d2 := 2 ^ 2150) (by positivity) 30 1
  have pc := taylor_den_pos (y2 := boundary m * boundary m) (d2 := 2 ^ 2150) (by positivity) 30 (a := 1) (by omega)
  have ps := taylor_den_pos (y2 := boundary m * boundary m) (d2 := 2 ^ 2150) (by positivity) 30 (a := 2) (by omega)
  have hr : reaches u m = true ↔ 0 ≤ (taylor (boundary m * boundary m) (2 ^ 2150) 30 1).1 ∧
      boundary m * (taylor (boundary m * boundary m) (2 ^ 2150) 30 2).1 *
        (taylor (boundary m * boundary m) (2 ^ 2150) 30 1).2 ≤
      2 * u * (taylor (boundary m * boundary m) (2 ^ 2150) 30 1).1 *
        (taylor (boundary m * boundary m) (2 ^ 2150) 30 2).2 := by
    simp [reaches, hm]
  simp only [Nat.cast_zero, zero_add, Nat.cast_one, one_add_one_eq_two] at ec es
  rw [hr]
  generalize taylor (boundary m * boundary m) (2 ^ 2150) 30 1 = tc at *
  generalize taylor (boundary m * boundary m) (2 ^ 2150) 30 2 = ts at *
  have hsq : (((boundary m * boundary m : Int) : ℝ) / ((2 ^ 2150 : Int) : ℝ)) = ((boundary m : ℝ) / 2 ^ 1075) ^ 2 := by
    push_cast
    rw [div_pow, ← pow_mul, sq]
  rw [hsq] at ec es
  set y := (boundary m : ℝ) / 2 ^ 1075 with hy
  refine ⟨y * (ts.1 / ts.2), tc.1 / tc.2, ?_, ?_, ?_⟩
  · convert hs using 3
    rw [es, Finset.mul_sum]
    refine Finset.sum_congr rfl fun k _ => ?_
    rw [← pow_mul, add_comm 1 (2 * k)]
    simp
    ring
  · convert hc using 3
    rw [ec]
    refine Finset.sum_congr rfl fun k _ => ?_
    rw [← pow_mul]
    simp
    ring
  · have pc' : (0 : ℝ) < tc.2 := by exact_mod_cast pc
    have ps' : (0 : ℝ) < ts.2 := by exact_mod_cast ps
    have hb : (boundary m : ℝ) = y * 2 ^ 1075 := by rw [hy]; field_simp
    have h1 : (0 ≤ tc.1) ↔ (0 : ℝ) ≤ tc.1 / tc.2 := by
      rw [le_div_iff₀ pc', zero_mul]; exact_mod_cast Iff.rfl
    have h2 : (boundary m * ts.1 * tc.2 ≤ 2 * u * tc.1 * ts.2) ↔
        y * ((ts.1 : ℝ) / ts.2) ≤ (u : ℝ) / 2 ^ 1074 * (tc.1 / tc.2) := by
      rw [show (boundary m * ts.1 * tc.2 ≤ 2 * u * tc.1 * ts.2) ↔
        ((boundary m : ℝ) * ts.1 * tc.2 ≤ 2 * u * tc.1 * ts.2) by exact_mod_cast Iff.rfl, hb,
        mul_div_assoc', div_mul_div_comm, div_le_div_iff₀ ps' (by positivity), show (1075 : Nat) = 1074 + 1 by rfl,
        pow_succ]
      generalize (2 : ℝ) ^ 1074 = p
      constructor <;> intro h <;> nlinarith
    rw [h1, h2]

theorem sin_sub_arctan (x y : ℝ) :
    Real.sin (y - Real.arctan x) = Real.cos (Real.arctan x) * (Real.sin y - x * Real.cos y) := by
  have hc := (Real.cos_arctan_pos x).ne'
  have : Real.sin (Real.arctan x) = x * Real.cos (Real.arctan x) := by
    have ht := Real.tan_arctan x
    rw [Real.tan_eq_sin_div_cos, div_eq_iff hc] at ht
    exact ht
  rw [Real.sin_sub, this]
  ring

/-- A code that passes the test has its boundary at or below the arctangent, up to 2^-58 of it; one that fails has it
above. -/
theorem reaches_arctan {u m : Nat} (h0 : 0 < m) (hm : m ≤ atanBound.val) :
    let y := (boundary m : ℝ) / 2 ^ 1075
    let a := Real.arctan ((u : ℝ) / 2 ^ 1074)
    (reaches u m = true → y ≤ a + y / 2 ^ 58) ∧ (reaches u m = false → a ≤ y + y / 2 ^ 58) := by
  intro y a
  obtain ⟨hy0, hy1⟩ := boundary_range h0 hm
  obtain ⟨s, c, hs, hc, hr⟩ := reaches_iff (u := u) h0 hm
  change 0 < y at hy0
  change y < _ at hy1
  change |Real.sin y - s| ≤ y / 2 ^ 60 at hs
  change |Real.cos y - c| ≤ y / 2 ^ 60 at hc
  have hx : (0 : ℝ) ≤ (u : ℝ) / 2 ^ 1074 := by positivity
  set x : ℝ := (u : ℝ) / 2 ^ 1074 with hxd
  have ha0 : 0 ≤ a := Real.arctan_nonneg.2 hx
  have ha1 : a < Real.pi / 2 := Real.arctan_lt_pi_div_two x
  have hcos := Real.cos_arctan_pos x
  have hk1 := Real.cos_le_one (Real.arctan x)
  have hkx : x * Real.cos (Real.arctan x) ≤ 1 := by
    have : Real.sin (Real.arctan x) = x * Real.cos (Real.arctan x) := by
      have h := sin_sub_arctan x 0
      simp at h
      linarith
    rw [← this]
    exact Real.sin_le_one _
  have hsin := sin_sub_arctan x y
  change Real.sin (y - a) = _ at hsin
  set k := Real.cos (Real.arctan x) with hk
  rw [abs_le] at hs hc
  have he : (0 : ℝ) < y / 2 ^ 60 := by positivity
  have hpi := Real.pi_le_four
  have h58 : y / 2 ^ 58 = 4 * (y / 2 ^ 60) := by ring
  have bound : k * (y / 2 ^ 60 * (1 + x)) ≤ 2 * (y / 2 ^ 60) := by nlinarith
  rw [h58]
  generalize y / 2 ^ 60 = e at *
  constructor
  · intro h
    obtain ⟨_, h⟩ := hr.1 h
    by_contra hlt
    push Not at hlt
    have ht : 0 ≤ y - a := by linarith
    have hj := Real.mul_le_sin ht (by linarith)
    have hup : Real.sin (y - a) ≤ 2 * e := by
      rw [hsin]
      refine le_trans (mul_le_mul_of_nonneg_left ?_ hcos.le) bound
      nlinarith
    have : 2 / Real.pi * (y - a) ≥ 1 / 2 * (y - a) := by
      refine mul_le_mul_of_nonneg_right ?_ ht
      rw [div_le_div_iff₀ (by norm_num) Real.pi_pos]
      linarith
    linarith
  · intro h
    by_contra hlt
    push Not at hlt
    have ht : 0 ≤ a - y := by linarith
    have hj := Real.mul_le_sin ht (by linarith)
    have hlow : x * c ≤ s := by
      by_cases h0 : 0 ≤ c
      · by_contra hn
        exact absurd (hr.2 ⟨h0, (not_le.1 hn).le⟩) (by simp [h])
      · have hj' := Real.mul_le_sin hy0.le hy1.le
        have : (1 : ℝ) / 2 * y ≤ 2 / Real.pi * y := by
          refine mul_le_mul_of_nonneg_right ?_ hy0.le
          rw [div_le_div_iff₀ (by norm_num) Real.pi_pos]
          linarith
        push Not at h0
        nlinarith
    have hup : Real.sin (a - y) ≤ 2 * e := by
      rw [show a - y = -(y - a) by ring, Real.sin_neg, hsin, ← mul_neg]
      refine le_trans (mul_le_mul_of_nonneg_left ?_ hcos.le) bound
      nlinarith
    have : 2 / Real.pi * (a - y) ≥ 1 / 2 * (a - y) := by
      refine mul_le_mul_of_nonneg_right ?_ ht
      rw [div_le_div_iff₀ (by norm_num) Real.pi_pos]
      linarith
    linarith

/-! ### The six properties of R142 -/

/-- A greater argument reaches every boundary that a smaller one does. -/
theorem reaches_mono {u u' : Nat} (h : u ≤ u') (m : Nat) (hr : reaches u m = true) : reaches u' m = true := by
  have ps := taylor_den_pos (y2 := boundary m * boundary m) (d2 := 2 ^ 2150) (by positivity) 30 (a := 2) (by omega)
  simp only [reaches, Bool.and_eq_true, decide_eq_true_eq] at hr ⊢
  refine ⟨hr.1, hr.2.trans ?_⟩
  have hu : (u : Int) ≤ u' := by exact_mod_cast h
  exact mul_le_mul_of_nonneg_right (mul_le_mul_of_nonneg_right (by omega) hr.1.2) ps.le

theorem arctanCode_mono {u u' : Nat} (h : u ≤ u') : arctanCode u ≤ arctanCode u' := by
  unfold arctanCode
  exact greatest_mono (reaches_mono h) 62 0

/-- The code of the arctangent is the last one whose boundary is reached. -/
theorem arctanCode_spec (u : Nat) : arctanCode u ≤ atanBound.val ∧
    (arctanCode u = 0 ∨ reaches u (arctanCode u) = true) ∧
    (arctanCode u = atanBound.val ∨ reaches u (arctanCode u + 1) = false) := by
  have h := greatest_spec (reaches u) 62 0
  rw [show greatest (reaches u) 62 0 = arctanCode u by unfold arctanCode; rfl] at h
  have hle : arctanCode u ≤ atanBound.val := by
    rcases h.1 with h | h
    · rw [h]; exact Nat.zero_le _
    · simp only [reaches, Bool.and_eq_true, decide_eq_true_eq] at h
      exact h.1.1
  refine ⟨hle, h.1, ?_⟩
  rcases h.2 with h | h
  · exact .inr h
  · have : atanBound.val < 2 ^ 62 - 1 := by decide
    omega

theorem arctanNearest_fin (neg : Bool) (mag : Fin infMag) (h : mag.val ≠ 0) :
    arctanNearest (.fin neg mag) =
      .fin neg ⟨arctanCode (F64.units mag), (arctanCode_spec _).1.trans_lt atanBound.isLt⟩ := by
  rw [arctanNearest, if_neg h, F64.ofMag, dif_pos]

/-- On finite arguments: the sign stays, and the code is one that grows with the argument's. -/
theorem arctanNearest_code :
    ∃ g : Fin infMag → Fin infMag, Monotone g ∧ (∀ m, g m ≤ atanBound) ∧ g 0 = 0 ∧
      ∀ neg mag, arctanNearest (.fin neg mag) = .fin neg (g mag) := by
  refine ⟨fun mag => if mag.val = 0 then mag else
    ⟨arctanCode (F64.units mag), (arctanCode_spec _).1.trans_lt atanBound.isLt⟩, ?_, ?_, rfl, ?_⟩
  · intro m n h
    dsimp only
    split
    · next h0 => exact Fin.le_def.2 (by rw [h0]; exact Nat.zero_le _)
    · next h0 =>
      rw [if_neg (by have := Fin.le_def.1 h; omega)]
      exact arctanCode_mono (units_mono h)
  · intro m
    dsimp only
    split
    · next h0 => exact Fin.le_def.2 (by rw [h0]; exact Nat.zero_le _)
    · exact (arctanCode_spec _).1
  · intro neg mag
    dsimp only
    split
    · next h0 => rw [arctanNearest, if_pos h0]
    · next h0 => exact arctanNearest_fin neg mag h0

theorem arctanNearest_inf (neg : Bool) : arctanNearest (.inf neg) = .fin neg atanBound := rfl

theorem arctanNearest_zero : AtanZero arctanNearest := ⟨rfl, rfl⟩

theorem arctanNearest_nan : AtanNan arctanNearest := rfl

theorem arctanNearest_odd : AtanOdd arctanNearest := by
  obtain ⟨g, _, _, _, hg⟩ := arctanNearest_code
  intro x
  cases x with
  | nan => rfl
  | inf neg => rfl
  | fin neg mag => simp only [F64.neg, hg]

theorem arctanNearest_range : AtanRange arctanNearest := by
  obtain ⟨g, _, hb, _, hg⟩ := arctanNearest_code
  refine ⟨fun x hx => ?_, fun neg => rfl⟩
  cases x with
  | nan => exact absurd rfl hx
  | inf neg => simp [arctanNearest, F64.abs, F64.le, F64.key]
  | fin neg mag =>
    have := Fin.le_def.1 (hb mag)
    simp only [hg, F64.abs, F64.le, F64.key, decide_eq_true_eq]
    simpa using this

theorem arctanNearest_mono : AtanMono arctanNearest := by
  obtain ⟨g, hm, hb, h0, hg⟩ := arctanNearest_code
  have hm' : ∀ m n : Fin infMag, m.val ≤ n.val → (g m).val ≤ (g n).val := fun m n h => Fin.le_def.1 (hm (Fin.le_def.2 h))
  have hz : ∀ m : Fin infMag, m.val = 0 → (g m).val = 0 := fun m h => by
    rw [show m = 0 from Fin.ext h, h0]; rfl
  have hb' : ∀ m, (g m).val ≤ atanBound.val := fun m => Fin.le_def.1 (hb m)
  intro x y h
  rcases x with _ | s | ⟨s, m⟩ <;> rcases y with _ | t | ⟨t, n⟩ <;>
    simp only [hg, arctanNearest_inf, F64.le, F64.key, decide_eq_true_eq, Bool.false_eq_true] at h ⊢
  all_goals
    cases s <;> cases t <;> simp only [Bool.false_eq_true, if_true, if_false] at h ⊢
  all_goals first
    | omega
    | (have h1 := n.isLt; have h2 := hb' n; have h3 := hz n; omega)
    | (have h1 := m.isLt; have h2 := hb' m; have h3 := hz m; omega)
    | (have h1 := hm' m n; have h2 := hm' n m; have h3 := hz m; have h4 := hz n; omega)

/-- The value at the code of the arctangent of `u` units is within one unit in its last place of the arctangent. -/
theorem arctanCode_acc (u : Nat) : |(F64.units (arctanCode u) : ℝ) / 2 ^ 1074 - Real.arctan ((u : ℝ) / 2 ^ 1074)| ≤
    (2 ^ (arctanCode u / 2 ^ 52 - 1) : ℝ) / 2 ^ 1074 := by
  obtain ⟨hle, hsp⟩ := arctanCode_spec u
  generalize arctanCode u = r at *
  have hpos : (0 : ℝ) < 2 ^ 1074 := by positivity
  have hun := units_le r
  have hgap : (1 : ℝ) ≤ 2 ^ (r / 2 ^ 52 - 1) := one_le_pow₀ (by norm_num)
  have hun' : (F64.units r : ℝ) ≤ 2 ^ 53 * 2 ^ (r / 2 ^ 52 - 1) := by exact_mod_cast hun
  have hv0 : (0 : ℝ) ≤ F64.units r := by positivity
  have hval : (F64.units r : ℝ) / 2 ^ 1074 ≤ 2 ^ 53 * (2 ^ (r / 2 ^ 52 - 1) / 2 ^ 1074) := by
    rw [mul_div_assoc']; gcongr
  have hv0' : (0 : ℝ) ≤ (F64.units r : ℝ) / 2 ^ 1074 := by positivity
  have ha0 : 0 ≤ Real.arctan ((u : ℝ) / 2 ^ 1074) := Real.arctan_nonneg.2 (by positivity)
  rw [abs_le]
  constructor
  · -- from above
    by_cases hb : r + 1 ≤ atanBound.val
    · have hf : reaches u (r + 1) = false := by
        rcases hsp.2 with h | h
        · omega
        · exact h
      have h := (reaches_arctan (u := u) (Nat.succ_pos r) hb).2 hf
      have e : (boundary (r + 1) : ℝ) / 2 ^ 1075 =
          (F64.units r : ℝ) / 2 ^ 1074 + (2 ^ (r / 2 ^ 52 - 1) : ℝ) / 2 ^ 1074 / 2 := by
        rw [boundary_succ, show (1075 : Nat) = 1074 + 1 by rfl, pow_succ]
        push_cast
        field_simp
      rw [e] at h
      have hg0 : (0 : ℝ) < (2 ^ (r / 2 ^ 52 - 1) : ℝ) / 2 ^ 1074 := by positivity
      generalize (F64.units r : ℝ) / 2 ^ 1074 = v at *
      generalize (2 ^ (r / 2 ^ 52 - 1) : ℝ) / 2 ^ 1074 = g at *
      norm_num at h hval
      linarith
    · have hrb : r = atanBound.val := by omega
      have hpi := pi_lt
      have := Real.arctan_lt_pi_div_two ((u : ℝ) / 2 ^ 1074)
      have hg : r / 2 ^ 52 - 1 = 1022 := by rw [hrb]; decide
      rw [hg, ← hrb] at *
      have e : 2 * ((F64.units r : ℝ) + 2 ^ 1022) / 2 ^ 1074 =
        2 * ((F64.units r : ℝ) / 2 ^ 1074 + 2 ^ 1022 / 2 ^ 1074) := by ring
      rw [e] at hpi
      linarith
  · -- from below
    by_cases hr0 : r = 0
    · have : (0 : ℝ) ≤ (2 ^ (r / 2 ^ 52 - 1) : ℝ) / 2 ^ 1074 := by positivity
      rw [hr0] at *
      have : (F64.units 0 : ℝ) / 2 ^ 1074 = 0 := by simp [F64.units]
      linarith
    · have ht : reaches u r = true := by
        rcases hsp.1 with h | h
        · exact absurd h hr0
        · exact h
      have h := (reaches_arctan (u := u) (Nat.pos_of_ne_zero hr0) hle).1 ht
      obtain ⟨r', hr'⟩ : ∃ r', r = r' + 1 := ⟨r - 1, by omega⟩
      have hb : (2 : ℝ) * F64.units r - 2 ^ (r / 2 ^ 52 - 1) ≤ boundary r ∧ (boundary r : ℝ) ≤ 2 * F64.units r := by
        have h1 := units_succ r'
        rw [← hr'] at h1
        have h2 : boundary r = F64.units r' + F64.units r := by rw [hr']; rfl
        have h3 : 2 ^ (r' / 2 ^ 52 - 1) ≤ 2 ^ (r / 2 ^ 52 - 1) :=
          Nat.pow_le_pow_right (by norm_num) (by omega)
        rw [h2]
        constructor
        · have : 2 * (F64.units r : ℝ) ≤ F64.units r' + F64.units r + 2 ^ (r / 2 ^ 52 - 1) := by
            exact_mod_cast (by omega : 2 * F64.units r ≤ F64.units r' + F64.units r + 2 ^ (r / 2 ^ 52 - 1))
          push_cast
          linarith
        · have : (F64.units r' : ℝ) ≤ F64.units r := by exact_mod_cast units_mono (by omega : r' ≤ r)
          push_cast
          linarith
      have e : (boundary r : ℝ) / 2 ^ 1075 = (boundary r : ℝ) / 2 / 2 ^ 1074 := by
        rw [show (1075 : Nat) = 1074 + 1 by rfl, pow_succ]; field_simp
      have l1 : (F64.units r : ℝ) / 2 ^ 1074 - (2 ^ (r / 2 ^ 52 - 1) : ℝ) / 2 ^ 1074 / 2 ≤ (boundary r : ℝ) / 2 ^ 1075 := by
        rw [e, div_right_comm, ← sub_div]
        gcongr
        linarith [hb.1]
      have l2 : (boundary r : ℝ) / 2 ^ 1075 ≤ (F64.units r : ℝ) / 2 ^ 1074 := by
        rw [e]
        gcongr
        linarith [hb.2]
      generalize (boundary r : ℝ) / 2 ^ 1075 = y at *
      generalize (F64.units r : ℝ) / 2 ^ 1074 = v at *
      generalize (2 ^ (r / 2 ^ 52 - 1) : ℝ) / 2 ^ 1074 = g at *
      norm_num at h hval
      linarith

/-- The exact value of a finite real and its unit in the last place, as reals. -/
theorem value_fin (neg : Bool) (mag : Fin infMag) : ((value (.fin neg mag) : ℚ) : ℝ) =
    if neg then -((F64.units mag : ℝ) / 2 ^ 1074) else (F64.units mag : ℝ) / 2 ^ 1074 := by
  cases neg <;> (simp [value, F64.toUnits]; try ring)

theorem ulpAt_eq (mag : Nat) : ((ulpAt mag : ℚ) : ℝ) = (2 ^ (mag / 2 ^ 52 - 1) : ℝ) / 2 ^ 1074 := by
  rw [ulpAt, units_succ]
  push_cast
  ring

theorem arctanNearest_acc : AtanAcc arctanNearest := by
  intro neg mag
  by_cases h0 : mag.val = 0
  · refine ⟨neg, mag, by rw [arctanNearest, if_pos h0], ?_⟩
    have hu : F64.units mag = 0 := by rw [h0]; rfl
    rw [value_fin, hu, ulpAt_eq]
    simp only [Nat.cast_zero, zero_div, neg_zero, ite_self, Real.arctan_zero, sub_zero, abs_zero]
    positivity
  · refine ⟨neg, _, arctanNearest_fin neg mag h0, ?_⟩
    have key := arctanCode_acc (F64.units mag)
    rw [value_fin, value_fin, ulpAt_eq]
    cases neg with
    | false => exact key
    | true =>
      simp only [if_true, Real.arctan_neg]
      rw [← abs_neg]
      convert key using 2
      ring

end Sys2Proof.Machine
end

