-- ==== Sys2Proof/Config.lean ====
section
/-! DEFINITION. What the spec leaves open as a parameter of the model or as a free value: constants with no
body, so nothing can be proved of their values (spec/00_scope.md R7, spec/93_implementation_defined.md). -/

namespace Sys2Proof

/-- The two agents that take steps inside the block (R15 (1) and (2)). The third agent, the host, acts only on
the ports, between steps. -/
inductive Agent where
  | command
  | notification
deriving DecidableEq, Repr, Inhabited

/-- The coefficient table `TAPS`: 129 rows of 8 finite reals, each entry a sign and a finite magnitude code, so
that `TAPS_FINITE` holds by construction (R170, R177; U1: any value; notes/assumptions/1.md). -/
opaque Config.tap : Fin 129 → Fin 8 → Bool × Fin infMag

/-- A function that R142 allows as `ATAN`: a function on reals with the six named properties. That there is one is
shown by the correctly rounded arctangent, the spec's default instance (U3). -/
structure ArctanFunction where
  fn : F64 → F64 := Machine.arctanNearest
  zero : Machine.AtanZero fn := by exact Machine.arctanNearest_zero
  odd : Machine.AtanOdd fn := by exact Machine.arctanNearest_odd
  mono : Machine.AtanMono fn := by exact Machine.arctanNearest_mono
  range : Machine.AtanRange fn := by exact Machine.arctanNearest_range
  nan : Machine.AtanNan fn := by exact Machine.arctanNearest_nan
  acc : Machine.AtanAcc fn := by exact Machine.arctanNearest_acc
deriving Inhabited

/-- The arctangent `ATAN` of this machine: any function with the six named properties (R142; U3: a parameter;
notes/assumptions/2.md). -/
opaque Config.atan : ArctanFunction

/-- The sign bit and the non-zero fraction (less one) of the n-th NaN word the block puts on DOUT (R10, U28: any
binary64 NaN; notes/assumptions/3.md). -/
opaque Config.freeNan : Nat → Bool × Fin 0xFFFFFFFFFFFFF

/-- Which agent moves at the n-th boundary at which both could (R71, R243, U9: any interleaving;
notes/assumptions/4.md). -/
opaque Config.arbiter : Nat → Agent

end Sys2Proof
end

