-- ==== Sys2Proof/Syntax.lean ====
section
/-! DEFINITION. The thirty operations of spec/30_encoding.md R84, one constructor per row of
spec/opcode_table.json. A format A operation carries its immediate `ARG`. -/

namespace Sys2Proof

/-- The two ports that carry operation words (R80, R82). -/
inductive Port where
  | cmd
  | ntf
deriving DecidableEq, Repr

/-- An operation: twenty-eight commands and two notifications (R84). -/
inductive Instr where
  | nop
  | rstall
  /-- `RSTU u`: reset one unit. -/
  | rstu (u : Arg)
  /-- `WRP p`: write a parameter register. -/
  | wrp (p : Arg)
  /-- `RDP p`: read a parameter register. -/
  | rdp (p : Arg)
  /-- `RDS s`: read a state register. -/
  | rds (r : Arg)
  | pcmLd
  | pcmLdc
  | pcmSt
  | dcfStep
  | dcfStepc
  /-- `DCF.BLOCK n`: n samples. -/
  | dcfBlock (n : Arg)
  /-- `DCF.BLOCKC n`: n pairs. -/
  | dcfBlockc (n : Arg)
  | iqcStep
  | fmdStep
  | amdStep
  | agcStep
  | dgcCorrect
  | dgcInc
  | dgcDec
  /-- `INT.FIR k`: row k of `TAPS`. -/
  | intFir (k : Arg)
  /-- `INT.FIRC k`: row k of `TAPS`. -/
  | intFirc (k : Arg)
  | intFirmu
  | intFirmuc
  | rsmPush
  | rsmPushc
  | synStep
  | synEndbuf
  | synAck
  | synRate
deriving DecidableEq, Repr

end Sys2Proof
end

