-- ==== Sys2Proof/Decode.lean ====
section
/-! DEFINITION. The decoder of command and notification words, total on every 32-bit word, and the encoder
(spec/30_encoding.md R81 to R85, R88). -/

namespace Sys2Proof

/-- The three formats (R82). -/
inductive Format where
  | z
  | a
  | n
deriving DecidableEq, Repr

/-- Why a word is illegal, in the order the decoder tests (R85 (1) to (3), R88). Each is the block's fault
`ILLEGAL_OP`. -/
inductive DecodeError where
  /-- `RSV`, bits 23:16, is not zero. -/
  | reservedBits
  /-- No row of the operation map has this `UNIT` and `OP`. -/
  | noSuchOperation
  /-- A notification word on CMD, or a command word on NTF. -/
  | wrongPort
  /-- `ARG` is not zero in format Z or N. -/
  | nonzeroArgument
deriving DecidableEq, Repr

/-! ### The fields of a word (R81) -/

def unitField (w : Word32) : BitVec 4 := w.extractLsb' 28 4
def opField (w : Word32) : BitVec 4 := w.extractLsb' 24 4
def rsvField (w : Word32) : BitVec 8 := w.extractLsb' 16 8
def argField (w : Word32) : Arg := w.extractLsb' 0 16

/-! ### The operation map (R84) -/

/-- The operation with this `UNIT` and `OP`, carrying `arg` where it has format A. -/
def operation (unit op : BitVec 4) (arg : Arg) : Option Instr :=
  match unit.toNat, op.toNat with
  | 0, 0 => some .nop
  | 0, 1 => some .rstall
  | 0, 2 => some (.rstu arg)
  | 0, 3 => some (.wrp arg)
  | 0, 4 => some (.rdp arg)
  | 0, 5 => some (.rds arg)
  | 1, 0 => some .pcmLd
  | 1, 1 => some .pcmLdc
  | 1, 2 => some .pcmSt
  | 2, 0 => some .dcfStep
  | 2, 1 => some .dcfStepc
  | 2, 2 => some (.dcfBlock arg)
  | 2, 3 => some (.dcfBlockc arg)
  | 3, 0 => some .iqcStep
  | 4, 0 => some .fmdStep
  | 5, 0 => some .amdStep
  | 6, 0 => some .agcStep
  | 7, 0 => some .dgcCorrect
  | 7, 1 => some .dgcInc
  | 7, 2 => some .dgcDec
  | 8, 0 => some (.intFir arg)
  | 8, 1 => some (.intFirc arg)
  | 8, 2 => some .intFirmu
  | 8, 3 => some .intFirmuc
  | 9, 0 => some .rsmPush
  | 9, 1 => some .rsmPushc
  | 10, 0 => some .synStep
  | 10, 1 => some .synEndbuf
  | 10, 8 => some .synAck
  | 10, 9 => some .synRate
  | _, _ => none

/-- The `UNIT` of an operation (R83, R84). -/
def Instr.unit : Instr → BitVec 4
  | .nop | .rstall | .rstu _ | .wrp _ | .rdp _ | .rds _ => 0
  | .pcmLd | .pcmLdc | .pcmSt => 1
  | .dcfStep | .dcfStepc | .dcfBlock _ | .dcfBlockc _ => 2
  | .iqcStep => 3
  | .fmdStep => 4
  | .amdStep => 5
  | .agcStep => 6
  | .dgcCorrect | .dgcInc | .dgcDec => 7
  | .intFir _ | .intFirc _ | .intFirmu | .intFirmuc => 8
  | .rsmPush | .rsmPushc => 9
  | .synStep | .synEndbuf | .synAck | .synRate => 10

/-- The `OP` of an operation inside its unit (R84). -/
def Instr.op : Instr → BitVec 4
  | .nop | .pcmLd | .dcfStep | .iqcStep | .fmdStep | .amdStep | .agcStep => 0
  | .dgcCorrect | .intFir _ | .rsmPush | .synStep => 0
  | .rstall | .pcmLdc | .dcfStepc | .dgcInc | .intFirc _ | .rsmPushc | .synEndbuf => 1
  | .rstu _ | .pcmSt | .dcfBlock _ | .dgcDec | .intFirmu => 2
  | .wrp _ | .dcfBlockc _ | .intFirmuc => 3
  | .rdp _ => 4
  | .rds _ => 5
  | .synAck => 8
  | .synRate => 9

/-- The immediate of an operation, zero in formats Z and N (R82). -/
def Instr.arg : Instr → Arg
  | .rstu a | .wrp a | .rdp a | .rds a | .dcfBlock a | .dcfBlockc a | .intFir a | .intFirc a => a
  | .nop | .rstall | .pcmLd | .pcmLdc | .pcmSt | .dcfStep | .dcfStepc | .iqcStep | .fmdStep | .amdStep => 0
  | .agcStep | .dgcCorrect | .dgcInc | .dgcDec | .intFirmu | .intFirmuc | .rsmPush | .rsmPushc => 0
  | .synStep | .synEndbuf | .synAck | .synRate => 0

/-- The format of an operation (R84). -/
def Instr.format : Instr → Format
  | .rstu _ | .wrp _ | .rdp _ | .rds _ | .dcfBlock _ | .dcfBlockc _ | .intFir _ | .intFirc _ => .a
  | .nop | .rstall | .pcmLd | .pcmLdc | .pcmSt | .dcfStep | .dcfStepc | .iqcStep | .fmdStep | .amdStep => .z
  | .agcStep | .dgcCorrect | .dgcInc | .dgcDec | .intFirmu | .intFirmuc | .rsmPush | .rsmPushc => .z
  | .synStep | .synEndbuf => .z
  | .synAck | .synRate => .n

/-- The one port on which an operation is legal: NTF for format N, CMD for Z and A (R82). -/
def Instr.port (i : Instr) : Port :=
  match i.format with
  | .z => .cmd
  | .a => .cmd
  | .n => .ntf

/-! ### Decoder and encoder -/

/-- Decoding a word taken from a port, in the order of R85. -/
def decode (port : Port) (w : Word32) : Except DecodeError Instr :=
  if rsvField w ≠ 0 then .error .reservedBits
  else
    match operation (unitField w) (opField w) (argField w) with
    | none => .error .noSuchOperation
    | some i =>
      if i.port ≠ port then .error .wrongPort
      else if i.format ≠ .a ∧ argField w ≠ 0 then .error .nonzeroArgument
      else .ok i

/-- The word with these fields and `RSV` = 0 (R81). -/
def wordOf (unit op : BitVec 4) (arg : Arg) : Word32 := unit ++ op ++ 0#8 ++ arg

/-- The word of an operation (R81, R84). -/
def encode (i : Instr) : Word32 := wordOf i.unit i.op i.arg

/-- The operation the decoder reads from a table row's bits: on CMD, or, for the format N rows, on NTF. -/
def decodeTableWord (nbits w : Nat) : Option Instr :=
  match decode .cmd (BitVec.ofNat 32 (w % 2 ^ nbits)) with
  | .ok i => some i
  | .error _ =>
    match decode .ntf (BitVec.ofNat 32 (w % 2 ^ nbits)) with
    | .ok i => some i
    | .error _ => none

end Sys2Proof
end

