-- ==== Sys2Proof/Machine/Units.lean ====
section
/-! DEFINITION. The parameter registers and the state of each unit, with their values after reset
(spec/10_state.md R30, R40; spec/70_reset_and_hazards.md R260 to R262). -/

namespace Sys2Proof.Machine

open Sys2Proof

/-- The parameter registers, in the order of their `WRP`/`RDP` index 0 to 25 (R40). -/
structure Params where
  dcRatio : F64
  iqRatio : F64
  fmGain : F64
  amGain : F64
  agcObjective : F64
  agcFloor : F64
  agcWindow : BitVec 32
  dgcInit : F64
  dgcMin : F64
  dgcMax : F64
  dgcStep : F64
  rsStep : F64
  pcmScale : F64
  sampleRate : F64
  symbolRate : F64
  kSymbolSpread : F64
  kSymbolTiming : F64
  kCoarseFrequency : F64
  kFineFrequency : F64
  spreadNominal : F64
  spreadMin : F64
  spreadMax : F64
  coarseThreshold : F64
  reqStepHz : BitVec 32
  maxCorrectionHz : BitVec 32
  symbolStep : F64
deriving DecidableEq, Repr

/-- The "default" column of R40: the parameters after power-on reset. -/
def Params.default : Params where
  dcRatio := .lit 1 100000
  iqRatio := .lit 1 100000
  fmGain := .lit 1 1
  amGain := .lit 1 1
  agcObjective := .lit 1 1
  agcFloor := .lit 1 10000
  agcWindow := 32
  dgcInit := .lit 15 1
  dgcMin := .lit 1 10
  dgcMax := .lit 35 1
  dgcStep := .lit 3 10
  rsStep := .lit 1 1
  pcmScale := .lit 32768 1
  sampleRate := .lit 48000 1
  symbolRate := .lit 4800 1
  kSymbolSpread := .lit 1 100
  kSymbolTiming := .lit 25 1000
  kCoarseFrequency := .lit 125 100000
  kFineFrequency := .lit 125 1000
  spreadNominal := .lit 2 1
  spreadMin := .lit 16 10
  spreadMax := .lit 24 10
  coarseThreshold := .lit 12 10
  reqStepHz := 500
  maxCorrectionHz := 3000
  symbolStep := (F64.lit 4800 1).div (.lit 48000 1)

/-- DCF, indices 0 and 1: the two running averages (R120). -/
structure Dcf where
  avgI : F64
  avgQ : F64
deriving DecidableEq, Repr

/-- IQC, indices 2 to 4: the leaky averages of `I*I`, `Q*Q` and `I*Q` (R130). -/
structure Iqc where
  pii : F64
  pqq : F64
  piq : F64
deriving DecidableEq, Repr

/-- FMD, indices 5 and 6: the previous sample (R140). -/
structure Fmd where
  prevI : F64
  prevQ : F64
deriving DecidableEq, Repr

/-- AGC, indices 7 to 9 and 256 to 511: gain, window maximum, ring index of the oldest entry, ring (R62, R150). -/
structure Agc where
  gain : F64
  max : F64
  idx : Nat
  ring : Vector F64 256
deriving DecidableEq, Repr

/-- DGC, index 10: the direct gain (R155). -/
structure Dgc where
  gain : F64
deriving DecidableEq, Repr

/-- RSM, indices 11 and 40 to 55: output position and the two windows, oldest sample first (R63, R180). -/
structure Rsm where
  pos : F64
  wI : Vector F64 8
  wQ : Vector F64 8
deriving DecidableEq, Repr

/-- SYN, indices 12 to 19 and 32 to 39 (R190). `hidx` is the history slot the next sample overwrites (R63);
`pending` and `acked` are int32 in hertz. The flags `RESET_PENDING` and `REQ_OUTSTANDING` stand in the status. -/
structure Syn where
  clock : F64
  spread : F64
  coarse : F64
  fine : F64
  hidx : Fin 8
  err : F64
  pending : BitVec 32
  acked : BitVec 32
  hist : Vector F64 8
deriving DecidableEq, Repr

/-! ### Reset values (the "reset" column of R30), computed from the current parameters (R261, R262) -/

def Dcf.reset : Dcf := ⟨.zero, .zero⟩

def Iqc.reset : Iqc := ⟨.zero, .zero, .zero⟩

def Fmd.reset : Fmd := ⟨.zero, .zero⟩

def Agc.reset (p : Params) : Agc where
  gain := p.agcObjective.div p.agcFloor
  max := .zero
  idx := 0
  ring := Vector.replicate 256 .zero

def Dgc.reset (p : Params) : Dgc := ⟨p.dgcInit⟩

def Rsm.reset : Rsm where
  pos := .zero
  wI := Vector.replicate 8 .zero
  wQ := Vector.replicate 8 .zero

def Syn.reset (p : Params) : Syn where
  clock := .zero
  spread := p.spreadNominal
  coarse := .zero
  fine := .zero
  hidx := 0
  err := .zero
  pending := 0
  acked := 0
  hist := Vector.replicate 8 .zero

end Sys2Proof.Machine
end

