-- ==== Sys2Proof/Machine/State.lean ====
section
/-! DEFINITION. The state of one instance of the block (spec/10_state.md R20, R30, R33, R40, R50; ports of
spec/30_encoding.md R80) and its value after power-on reset (spec/70_reset_and_hazards.md R260). -/

namespace Sys2Proof.Machine

open Sys2Proof

/-- The code of a recorded fault of the block (R231), 0 to 3 as `RDS 21` shows it. These are states of the
machine, not stops of the model. -/
inductive FaultCode where
  | noFault
  | illegalOp
  | badOperand
  | badConfig
deriving DecidableEq, Repr

/-- Where the MODEL stops with a fault. -/
inductive Fault where
  /-- Raised by `RSM.PUSH` and `RSM.PUSHC` when 256 outputs of one push have not brought the position to 1.0:
  the rule's loop need not end there (R181 (a) shows that it does in every reachable state, `P.RS_STEP` being at
  least 2^-8 and `S.rs_pos` not negative). Safe: no run from reset raises it. -/
  | resamplerLoopUnbounded
deriving DecidableEq, Repr

/-- Where the MODEL refuses an instruction. -/
inductive Refusal where
  /-- Raised by an arm of `exec` that has no meaning yet (none in this model). Safe: nothing is claimed. -/
  | notModelled (mnemonic : String)
deriving DecidableEq, Repr

/-- The four stored flags of `S.status` (R33); `REQ_LATCHED` is computed from `S.syn_pending`. -/
structure Status where
  fault : Bool
  resetPending : Bool
  reqOutstanding : Bool
  nonfinite : Bool
deriving DecidableEq, Repr

/-- An entry of the NTF queue: a notification word and its operand word, which only `SYN.ACK` reads (R80, R94). -/
structure NtfEntry where
  word : Word32
  operand : Word64
deriving DecidableEq, Repr

/-- All state of one instance. Queues have their head, the next word out, first. -/
structure State where
  /-- parameter registers (R40) -/
  params : Params
  dcf : Dcf
  iqc : Iqc
  fmd : Fmd
  agc : Agc
  dgc : Dgc
  rsm : Rsm
  syn : Syn
  /-- `S.status` (R33) -/
  status : Status
  /-- `S.fault_code` (R231) -/
  faultCode : FaultCode
  /-- `S.fault_cmd`: the word that faulted (R233) -/
  faultCmd : Word32
  /-- port CMD: words not yet taken (R80) -/
  cmd : List Word32
  /-- port DIN: operand words not yet consumed (R50 (a)) -/
  din : List Word64
  /-- port DOUT: result words not yet drained (R50 (b)) -/
  dout : List Word64
  /-- port EVT: event words not yet drained (R50 (b)) -/
  evt : List Word64
  /-- port NTF: notifications not yet delivered (R50 (c)) -/
  ntf : List NtfEntry
  /-- the MODEL's own: contested boundaries so far, the argument of `Config.arbiter` (notes/assumptions/4.md) -/
  boundary : Nat
  /-- the MODEL's own: NaN words put on DOUT so far, the argument of `Config.freeNan` (notes/assumptions/3.md) -/
  nanCount : Nat
deriving DecidableEq, Repr

/-- What a step answers. -/
abbrev Result := Host.Outcome State Fault Refusal

/-- Power-on reset (R260): every register at its reset or default value, all port queues empty. -/
def State.reset : State where
  params := .default
  dcf := .reset
  iqc := .reset
  fmd := .reset
  agc := .reset .default
  dgc := .reset .default
  rsm := .reset
  syn := .reset .default
  status := ⟨false, false, false, false⟩
  faultCode := .noFault
  faultCmd := 0
  cmd := []
  din := []
  dout := []
  evt := []
  ntf := []
  boundary := 0
  nanCount := 0

end Sys2Proof.Machine
end

