-- ==== Sys2Proof/Machine/Flags.lean ====
section
/-! DEFINITION. The status flags: `S.status` as a word and the flag updates (spec/10_state.md R33). The block has
no arithmetic condition codes. -/

namespace Sys2Proof.Machine

open Sys2Proof

/-- `REQ_LATCHED`: mirrors `S.syn_pending != 0`; not separately stored (R33). -/
def State.reqLatched (s : State) : Bool := s.syn.pending != 0

/-- One flag at its bit. -/
def flagBit (b : Bool) (at_ : Nat) : Word64 := if b then BitVec.ofNat 64 (2 ^ at_) else 0

/-- `S.status` as one word: bits 4:0 the flags of R33, bits 63:5 zero (R106). -/
def State.statusWord (s : State) : Word64 :=
  flagBit s.status.fault 0 ||| flagBit s.status.resetPending 1 ||| flagBit s.status.reqOutstanding 2 |||
    flagBit s.status.nonfinite 3 ||| flagBit s.reqLatched 4

/-- The FAULT line: equals `STATUS.FAULT` (R80). -/
def State.faultLine (s : State) : Bool := s.status.fault

/-- Sets `NONFINITE` where `b` says that a sample was excluded or replaced; only `RSTALL` clears it (R33, R237). -/
def State.noteNonfinite (s : State) (b : Bool) : State :=
  { s with status := { s.status with nonfinite := s.status.nonfinite || b } }

/-- The value of `S.fault_code` (R231). -/
def FaultCode.toNat : FaultCode → Nat
  | .noFault => 0
  | .illegalOp => 1
  | .badOperand => 2
  | .badConfig => 3

end Sys2Proof.Machine
end

