-- ==== Sys2Proof/Machine/Operands.lean ====
section
/-! DEFINITION. Operand forms: how many data words an operation takes, the checks on its `ARG`, and the readings
of a data word (spec/30_encoding.md R84, R86, R87; spec/40_sys_pcm.md R99; spec/00_scope.md R9). -/

namespace Sys2Proof.Machine

open Sys2Proof

/-- The operand words an operation takes from DIN: column "in" of R84, with n = `ARG` (R87). `SYN.ACK` has its
operand on NTF. -/
def dinWords : Instr → Nat
  | .nop | .rstall | .rstu _ | .rdp _ | .rds _ => 0
  | .wrp _ => 1
  | .pcmLd | .pcmSt => 1
  | .pcmLdc => 2
  | .dcfStep => 1
  | .dcfStepc => 2
  | .dcfBlock n => n.toNat
  | .dcfBlockc n => 2 * n.toNat
  | .iqcStep | .fmdStep | .amdStep | .agcStep => 2
  | .dgcCorrect => 1
  | .dgcInc | .dgcDec => 0
  | .intFir _ => 8
  | .intFirc _ => 16
  | .intFirmu => 9
  | .intFirmuc => 17
  | .rsmPush => 1
  | .rsmPushc => 2
  | .synStep => 1
  | .synEndbuf => 0
  | .synAck | .synRate => 0

/-- `P[p]` is `ro` (R40): indices 4, 12 to 23 and 25. -/
def paramReadOnly (p : Nat) : Bool := p == 4 || (12 ≤ p && p ≤ 23) || p == 25

/-- The check on `ARG` alone, made before any operand is consumed (R99 (3)): `none` where it passes. Inside
`WRP`, the index comes before the read-only mark (R232). -/
def argFault : Instr → Option FaultCode
  | .rstu u => if u.toNat = 0 || u.toNat > 10 then some .badOperand else none
  | .wrp p =>
    if p.toNat > 25 then some .badOperand
    else if paramReadOnly p.toNat then some .badConfig else none
  | .rdp p => if p.toNat > 25 then some .badOperand else none
  | .rds r =>
    if r.toNat ≤ 22 || (32 ≤ r.toNat && r.toNat ≤ 55) || (256 ≤ r.toNat && r.toNat ≤ 511) then none
    else some .badOperand
  | .intFir k | .intFirc k => if k.toNat > 128 then some .badOperand else none
  | .nop | .rstall | .pcmLd | .pcmLdc | .pcmSt | .dcfStep | .dcfStepc | .dcfBlock _ | .dcfBlockc _ => none
  | .iqcStep | .fmdStep | .amdStep | .agcStep | .dgcCorrect | .dgcInc | .dgcDec | .intFirmu | .intFirmuc => none
  | .rsmPush | .rsmPushc | .synStep | .synEndbuf | .synAck | .synRate => none

/-! ### Readings of operand words. `d` is the list of the operation's operand words, oldest first. -/

/-- The j-th operand word. -/
def dinWord (d : List Word64) (j : Nat) : Word64 := d.getD j 0

/-- `din_real()`: the j-th operand as a real. -/
def dinReal (d : List Word64) (j : Nat) : F64 := F64.ofBits (dinWord d j)

/-- `din_int32()`: bits 31:0 of the j-th operand; bits 63:32 are ignored (R9, U27). -/
def dinInt32 (d : List Word64) (j : Nat) : BitVec 32 := (dinWord d j).extractLsb' 0 32

/-- `din_pcm16()`: `sext_16` of bits 15:0 of the j-th operand; bits 63:16 are ignored (R9, R64). -/
def dinPcm16 (d : List Word64) (j : Nat) : Int := ((dinWord d j).extractLsb' 0 16).toInt

/-- A window operand: eight reals, `w[0]` first (R86). -/
def dinWindow (d : List Word64) : Vector F64 8 := Vector.ofFn fun j => dinReal d j

/-- The I half of a complex window operand: words 0, 2, ..., 14 (R86, R174). -/
def dinWindowI (d : List Word64) : Vector F64 8 := Vector.ofFn fun j => dinReal d (2 * j)

/-- The Q half of a complex window operand: words 1, 3, ..., 15 (R86, R174). -/
def dinWindowQ (d : List Word64) : Vector F64 8 := Vector.ofFn fun j => dinReal d (2 * j + 1)

/-- All operand words as reals (`DCF.BLOCK`, R123). -/
def dinReals (d : List Word64) : List F64 := d.map F64.ofBits

/-- Every second element, starting with the first: the I sequence of interleaved pairs (R124). -/
def evens : List F64 → List F64
  | [] => []
  | [x] => [x]
  | x :: _ :: rest => x :: evens rest

/-- Every second element, starting with the second: the Q sequence of interleaved pairs (R124). -/
def odds : List F64 → List F64
  | [] => []
  | [_] => []
  | _ :: y :: rest => y :: odds rest

/-- Two sequences interleaved I first (R86). -/
def interleave : List F64 → List F64 → List F64
  | [], _ => []
  | _ :: _, [] => []
  | x :: xs, y :: ys => x :: y :: interleave xs ys

end Sys2Proof.Machine
end

