-- ==== Sys2Proof/Machine/Ops.lean ====
section
/-! DEFINITION. The shared operations: taking words from the ports, putting results on them, fault entry and the
return from a fault, reset of one unit, and the common order of checks of every command
(spec/40_sys_pcm.md R99, R101, R102; spec/60_exceptions.md R233 to R235). -/

namespace Sys2Proof.Machine

open Sys2Proof

/-! ### Taking words -/

/-- The head word of CMD is taken (R15 (1), R234). -/
def State.retire (s : State) : State := { s with cmd := s.cmd.tail }

/-- The head entry of NTF, word and operand, is removed (R234, R243). -/
def State.dropNtf (s : State) : State := { s with ntf := s.ntf.tail }

/-- The head word of CMD is taken and the next `n` words of DIN are consumed (R99 (4)). -/
def State.consume (s : State) (n : Nat) : State := { s.retire with din := s.din.drop n }

/-! ### Results -/

/-- Appends one word to DOUT. -/
def State.pushWord (s : State) (w : Word64) : State := { s with dout := s.dout ++ [w] }

/-- The n-th NaN word the block puts on DOUT: some binary64 NaN (U28). -/
def nanWord (n : Nat) : Word64 :=
  F64.pattern (Config.freeNan n).1 (infMag + 1 + (Config.freeNan n).2.val)

/-- `dout_real(v)`: appends the pattern of `v`. Which NaN stands for a NaN result is a free value (R10, U28). -/
def State.doutReal (s : State) (v : F64) : State :=
  match v with
  | .nan => { s.pushWord (nanWord s.nanCount) with nanCount := s.nanCount + 1 }
  | .inf neg => s.pushWord (F64.pattern neg infMag)
  | .fin neg mag => s.pushWord (F64.pattern neg mag.val)

/-- Appends several reals to DOUT in order. -/
def State.doutReals (s : State) (vs : List F64) : State := vs.foldl State.doutReal s

/-- `dout_int32(v)`: bits 31:0 the value, bits 63:32 zero (R9). -/
def State.doutInt32 (s : State) (v : BitVec 32) : State := s.pushWord (v.zeroExtend 64)

/-- `dout_pcm16(r)`: bits 15:0 are `r mod 2^16`, bits 63:16 zero (R112). -/
def State.doutPcm16 (s : State) (r : Int) : State := s.pushWord ((BitVec.ofInt 16 r).zeroExtend 64)

/-- `emit_evt`: an event word, code in bits 63:32 and int32 payload in bits 31:0 (R93). -/
def State.emitEvt (s : State) (code : BitVec 32) (payload : BitVec 32) : State :=
  { s with evt := s.evt ++ [code ++ payload] }

/-- Event code of `ZERO_CORRECTION` (R93). -/
def evtZeroCorrection : BitVec 32 := 0

/-- Event code of `CORRECTION_REQUEST` (R93). -/
def evtCorrectionRequest : BitVec 32 := 1

/-! ### Faults: the block's only exceptions -/

/-- Fault entry, `raise Fault(code)` (R233): the three fault registers are written and nothing else. While
`STATUS.FAULT` is set they are not overwritten: the first fault is the one recorded. -/
def State.raiseFault (s : State) (code : FaultCode) (word : Word32) : State :=
  if s.status.fault then s
  else { s with status := { s.status with fault := true }, faultCode := code, faultCmd := word }

/-- The transition of `RSTALL`, the only return from a fault (R101, R235, R261): every state register and memory
at its reset value under the current parameters, DIN emptied; parameters, DOUT, EVT and NTF kept. -/
def State.restart (s : State) : State :=
  { s with
    dcf := .reset
    iqc := .reset
    fmd := .reset
    agc := .reset s.params
    dgc := .reset s.params
    rsm := .reset
    syn := .reset s.params
    status := ⟨false, false, false, false⟩
    faultCode := .noFault
    faultCmd := 0
    din := [] }

/-- Resets AGC under the current parameters (R62, R104, R262). -/
def State.resetAgc (s : State) : State := { s with agc := .reset s.params }

/-- The transition of `RSTU u` for a unit number 1 to 10 (R102, R262). Units 1, 5 and 8 own no state. -/
def State.resetUnit (s : State) (u : Nat) : State :=
  match u with
  | 2 => { s with dcf := .reset }
  | 3 => { s with iqc := .reset }
  | 4 => { s with fmd := .reset }
  | 6 => s.resetAgc
  | 7 => { s with dgc := .reset s.params }
  | 9 => { s with rsm := .reset }
  | 10 =>
    { s with
      syn := .reset s.params
      status := { s.status with resetPending := false, reqOutstanding := false } }
  | _ => s

/-! ### The common order of checks (R99) -/

/-- The command agent holds at this command: no fault is recorded, its `ARG` passes, and its operand words are
not all on DIN (R87, R99 (4), R276). `NOP`, `RDP`, `RDS` and `RSTALL` take no operand and never hold. -/
def State.holds (s : State) (i : Instr) : Bool :=
  !s.status.fault && (argFault i).isNone && decide (s.din.length < dinWords i)

/-- A command other than `NOP`, `RSTALL`, `RDP`, `RDS`, at the head of CMD (R99): discarded while a fault is
recorded (R234); a fault on `ARG` leaves DIN untouched; it holds, the state unchanged, until its operands are
there (R276); then it consumes them and makes its transition, `body`, on the state after that. -/
def command (i : Instr) (s : State) (body : State → List Word64 → Result) : Result :=
  if s.status.fault then .next s.retire
  else
    match argFault i with
    | some code => .next (s.retire.raiseFault code (encode i))
    | none =>
      if s.din.length < dinWords i then .next s
      else body (s.consume (dinWords i)) (s.din.take (dinWords i))

end Sys2Proof.Machine
end

