-- ==== Sys2Proof/Machine/Correction.lean ====
section
/-! DEFINITION. The correction filters: `DCF.STEP`, `DCF.STEPC`, `DCF.BLOCK`, `DCF.BLOCKC`, `IQC.STEP`
(spec/41_correction.md R120 to R131). -/

namespace Sys2Proof.Machine

open Sys2Proof

/-- What a leaky average yields for one sample: the new average, the output, and whether the sample was excluded. -/
structure DcResult where
  avg : F64
  out : F64
  excluded : Bool
deriving DecidableEq, Repr

/-- `DCSTEP(x, avg)` (R120): the average moves by `ratio * (x - avg)` where the input and the candidate are both
finite; the output uses the updated average. -/
def dcStep (ratio x avg : F64) : DcResult :=
  let a := avg.add (ratio.mul (x.sub avg))
  let ok := x.isFinite && a.isFinite
  let avg' := if ok then a else avg
  ⟨avg', x.sub avg', !ok⟩

/-- `DCF.STEP` (R121). -/
def execDcfStep (s : State) : Result :=
  command .dcfStep s fun s d =>
    let r := dcStep s.params.dcRatio (dinReal d 0) s.dcf.avgI
    .next (({ s with dcf := { s.dcf with avgI := r.avg } }.noteNonfinite r.excluded).doutReal r.out)

/-- `DCF.STEPC` (R122): the step of R120 independently on I and on Q. -/
def execDcfStepc (s : State) : Result :=
  command .dcfStepc s fun s d =>
    let i := dcStep s.params.dcRatio (dinReal d 0) s.dcf.avgI
    let q := dcStep s.params.dcRatio (dinReal d 1) s.dcf.avgQ
    .next (({ s with dcf := ⟨i.avg, q.avg⟩ }.noteNonfinite (i.excluded || q.excluded)).doutReals [i.out, q.out])

/-- The mean of a block (R123): the finite samples summed in order from 0.0, over their count; 0.0 for no finite
sample and where the quotient is not finite. -/
def blockMean (xs : List F64) : F64 :=
  let finite := xs.filter F64.isFinite
  let m := if finite.isEmpty then .zero else (finite.foldl F64.add .zero).div (.ofInt finite.length)
  if m.isFinite then m else .zero

/-- The block with its mean subtracted (R123). -/
def blockOut (xs : List F64) : List F64 := xs.map fun x => x.sub (blockMean xs)

/-- Some sample of the block is not finite (R123). -/
def blockExcluded (xs : List F64) : Bool := xs.any fun x => !x.isFinite

/-- `DCF.BLOCK n` (R123). -/
def execDcfBlock (n : Arg) (s : State) : Result :=
  command (.dcfBlock n) s fun s d =>
    let xs := dinReals d
    .next ((s.noteNonfinite (blockExcluded xs)).doutReals (blockOut xs))

/-- `DCF.BLOCKC n` (R124): R123 on the I sequence and independently on the Q sequence. -/
def execDcfBlockc (n : Arg) (s : State) : Result :=
  command (.dcfBlockc n) s fun s d =>
    let xs := dinReals d
    .next ((s.noteNonfinite (blockExcluded xs)).doutReals (interleave (blockOut (evens xs)) (blockOut (odds xs))))

/-- The estimates of R130 after one sample, and whether it was excluded. -/
def iqcUpdate (r i q : F64) (u : Iqc) : Iqc × Bool :=
  let a := u.pii.add (r.mul ((i.mul i).sub u.pii))
  let b := u.pqq.add (r.mul ((q.mul q).sub u.pqq))
  let c := u.piq.add (r.mul ((i.mul q).sub u.piq))
  if i.isFinite && q.isFinite && a.isFinite && b.isFinite && c.isFinite then (⟨a, b, c⟩, false) else (u, true)

/-- The corrected Q of R130 under the updated estimates. -/
def iqcCorrect (u : Iqc) (i q : F64) : F64 :=
  if F64.lt .zero u.pii then
    let t := u.piq.div u.pii
    let v := u.pqq.sub (t.mul u.piq)
    let g := if F64.lt .zero v then (u.pii.div v).sqrt else .one
    (q.sub (t.mul i)).mul (if g.isFinite then g else .one)
  else (q.sub (F64.zero.mul i)).mul .one

/-- `IQC.STEP` (R130). -/
def execIqcStep (s : State) : Result :=
  command .iqcStep s fun s d =>
    let i := dinReal d 0
    let q := dinReal d 1
    let u := iqcUpdate s.params.iqRatio i q s.iqc
    .next (({ s with iqc := u.1 }.noteNonfinite u.2).doutReals [i, iqcCorrect u.1 i q])

end Sys2Proof.Machine
end

