-- ==== Sys2Proof/Machine/Demod.lean ====
section
/-! DEFINITION. The demodulators: `FMD.STEP` and `AMD.STEP` (spec/42_demod.md R140 to R145). -/

namespace Sys2Proof.Machine

open Sys2Proof

/-- `ATAN` of this machine (R142): its values are a parameter (U3). -/
def atan : F64 → F64 := Config.atan.fn

/-- The output of the discriminator (R141) under an arctangent: gain times the angle of the product with the
conjugate of the previous sample; the angle is 0 where the denominator is zero. -/
def fmdOut (atan : F64 → F64) (gain : F64) (u : Fmd) (i q : F64) : F64 :=
  let ip := (i.mul u.prevI).add (q.mul u.prevQ)
  let qp := (q.mul u.prevI).sub (i.mul u.prevQ)
  let angle := if F64.feq ip .zero then .zero else atan (qp.div ip)
  angle.mul gain

/-- `FMD.STEP` (R141): the current sample becomes the previous one, whatever its value. -/
def execFmdStep (s : State) : Result :=
  command .fmdStep s fun s d =>
    let i := dinReal d 0
    let q := dinReal d 1
    .next ({ s with fmd := ⟨i, q⟩ }.doutReal (fmdOut atan s.params.fmGain s.fmd i q))

/-- The envelope detector (R145). -/
def amdOut (gain i q : F64) : F64 := ((i.mul i).add (q.mul q)).sqrt.mul gain

/-- `AMD.STEP` (R145): stateless. -/
def execAmdStep (s : State) : Result :=
  command .amdStep s fun s d => .next (s.doutReal (amdOut s.params.amGain (dinReal d 0) (dinReal d 1)))

end Sys2Proof.Machine
end

