-- ==== Sys2Proof/Machine/Notify.lean ====
section
/-! DEFINITION. The notifications `SYN.ACK` and `SYN.RATE` (spec/60_exceptions.md R240 to R244). -/

namespace Sys2Proof.Machine

open Sys2Proof

/-- What both notifications do to the request bookkeeping (R241, R242). -/
def State.trackerNotified (s : State) : State :=
  { s with
    syn := { s.syn with pending := 0 }
    status := { s.status with resetPending := true, reqOutstanding := false } }

/-- A notification at the head of NTF: its entry is removed and `body` makes its transition; while a fault is
recorded the entry is removed without effect (R234, R244). With NTF empty nothing is delivered. -/
def notification (s : State) (body : State → Word64 → State) : Result :=
  match s.ntf with
  | [] => .next s
  | e :: _ => if s.status.fault then .next s.dropNtf else .next (body s.dropNtf e.operand)

/-- `SYN.ACK` (R241): `totalHz` is bits 31:0 of the operand and replaces `S.syn_acked`. -/
def execSynAck (s : State) : Result :=
  notification s fun s w => { s with syn := { s.syn with acked := w.extractLsb' 0 32 } }.trackerNotified

/-- `SYN.RATE` (R242): `S.syn_acked` is kept. -/
def execSynRate (s : State) : Result := notification s fun s _ => s.trackerNotified

end Sys2Proof.Machine
end

