-- ==== Sys2Proof/Machine/Pcm.lean ====
section
/-! DEFINITION. The PCM converter: `PCM.LD`, `PCM.LDC`, `PCM.ST` (spec/40_sys_pcm.md R110 to R112). -/

namespace Sys2Proof.Machine

open Sys2Proof

/-- `real(s) / P.PCM_SCALE` (R110). -/
def pcmLoad (p : Params) (sample : Int) : F64 := (F64.ofInt sample).div p.pcmScale

/-- The 16-bit sample of a real: `floor(x * P.PCM_SCALE + 0.5)`, saturated, NaN to 0 (R112). -/
def pcmStore (p : Params) (x : F64) : Int :=
  let t := x.mul p.pcmScale
  if t.isNaN then 0
  else
    let r := (t.add .half).floor
    if F64.lt (.ofInt 32767) r then 32767
    else if F64.lt r (.ofInt (-32768)) then -32768
    else r.floorInt

/-- `PCM.LD` (R110). -/
def execPcmLd (s : State) : Result :=
  command .pcmLd s fun s d => .next (s.doutReal (pcmLoad s.params (dinPcm16 d 0)))

/-- `PCM.LDC` (R111): I then Q. -/
def execPcmLdc (s : State) : Result :=
  command .pcmLdc s fun s d =>
    .next (s.doutReals [pcmLoad s.params (dinPcm16 d 0), pcmLoad s.params (dinPcm16 d 1)])

/-- `PCM.ST` (R112). -/
def execPcmSt (s : State) : Result :=
  command .pcmSt s fun s d => .next (s.doutPcm16 (pcmStore s.params (dinReal d 0)))

end Sys2Proof.Machine
end

