-- ==== Sys2Proof/Machine/Gain.lean ====
section
/-! DEFINITION. The gain controllers: `AGC.STEP`, `DGC.CORRECT`, `DGC.INC`, `DGC.DEC`
(spec/43_gain.md R150 to R159). -/

namespace Sys2Proof.Machine

open Sys2Proof

/-- `ENV(I, Q)` (R151). -/
def envelope (i q : F64) : F64 := (F64.fmax i.abs q.abs).add ((F64.lit 4 10).mul (F64.fmin i.abs q.abs))

/-- The gain for a window maximum: `P.AGC_OBJECTIVE / fmax(max, P.AGC_FLOOR)` (R152). -/
def agcGain (p : Params) (max : F64) : F64 := p.agcObjective.div (F64.fmax max p.agcFloor)

/-- The rescan (R152): the maximum of `ring[0..n-1]`, by `fmax` in order. -/
def ringMax (ring : Vector F64 256) (n : Nat) : F64 :=
  match ring.toList.take n with
  | [] => .zero
  | x :: rest => rest.foldl F64.fmax x

/-- `ring[i] <- e` (R62). -/
def ringSet (ring : Vector F64 256) (i : Nat) (e : F64) : Vector F64 256 := ring.setIfInBounds i e

/-- The AGC after a sample of envelope `e` that enters the window (R152). -/
def agcUpdate (p : Params) (u : Agc) (e : F64) : Agc :=
  let n := p.agcWindow.toNat
  let raised := F64.lt u.max e
  let max := if raised then e else u.max
  let gain := if raised then agcGain p e else u.gain
  let old := u.ring.toList.getD u.idx .zero
  let ring := ringSet u.ring u.idx e
  let idx := (u.idx + 1) % n
  if !raised && F64.feq old max then ⟨agcGain p (ringMax ring n), ringMax ring n, idx, ring⟩
  else ⟨gain, max, idx, ring⟩

/-- One sample enters the window only where it and its envelope are finite (R152, R153). -/
def agcAccepts (i q : F64) : Bool := i.isFinite && q.isFinite && (envelope i q).isFinite

/-- `AGC.STEP` (R152): the gain applied is the gain after the update. -/
def execAgcStep (s : State) : Result :=
  command .agcStep s fun s d =>
    let i := dinReal d 0
    let q := dinReal d 1
    let u := if agcAccepts i q then agcUpdate s.params s.agc (envelope i q) else s.agc
    .next (({ s with agc := u }.noteNonfinite (!agcAccepts i q)).doutReals [i.mul u.gain, q.mul u.gain])

/-- `correct(sample)` (R156, R192). -/
def dgcCorrect (u : Dgc) (x : F64) : F64 := x.mul u.gain

/-- `increase()`: one step up, saturating at `P.DGC_MAX` (R157). DEDUCED: as the pseudocode has it, it applies no lower
bound, where R159 puts the gain inside both bounds after the first step (notes/assumptions/20.md). -/
def dgcIncrease (p : Params) (u : Dgc) : Dgc := ⟨F64.fmin (u.gain.add p.dgcStep) p.dgcMax⟩

/-- `decrease()`: one step down, saturating at `P.DGC_MIN` (R158). DEDUCED: as the pseudocode has it, it applies no upper
bound, where R159 puts the gain inside both bounds after the first step (notes/assumptions/20.md). -/
def dgcDecrease (p : Params) (u : Dgc) : Dgc := ⟨F64.fmax (u.gain.sub p.dgcStep) p.dgcMin⟩

/-- `DGC.CORRECT` (R156). -/
def execDgcCorrect (s : State) : Result :=
  command .dgcCorrect s fun s d => .next (s.doutReal (dgcCorrect s.dgc (dinReal d 0)))

/-- `DGC.INC` (R157). -/
def execDgcInc (s : State) : Result :=
  command .dgcInc s fun s _ => .next { s with dgc := dgcIncrease s.params s.dgc }

/-- `DGC.DEC` (R158). -/
def execDgcDec (s : State) : Result :=
  command .dgcDec s fun s _ => .next { s with dgc := dgcDecrease s.params s.dgc }

end Sys2Proof.Machine
end

