-- ==== Sys2Proof/Machine/Interp.lean ====
section
/-! DEFINITION. The polyphase interpolator and the resampler: `INT.FIR`, `INT.FIRC`, `INT.FIRMU`, `INT.FIRMUC`,
`RSM.PUSH`, `RSM.PUSHC` (spec/44_interp.md R170 to R183). -/

namespace Sys2Proof.Machine

open Sys2Proof

/-- A coefficient table: 129 rows of 8 reals (R170). -/
abbrev Taps := Fin 129 → Fin 8 → F64

/-- `TAPS` of this machine: its values are a parameter (U1), every entry finite (R170). -/
def taps : Taps := fun k j => .fin (Config.tap k j).1 (Config.tap k j).2

/-- A row number as an index of the table; no rule forms one above 128 (R61). -/
def rowIndex (k : Nat) : Fin 129 := ⟨min k 128, by omega⟩

/-- `INTERP(w, k)` (R171): products and partial sums rounded, summed from the oldest sample to the newest. -/
def interp (t : Taps) (w : Vector F64 8) (k : Nat) : F64 :=
  ([1, 2, 3, 4, 5, 6, 7] : List (Fin 8)).foldl
    (fun acc j => acc.add ((t (rowIndex k) j).mul w[j])) ((t (rowIndex k) 0).mul w[0])

/-- `PHASE(mu)` (R172). -/
def phase (mu : F64) : Nat := (F64.toIndex (((F64.lit 128 1).mul mu).add .half).floor 0 128).toNat

/-- `mu` lies in `[0, 1)` (R175); false for NaN. -/
def muInRange (mu : F64) : Bool := F64.le .zero mu && F64.lt mu .one

/-- `INT.FIR k` (R173). -/
def execIntFir (k : Arg) (s : State) : Result :=
  command (.intFir k) s fun s d => .next (s.doutReal (interp taps (dinWindow d) k.toNat))

/-- `INT.FIRC k` (R174). -/
def execIntFirc (k : Arg) (s : State) : Result :=
  command (.intFirc k) s fun s d =>
    .next (s.doutReals [interp taps (dinWindowI d) k.toNat, interp taps (dinWindowQ d) k.toNat])

/-- `INT.FIRMU` (R175): a `mu` outside `[0, 1)` faults after its nine operands have been consumed. -/
def execIntFirmu (s : State) : Result :=
  command .intFirmu s fun s d =>
    let mu := dinReal d 8
    if muInRange mu then .next (s.doutReal (interp taps (dinWindow d) (phase mu)))
    else .next (s.raiseFault .badOperand (encode .intFirmu))

/-- `INT.FIRMUC` (R176). -/
def execIntFirmuc (s : State) : Result :=
  command .intFirmuc s fun s d =>
    let mu := dinReal d 16
    if muInRange mu then
      .next (s.doutReals [interp taps (dinWindowI d) (phase mu), interp taps (dinWindowQ d) (phase mu)])
    else .next (s.raiseFault .badOperand (encode .intFirmuc))

/-! ### The resampler -/

/-- A push (R63, R181): every sample moves one place toward the oldest and `x` becomes the newest. -/
def shiftIn (w : Vector F64 8) (x : F64) : Vector F64 8 :=
  Vector.ofFn fun j => if h : j.val + 1 < 8 then w[j.val + 1] else x

/-- A non-finite input is replaced by 0.0 (R181, R182). -/
def cleanSample (x : F64) : F64 := if x.isFinite then x else .zero

/-- The outputs at one position: one per window, all with the same row (R181, R182). -/
def outputsAt (t : Taps) (ws : List (Vector F64 8)) (pos : F64) : List F64 := ws.map fun w => interp t w (phase pos)

/-- The output loop (R181): while the position is below 1.0, emit and advance by `step`. Answers the outputs in
order and the position after the loop, or `none` where `fuel` outputs have not ended it. -/
def resampleLoop (t : Taps) (ws : List (Vector F64 8)) (step : F64) : Nat → F64 → Option (List F64 × F64)
  | 0, pos => if F64.lt pos .one then none else some ([], pos)
  | fuel + 1, pos =>
    if F64.lt pos .one then
      match resampleLoop t ws step fuel (pos.add step) with
      | none => none
      | some (out, pos') => some (outputsAt t ws pos ++ out, pos')
    else some ([], pos)

/-- The outputs of one push and the state after it, under a table: the windows `ws` are those after the shift
(R181). A push emits at most 256 outputs (R181 (a)). -/
def resample (t : Taps) (s : State) (ws : List (Vector F64 8)) : Result :=
  match resampleLoop t ws s.params.rsStep 256 s.rsm.pos with
  | none => .fault .resamplerLoopUnbounded
  | some (out, pos) => .next ({ s with rsm := { s.rsm with pos := pos.sub .one } }.doutReals out)

/-- The transition of `RSM.PUSH` under a table (R181). -/
def rsmPushWith (t : Taps) (s : State) (x : F64) : Result :=
  let wI := shiftIn s.rsm.wI (cleanSample x)
  resample t ({ s with rsm := { s.rsm with wI := wI } }.noteNonfinite (!x.isFinite)) [wI]

/-- The transition of `RSM.PUSHC` under a table (R182). -/
def rsmPushcWith (t : Taps) (s : State) (i q : F64) : Result :=
  let wI := shiftIn s.rsm.wI (cleanSample i)
  let wQ := shiftIn s.rsm.wQ (cleanSample q)
  resample t ({ s with rsm := { s.rsm with wI := wI, wQ := wQ } }.noteNonfinite (!i.isFinite || !q.isFinite)) [wI, wQ]

/-- `RSM.PUSH` (R181). -/
def execRsmPush (s : State) : Result := command .rsmPush s fun s d => rsmPushWith taps s (dinReal d 0)

/-- `RSM.PUSHC` (R182). -/
def execRsmPushc (s : State) : Result :=
  command .rsmPushc s fun s d => rsmPushcWith taps s (dinReal d 0) (dinReal d 1)

end Sys2Proof.Machine
end

