-- ==== Sys2Proof/Machine/Sync.lean ====
section
/-! DEFINITION. The C4FM symbol synchronizer: `SYN.STEP` and `SYN.ENDBUF`, the step numbers being the spec's
(spec/45_sync.md R190 to R207). -/

namespace Sys2Proof.Machine

open Sys2Proof

/-! ### Steps 1 to 3, at every sample -/

/-- Step 1 (R192, R193): the sample after the direct gain, 0.0 where that is not finite. -/
def synSample (s : State) (x : F64) : F64 := cleanSample (dgcCorrect s.dgc x)

/-- Step 1 replaced the sample (R193). -/
def synReplaced (s : State) (x : F64) : Bool := !(dgcCorrect s.dgc x).isFinite

/-- Step 2, the tracker reset (R194): zeroes the coarse and fine corrections, emits `ZERO_CORRECTION`, clears the
flag. -/
def synTrackerReset (s : State) : State :=
  if s.status.resetPending then
    { s.emitEvt evtZeroCorrection 0 with
      syn := { s.syn with coarse := .zero, fine := .zero }
      status := { s.status with resetPending := false } }
  else s

/-- Step 3 (R195, R63): the clock advances by `P.SYMBOL_STEP` and `v` overwrites the oldest history slot. -/
def synAdvance (p : Params) (u : Syn) (v : F64) : Syn :=
  { u with
    clock := u.clock.add p.symbolStep
    hist := u.hist.set u.hidx v
    hidx := u.hidx + 1 }

/-! ### Steps 4 to 10, at a symbol boundary -/

/-- Step 4: the clock crossed a symbol boundary, "exceeds 1.0" being strict (R196 (a)). -/
def synCrossed (u : Syn) : Bool := F64.lt .one u.clock

/-- Step 4: the phase index of the remainder `clock`, bounded to 0..127 (R196 (c) to (e)). -/
def synPhase (p : Params) (clock : F64) : Nat :=
  (F64.toIndex (((F64.lit 128 1).mul (clock.div p.symbolStep)).add .half).floor 0 127).toNat

/-- Step 4: the window, oldest sample first, after the advance of step 3 (R63, R196 (f)). -/
def synWindow (u : Syn) : Vector F64 8 := Vector.ofFn fun j => u.hist[u.hidx + j]

/-- What steps 4 and 5 find at a boundary: the remainder of the clock and the two corrected interpolations. -/
structure Boundary where
  clock : F64
  a : F64
  b : F64
deriving DecidableEq, Repr

/-- Steps 4 and 5 (R196, R197): the remainder, and the interpolations at rows `imu` and `imu + 1` less the fine
correction. -/
def synBoundary (t : Taps) (p : Params) (u : Syn) : Boundary :=
  let clock := u.clock.sub .one
  let imu := synPhase p clock
  ⟨clock, (interp t (synWindow u) imu).sub u.fine, (interp t (synWindow u) (imu + 1)).sub u.fine⟩

/-- Step 6, the soft symbol (R198): the quotient `2.0 / spread` is formed first. -/
def synSymbol (spread a : F64) : F64 := a.mul (F64.two.div spread)

/-- The four classification regions of R199, in the order of the tests. -/
inductive Region where
  | outerNegative
  | innerNegative
  | innerPositive
  | outerPositive
deriving DecidableEq, Repr

/-- Step 7, the range comparison (R199). A NaN falls through to the last region. -/
def synRegion (sp a : F64) : Region :=
  if F64.lt a sp.neg then .outerNegative
  else if F64.lt a .zero then .innerNegative
  else if F64.lt a sp then .innerPositive
  else .outerPositive

/-- Step 7, the symbol error: `a` minus the nominal level of its region (R199). -/
def synError (sp a : F64) : F64 :=
  match synRegion sp a with
  | .outerNegative => a.add ((F64.lit 3 2).mul sp)
  | .innerNegative => a.add (F64.half.mul sp)
  | .innerPositive => a.sub (F64.half.mul sp)
  | .outerPositive => a.sub ((F64.lit 3 2).mul sp)

/-- Step 7, the spread before its clamp (R200): half gain for the outer levels, the sign that of the side. -/
def synSpread (p : Params) (sp a : F64) : F64 :=
  let err := synError sp a
  match synRegion sp a with
  | .outerNegative => sp.sub (err.mul (F64.half.mul p.kSymbolSpread))
  | .innerNegative => sp.sub (err.mul p.kSymbolSpread)
  | .innerPositive => sp.add (err.mul p.kSymbolSpread)
  | .outerPositive => sp.add (err.mul (F64.half.mul p.kSymbolSpread))

/-- Step 7, the clamp of the spread (R200). -/
def synClamp (p : Params) (sp : F64) : F64 :=
  if F64.lt sp p.spreadMin then p.spreadMin
  else if F64.lt p.spreadMax sp then p.spreadMax
  else sp

/-- Step 7, the gain step that a clamp takes: `DGC.INC` at the lower bound, `DGC.DEC` at the upper (R200). -/
def synGainStep (p : Params) (sp : F64) (g : Dgc) : Dgc :=
  if F64.lt sp p.spreadMin then dgcIncrease p g
  else if F64.lt p.spreadMax sp then dgcDecrease p g
  else g

/-- Step 8, the timing loop (R201): advance where the one-step-ahead value is smaller, else retreat. -/
def synTiming (p : Params) (c : Boundary) (err : F64) : F64 :=
  if F64.lt c.b c.a then c.clock.add (err.mul p.kSymbolTiming) else c.clock.sub (err.mul p.kSymbolTiming)

/-- Step 9, the coarse correction: low-pass of the fine correction before this symbol's error (R202). -/
def synCoarse (p : Params) (u : Syn) : F64 := u.coarse.add ((u.fine.sub u.coarse).mul p.kCoarseFrequency)

/-- Step 9, the fine correction (R202). -/
def synFine (p : Params) (u : Syn) (err : F64) : F64 := u.fine.add (err.mul p.kFineFrequency)

/-- Step 10, the request latch (R203), for a coarse correction after step 9. -/
def synLatch (p : Params) (outstanding : Bool) (coarse : F64) (pending : BitVec 32) : BitVec 32 :=
  if outstanding then pending
  else if F64.lt p.coarseThreshold coarse then p.reqStepHz
  else if F64.lt coarse p.coarseThreshold.neg then -p.reqStepHz
  else pending

/-- Steps 4 to 11 at a boundary, on the state after step 3. -/
def synSymbolStep (t : Taps) (s : State) : State :=
  let p := s.params
  let u := s.syn
  let c := synBoundary t p u
  let err := synError u.spread c.a
  let sp := synSpread p u.spread c.a
  let coarse := synCoarse p u
  { s with
    dgc := synGainStep p sp s.dgc
    syn := { u with
      clock := synTiming p c err
      spread := synClamp p sp
      coarse := coarse
      fine := synFine p u err
      err := err
      pending := synLatch p s.status.reqOutstanding coarse u.pending } }.doutReal (synSymbol u.spread c.a)

/-- Steps 1 to 3: the state after the sample `x` has entered the history (R192 to R195). -/
def synIntake (s : State) (x : F64) : State :=
  let s' := synTrackerReset (s.noteNonfinite (synReplaced s x))
  { s' with syn := synAdvance s.params s'.syn (synSample s x) }

/-- The transition of `SYN.STEP` under a table (R191). -/
def synStepWith (t : Taps) (s : State) (x : F64) : State :=
  if synCrossed (synIntake s x).syn then synSymbolStep t (synIntake s x) else synIntake s x

/-- `SYN.STEP` (R191). -/
def execSynStep (s : State) : Result :=
  command .synStep s fun s d => .next (synStepWith taps s (dinReal d 0))

/-! ### The end of a buffer -/

/-- The total the tuner would hold after the request, clamped in the direction of the request (R205). -/
def requestTotal (p : Params) (u : Syn) : Int :=
  let t := u.acked.toInt + u.pending.toInt
  if u.pending.toInt > 0 ∧ t > p.maxCorrectionHz.toInt then p.maxCorrectionHz.toInt
  else if u.pending.toInt < 0 ∧ t < -p.maxCorrectionHz.toInt then -p.maxCorrectionHz.toInt
  else t

/-- `deltaHz` of the request (R205). -/
def requestDelta (p : Params) (u : Syn) : Int := requestTotal p u - u.acked.toInt

/-- The transition of `SYN.ENDBUF` (R205). -/
def synEndbuf (s : State) : State :=
  if s.syn.pending = 0 then s
  else
    let d := requestDelta s.params s.syn
    let s' := if d * s.syn.pending.toInt > 0 then
        { s.emitEvt evtCorrectionRequest (BitVec.ofInt 32 d) with
          status := { s.status with reqOutstanding := true } }
      else s
    { s' with syn := { s.syn with pending := 0 } }

/-- `SYN.ENDBUF` (R205). -/
def execSynEndbuf (s : State) : Result := command .synEndbuf s fun s _ => .next (synEndbuf s)

end Sys2Proof.Machine
end

