-- ==== Sys2Proof/Machine/Registers.lean ====
section
/-! DEFINITION. Register access by number: what `RDS` and `RDP` read and what `WRP` writes
(spec/10_state.md R30, R40; spec/40_sys_pcm.md R103 to R106). -/

namespace Sys2Proof.Machine

open Sys2Proof

/-- A register's value as `RDS` or `RDP` puts it on DOUT (R106). -/
inductive RegValue where
  | real (v : F64)
  | int32 (v : BitVec 32)
  | word (w : Word64)
deriving DecidableEq, Repr

/-- Puts a register's value on DOUT. -/
def State.doutReg (s : State) : RegValue → State
  | .real v => s.doutReal v
  | .int32 v => s.doutInt32 v
  | .word w => s.pushWord w

/-- `P[p]`, `none` where the index is unmapped (R40, R105). -/
def Params.read (p : Params) (idx : Nat) : Option RegValue :=
  match idx with
  | 0 => some (.real p.dcRatio)
  | 1 => some (.real p.iqRatio)
  | 2 => some (.real p.fmGain)
  | 3 => some (.real p.amGain)
  | 4 => some (.real p.agcObjective)
  | 5 => some (.real p.agcFloor)
  | 6 => some (.int32 p.agcWindow)
  | 7 => some (.real p.dgcInit)
  | 8 => some (.real p.dgcMin)
  | 9 => some (.real p.dgcMax)
  | 10 => some (.real p.dgcStep)
  | 11 => some (.real p.rsStep)
  | 12 => some (.real p.pcmScale)
  | 13 => some (.real p.sampleRate)
  | 14 => some (.real p.symbolRate)
  | 15 => some (.real p.kSymbolSpread)
  | 16 => some (.real p.kSymbolTiming)
  | 17 => some (.real p.kCoarseFrequency)
  | 18 => some (.real p.kFineFrequency)
  | 19 => some (.real p.spreadNominal)
  | 20 => some (.real p.spreadMin)
  | 21 => some (.real p.spreadMax)
  | 22 => some (.real p.coarseThreshold)
  | 23 => some (.int32 p.reqStepHz)
  | 24 => some (.int32 p.maxCorrectionHz)
  | 25 => some (.real p.symbolStep)
  | _ => none

/-- A legal ratio: finite, `0 < v <= 1` (R40). -/
def legalRatio (v : F64) : Bool := v.isFinite && F64.lt .zero v && F64.le v .one

/-- A legal positive value: finite, `v > 0` (R40). -/
def legalPositive (v : F64) : Bool := v.isFinite && F64.lt .zero v

/-- A legal `RS_STEP`: finite, `2^-8 <= v <= 2^16` (R40). -/
def legalRsStep (v : F64) : Bool := v.isFinite && F64.le (.lit 1 256) v && F64.le v (.lit 65536 1)

/-- A legal `AGC_WINDOW`: `1 <= v <= 256` (R40). -/
def legalWindow (n : BitVec 32) : Bool := decide (1 ≤ n.toInt) && decide (n.toInt ≤ 256)

/-- A legal `MAX_CORRECTION_HZ`: `0 <= v <= 2^30` (R40). -/
def legalMaxCorrection (n : BitVec 32) : Bool := decide (0 ≤ n.toInt) && decide (n.toInt ≤ 2 ^ 30)

/-- `P[p] <- v` for an operand word, `none` where the value is not legal for the register (R103, R104; the
"legal" column of R40). A read-only or unmapped index has no legal value. -/
def Params.write (p : Params) (idx : Nat) (w : Word64) : Option Params :=
  let v := F64.ofBits w
  let n := w.extractLsb' 0 32
  match idx with
  | 0 => if legalRatio v then some { p with dcRatio := v } else none
  | 1 => if legalRatio v then some { p with iqRatio := v } else none
  | 2 => if v.isFinite then some { p with fmGain := v } else none
  | 3 => if v.isFinite then some { p with amGain := v } else none
  | 5 => if legalPositive v then some { p with agcFloor := v } else none
  | 6 => if legalWindow n then some { p with agcWindow := n } else none
  | 7 => if legalPositive v then some { p with dgcInit := v } else none
  | 8 => if legalPositive v then some { p with dgcMin := v } else none
  | 9 => if legalPositive v then some { p with dgcMax := v } else none
  | 10 => if legalPositive v then some { p with dgcStep := v } else none
  | 11 => if legalRsStep v then some { p with rsStep := v } else none
  | 24 => if legalMaxCorrection n then some { p with maxCorrectionHz := n } else none
  | _ => none

/-- The side effect of a legal write (R104): a write of `AGC_FLOOR` or `AGC_WINDOW` resets AGC under the new
parameters; no other write touches a state register. -/
def State.afterWrite (s : State) (idx : Nat) : State :=
  if idx = 5 ∨ idx = 6 then s.resetAgc else s

/-- An array element by index, for the arrays of R30. -/
def readArray {n : Nat} (a : Vector F64 n) (i : Nat) : RegValue := .real (a.toList.getD i .zero)

/-- The state register with this `RDS` index, `none` where the index is unmapped (R30, R106). `hist` is read by
physical slot (R63). -/
def State.readState (s : State) (idx : Nat) : Option RegValue :=
  match idx with
  | 0 => some (.real s.dcf.avgI)
  | 1 => some (.real s.dcf.avgQ)
  | 2 => some (.real s.iqc.pii)
  | 3 => some (.real s.iqc.pqq)
  | 4 => some (.real s.iqc.piq)
  | 5 => some (.real s.fmd.prevI)
  | 6 => some (.real s.fmd.prevQ)
  | 7 => some (.real s.agc.gain)
  | 8 => some (.real s.agc.max)
  | 9 => some (.int32 (BitVec.ofNat 32 s.agc.idx))
  | 10 => some (.real s.dgc.gain)
  | 11 => some (.real s.rsm.pos)
  | 12 => some (.real s.syn.clock)
  | 13 => some (.real s.syn.spread)
  | 14 => some (.real s.syn.coarse)
  | 15 => some (.real s.syn.fine)
  | 16 => some (.int32 (BitVec.ofNat 32 s.syn.hidx.val))
  | 17 => some (.real s.syn.err)
  | 18 => some (.int32 s.syn.pending)
  | 19 => some (.int32 s.syn.acked)
  | 20 => some (.word s.statusWord)
  | 21 => some (.int32 (BitVec.ofNat 32 s.faultCode.toNat))
  | 22 => some (.word (s.faultCmd.zeroExtend 64))
  | _ =>
    if 32 ≤ idx ∧ idx ≤ 39 then some (readArray s.syn.hist (idx - 32))
    else if 40 ≤ idx ∧ idx ≤ 47 then some (readArray s.rsm.wI (idx - 40))
    else if 48 ≤ idx ∧ idx ≤ 55 then some (readArray s.rsm.wQ (idx - 48))
    else if 256 ≤ idx ∧ idx ≤ 511 then some (readArray s.agc.ring (idx - 256))
    else none

end Sys2Proof.Machine
end

