-- ==== Sys2Proof/Machine/Sys.lean ====
section
/-! DEFINITION. The system unit: `NOP`, `RSTALL`, `RSTU`, `WRP`, `RDP`, `RDS` (spec/40_sys_pcm.md R100 to R106). -/

namespace Sys2Proof.Machine

open Sys2Proof

/-- `NOP` (R100): nothing; executes also while a fault is recorded. -/
def execNop (s : State) : Result := .next s.retire

/-- `RSTALL` (R101, R235): executes also while a fault is recorded. -/
def execRstall (s : State) : Result := .next s.retire.restart

/-- `RSTU u` (R102). -/
def execRstu (u : Arg) (s : State) : Result :=
  command (.rstu u) s fun s _ => .next (s.resetUnit u.toNat)

/-- `WRP p` (R103, R104): the operand is consumed before its value is judged. -/
def execWrp (p : Arg) (s : State) : Result :=
  command (.wrp p) s fun s d =>
    match s.params.write p.toNat (dinWord d 0) with
    | none => .next (s.raiseFault .badConfig (encode (.wrp p)))
    | some p' => .next ({ s with params := p' }.afterWrite p.toNat)

/-- A register read (R105, R106): the value on DOUT, or `BAD_OPERAND` for an unmapped index. Executes also while
a fault is recorded; a second fault is then discarded (R233). -/
def readOut (i : Instr) (v : Option RegValue) (s : State) : Result :=
  match v with
  | none => .next (s.retire.raiseFault .badOperand (encode i))
  | some v => .next (s.retire.doutReg v)

/-- `RDP p` (R105). -/
def execRdp (p : Arg) (s : State) : Result := readOut (.rdp p) (s.params.read p.toNat) s

/-- `RDS s` (R106). -/
def execRds (r : Arg) (s : State) : Result := readOut (.rds r) (s.readState r.toNat) s

end Sys2Proof.Machine
end

