-- ==== Sys2Proof/Machine/Dispatch.lean ====
section
/-! DEFINITION. The meaning of every operation, one arm per constructor of `Instr`. -/

namespace Sys2Proof.Machine

open Sys2Proof

/-- `exec i s`: operation `i`, standing at the head of its port, acts on `s` (spec/00_scope.md R14, R17). -/
def exec (i : Instr) (s : State) : Host.Outcome State Fault Refusal :=
  match i with
  | .nop => Sys2Proof.Machine.execNop s
  | .rstall => Sys2Proof.Machine.execRstall s
  | .rstu u => Sys2Proof.Machine.execRstu u s
  | .wrp p => Sys2Proof.Machine.execWrp p s
  | .rdp p => Sys2Proof.Machine.execRdp p s
  | .rds r => Sys2Proof.Machine.execRds r s
  | .pcmLd => Sys2Proof.Machine.execPcmLd s
  | .pcmLdc => Sys2Proof.Machine.execPcmLdc s
  | .pcmSt => Sys2Proof.Machine.execPcmSt s
  | .dcfStep => Sys2Proof.Machine.execDcfStep s
  | .dcfStepc => Sys2Proof.Machine.execDcfStepc s
  | .dcfBlock n => Sys2Proof.Machine.execDcfBlock n s
  | .dcfBlockc n => Sys2Proof.Machine.execDcfBlockc n s
  | .iqcStep => Sys2Proof.Machine.execIqcStep s
  | .fmdStep => Sys2Proof.Machine.execFmdStep s
  | .amdStep => Sys2Proof.Machine.execAmdStep s
  | .agcStep => Sys2Proof.Machine.execAgcStep s
  | .dgcCorrect => Sys2Proof.Machine.execDgcCorrect s
  | .dgcInc => Sys2Proof.Machine.execDgcInc s
  | .dgcDec => Sys2Proof.Machine.execDgcDec s
  | .intFir k => Sys2Proof.Machine.execIntFir k s
  | .intFirc k => Sys2Proof.Machine.execIntFirc k s
  | .intFirmu => Sys2Proof.Machine.execIntFirmu s
  | .intFirmuc => Sys2Proof.Machine.execIntFirmuc s
  | .rsmPush => Sys2Proof.Machine.execRsmPush s
  | .rsmPushc => Sys2Proof.Machine.execRsmPushc s
  | .synStep => Sys2Proof.Machine.execSynStep s
  | .synEndbuf => Sys2Proof.Machine.execSynEndbuf s
  | .synAck => Sys2Proof.Machine.execSynAck s
  | .synRate => Sys2Proof.Machine.execSynRate s

end Sys2Proof.Machine
end

