-- ==== Sys2Proof/Machine/Agents.lean ====
section
/-! DEFINITION. The command agent, the notification agent and the choice between them at an operation boundary
(spec/00_scope.md R15; spec/20_memory.md R70, R71; spec/60_exceptions.md R234, R243, R254;
spec/70_reset_and_hazards.md R276). -/

namespace Sys2Proof.Machine

open Sys2Proof

/-- The command agent can move: a word is on CMD and it is not an operation that holds (R276). An illegal word
never holds. -/
def State.commandReady (s : State) : Bool :=
  match s.cmd with
  | [] => false
  | w :: _ =>
    match decode .cmd w with
    | .ok i => !s.holds i
    | .error _ => true

/-- The command agent takes the head word of CMD and executes it; a word the decoder does not accept is
`ILLEGAL_OP`, or is discarded while a fault is recorded (R85, R234). With CMD empty the block is idle (R254). -/
def stepCommand (s : State) : Result :=
  match s.cmd with
  | [] => .next s
  | w :: _ =>
    match decode .cmd w with
    | .ok i => exec i s
    | .error _ => .next (s.retire.raiseFault .illegalOp w)

/-- The notification agent delivers the head of NTF (R85, R234, R243). -/
def stepNotification (s : State) : Result :=
  match s.ntf with
  | [] => .next s
  | e :: _ =>
    match decode .ntf e.word with
    | .ok i => exec i s
    | .error _ => .next (s.dropNtf.raiseFault .illegalOp e.word)

/-- The turn of one agent. -/
def stepOf (a : Agent) (s : State) : Result :=
  match a with
  | .command => stepCommand s
  | .notification => stepNotification s

/-- One operation boundary: where only one agent can move it moves; where both can, which one does is a free
choice (R71, R243), made anew at each such boundary. Where neither can, the state does not change. -/
def stepBoundary (s : State) : Result :=
  if s.ntf.isEmpty then stepCommand s
  else if !s.commandReady then stepNotification s
  else stepOf (Config.arbiter s.boundary) { s with boundary := s.boundary + 1 }

/-- `s` with the operation word of `w` the only one the next step can take: at the head of CMD with NTF empty, or,
for a notification word, at the head of NTF with CMD empty. The operand words an operation waits for (R87) are
zeros: an NTF operand of zero, and as many zero words after those on DIN as are missing. -/
def State.placeWord (s : State) (w : Word32) : State :=
  match decode .ntf w with
  | .ok _ => { s with cmd := [], ntf := [⟨w, 0⟩] }
  | .error _ =>
    match decode .cmd w with
    | .ok i => { s with cmd := [w], ntf := [], din := s.din ++ List.replicate (dinWords i - s.din.length) 0 }
    | .error _ => { s with cmd := [w], ntf := [] }

end Sys2Proof.Machine
end

