-- ==== Sys2Proof/Machine/Step.lean ====
section
/-! DEFINITION. One step of the block, and the placing of a word where the next step takes it. -/

namespace Sys2Proof.Machine

open Sys2Proof

/-- One step: one operation of the command agent, or one notification delivered, or nothing where neither agent
can move (R14, R15). -/
def step (s : State) : Host.Outcome State Fault Refusal := stepBoundary s

/-- `s` with the instruction of `nbits` bits `w` where `step` takes its next instruction. -/
def State.withFetchWord (s : State) (nbits w : Nat) : State := s.placeWord (BitVec.ofNat 32 (w % 2 ^ nbits))

end Sys2Proof.Machine
end

