-- ==== Sys2Proof/Machine/Ports.lean ====
section
/-! DEFINITION. What the outside world does to the block: the host at CMD, DIN, DOUT and EVT, the tuner at NTF
(spec/00_scope.md R15 (3); spec/30_encoding.md R80, R94), the bytes of the wire formats (spec/20_memory.md R64,
R65), and the lines and pseudo-operations of the spec's programs (spec/30_encoding.md R91, R92). -/

namespace Sys2Proof.Machine

open Sys2Proof

/-! ### The agents outside: each acts only on the ports, between two steps -/

/-- The host puts a command word on CMD. -/
def State.hostCommand (s : State) (w : Word32) : State := { s with cmd := s.cmd ++ [w] }

/-- The host puts data words on DIN. -/
def State.hostData (s : State) (ws : List Word64) : State := { s with din := s.din ++ ws }

/-- The host drains DOUT: the words taken and the state after. -/
def State.hostDrain (s : State) : List Word64 × State := (s.dout, { s with dout := [] })

/-- The tuner drains EVT: the words taken and the state after. -/
def State.tunerDrain (s : State) : List Word64 × State := (s.evt, { s with evt := [] })

/-- The tuner puts a notification on NTF. -/
def State.tunerNotify (s : State) (e : NtfEntry) : State := { s with ntf := s.ntf ++ [e] }

/-! ### Wire bytes, least significant byte first (R64, R65) -/

/-- A PCM sample as a DIN word: the byte that arrives first is the low byte; bits 63:16 are whatever the host puts
there (R64, U27). -/
def pcmWord (upper : BitVec 48) (first second : BitVec 8) : Word64 := upper ++ second ++ first

/-- A command word serialised (R65). -/
def bytesOfCommand (w : Word32) : List (BitVec 8) :=
  [w.extractLsb' 0 8, w.extractLsb' 8 8, w.extractLsb' 16 8, w.extractLsb' 24 8]

/-- A data word serialised (R65). -/
def bytesOfData (w : Word64) : List (BitVec 8) :=
  bytesOfCommand (w.extractLsb' 0 32) ++ bytesOfCommand (w.extractLsb' 32 32)

/-! ### Programs: the lines of R91 -/

/-- One line of a program: an operation, data words the host puts on DIN, or a point at which the notification
agent delivers a notification. -/
inductive Line where
  | op (i : Instr)
  | din (ws : List Word64)
  | ntf (e : NtfEntry)
deriving DecidableEq, Repr

/-- The pseudo-operations (R92). -/
inductive Pseudo where
  | fmdReset
  | dgcReset
  | dcfBuf (n : Nat)
  | dcfBufc (n : Nat)
  | iqcBuf (n : Nat)
  | fmdBuf (n : Nat)
  | amdBuf (n : Nat)
  | agcBuf (n : Nat)
  | rsmBuf (n : Nat)
  | rsmBufc (n : Nat)
  | synBuf (n : Nat)
  | setp (p : Arg) (v : Word64)
deriving DecidableEq, Repr

/-- The expansion of a pseudo-operation (R92): a batch form is exactly its samples one at a time. -/
def Pseudo.expand : Pseudo → List Line
  | .fmdReset => [.op (.rstu 4)]
  | .dgcReset => [.op (.rstu 7)]
  | .dcfBuf n => List.replicate n (.op .dcfStep)
  | .dcfBufc n => List.replicate n (.op .dcfStepc)
  | .iqcBuf n => List.replicate n (.op .iqcStep)
  | .fmdBuf n => List.replicate n (.op .fmdStep)
  | .amdBuf n => List.replicate n (.op .amdStep)
  | .agcBuf n => List.replicate n (.op .agcStep)
  | .rsmBuf n => List.replicate n (.op .rsmPush)
  | .rsmBufc n => List.replicate n (.op .rsmPushc)
  | .synBuf n => List.replicate n (.op .synStep) ++ [.op .synEndbuf]
  | .setp p v => [.din [v], .op (.wrp p)]

end Sys2Proof.Machine
end

