-- ==== Sys2Proof/Machine/Run.lean ====
section
/-! DEFINITION. Runs: when one ends and what its outcome is (spec/70_reset_and_hazards.md R277), under the free choice
of where a notification is delivered or with that choice as an input (spec/60_exceptions.md R243; the program lines of
spec/30_encoding.md R91). -/

namespace Sys2Proof.Machine

open Sys2Proof

/-! ### The end of a run (R277) -/

/-- A run ends when CMD is empty, or when the command agent holds for operands (R277). -/
def State.runEnded (s : State) : Bool := !s.commandReady

/-- The outcome of a run: the state, the contents of DOUT and EVT, and the FAULT line (R277). -/
structure RunOutcome where
  state : State
  dout : List Word64
  evt : List Word64
  faultLine : Bool
deriving DecidableEq, Repr

/-- What a run that ends in `s` shows. -/
def State.outcome (s : State) : RunOutcome := ⟨s, s.dout, s.evt, s.faultLine⟩

/-! ### Turns one after the other -/

/-- Goes on from a next state; a stop of the model stays one. -/
def andThen {α : Type} (r : Result) (f : State → Host.Outcome α Fault Refusal) : Host.Outcome α Fault Refusal :=
  match r with
  | .next s => f s
  | .fault e => .fault e
  | .refused e => .refused e

/-- Turns, one after the other, for as long as `more` asks for one, at most `n`. -/
def turns (more : State → Bool) (turn : State → Result) : Nat → State → Result
  | 0, s => .next s
  | n + 1, s => if more s then andThen (turn s) (turns more turn n) else .next s

/-! ### Runs of the block alone -/

/-- `k` steps of the block. -/
def steps (k : Nat) (s : State) : Result := turns (fun _ => true) step k s

/-- Steps until the run ends. Every step before that takes a word from CMD or an entry from NTF, so there are at most
as many as both hold. -/
def runToEnd (s : State) : Result := turns (fun t => !t.runEnded) step (s.cmd.length + s.ntf.length) s

/-- The outcome of the run from `s` where it first ends (R277; notes/assumptions/19.md). -/
def run (s : State) : Host.Outcome RunOutcome Fault Refusal := andThen (runToEnd s) fun t => .next t.outcome

/-- A run from `s` can end with this outcome: some steps lead to a state in which it has ended, with or without the
notifications still queued there delivered (R243, R276, R277). -/
def EndsWith (s : State) (o : RunOutcome) : Prop := ∃ k t, steps k s = .next t ∧ t.runEnded = true ∧ o = t.outcome

/-! ### Runs of a program: the interleaving as an input (R91, R243) -/

/-- The command agent moves until CMD is empty or it holds. -/
def runCommands (s : State) : Result := turns State.commandReady stepCommand s.cmd.length s

/-- The notification agent delivers all that is on NTF, in order. -/
def deliverNotifications (s : State) : Result :=
  turns (fun t => !t.ntf.isEmpty) stepNotification s.ntf.length s

/-- The effect of one line, after which the command agent moves as far as it can: an operation is put on CMD; data
words are put on DIN, for which a command may have held; a notification is put on NTF and delivered. -/
def runLine (l : Line) (s : State) : Result :=
  match l with
  | .op i => runCommands (s.hostCommand (encode i))
  | .din ws => runCommands (s.hostData ws)
  | .ntf e => andThen (deliverNotifications (s.tunerNotify e)) runCommands

/-- The lines of a program in order, up to the first stop of the model. -/
def runLines : List Line → State → Result
  | [], s => runCommands s
  | l :: rest, s => andThen (runLine l s) (runLines rest)

/-- The outcome of a program's run (R277). -/
def runProgram (ls : List Line) (s : State) : Host.Outcome RunOutcome Fault Refusal :=
  andThen (runLines ls s) fun t => .next t.outcome

end Sys2Proof.Machine
end

