-- ==== Sys2Proof/Safety.lean ====
section
/-! DEFINITION. What a good state is: the invariants the rules keep (spec/10_state.md R32; spec/43_gain.md R154,
R159; spec/44_interp.md R181); what it is to round once (spec/00_scope.md R10); and the named properties a proof may
assume of the coefficient table (spec/44_interp.md R177). -/

namespace Sys2Proof.Machine

open Sys2Proof

/-! ### Invariants of the state -/

/-- The parameters are legal: every read-write register inside the "legal" column of R40, every read-only one at
its default. -/
structure Params.Legal (p : Params) : Prop where
  dcRatio : legalRatio p.dcRatio = true
  iqRatio : legalRatio p.iqRatio = true
  fmGain : p.fmGain.isFinite = true
  amGain : p.amGain.isFinite = true
  agcFloor : legalPositive p.agcFloor = true
  agcWindow : legalWindow p.agcWindow = true
  dgcInit : legalPositive p.dgcInit = true
  dgcMin : legalPositive p.dgcMin = true
  dgcMax : legalPositive p.dgcMax = true
  dgcStep : legalPositive p.dgcStep = true
  rsStep : legalRsStep p.rsStep = true
  maxCorrectionHz : legalMaxCorrection p.maxCorrectionHz = true
  readOnly : ∀ idx, paramReadOnly idx = true → p.read idx = Params.default.read idx

/-- A finite real that is not negative, and not `-0.0`. -/
def plain (x : F64) : Bool := x.isFinite && !x.sign

/-- The AGC invariant (R32 (a), (b); R154 (a)): the index inside the window, every ring entry finite and not
negative, the maximum that of the window, the gain that of the maximum. -/
structure AgcInv (p : Params) (u : Agc) : Prop where
  index : u.idx < p.agcWindow.toNat
  entries : ∀ x ∈ u.ring.toList, plain x = true
  max : u.max = ringMax u.ring p.agcWindow.toNat
  gain : u.gain = agcGain p u.max

/-- The invariants of R32 and of the first sentence of R159, with the legality of the parameters they rest on. -/
structure Inv (s : State) : Prop where
  params : s.params.Legal
  /-- R32 (a), (b) -/
  agc : AgcInv s.params s.agc
  /-- R32 (c) -/
  pending : s.syn.pending = 0 ∨ s.syn.pending = s.params.reqStepHz ∨ s.syn.pending = -s.params.reqStepHz
  /-- R32 (d) -/
  spread : s.syn.spread = .nan ∨
    (F64.le s.params.spreadMin s.syn.spread = true ∧ F64.le s.syn.spread s.params.spreadMax = true)
  /-- R32 (e) -/
  dcAverages : s.dcf.avgI.isFinite = true ∧ s.dcf.avgQ.isFinite = true
  /-- R32 (e) -/
  iqAverages : s.iqc.pii.isFinite = true ∧ s.iqc.pqq.isFinite = true ∧ s.iqc.piq.isFinite = true
  /-- R32 (f) -/
  position : F64.le .zero s.rsm.pos = true
  /-- R32 (g) -/
  windows : ∀ j : Fin 8,
    s.syn.hist[j].isFinite = true ∧ s.rsm.wI[j].isFinite = true ∧ s.rsm.wQ[j].isFinite = true
  /-- R159, its first sentence. That the gain lies between `P.DGC_MIN` and `P.DGC_MAX`, its second, is no invariant of the
  pseudocode the model follows (DEDUCED: notes/assumptions/20.md). -/
  directGain : legalPositive s.dgc.gain = true

/-- The relation between the DGC parameters that is the host's duty (R41, R266). -/
def Params.DgcOrdered (p : Params) : Prop := F64.le p.dgcMin p.dgcInit = true ∧ F64.le p.dgcInit p.dgcMax = true

/-- The direct gain lies in `[P.DGC_MIN, P.DGC_MAX]` (R159, its second sentence, as far as R157 and R158 give it:
notes/assumptions/20.md). -/
def State.GainInBounds (s : State) : Prop :=
  F64.le s.params.dgcMin s.dgc.gain = true ∧ F64.le s.dgc.gain s.params.dgcMax = true

/-- An operation can start: no fault is recorded, its `ARG` passes and its operand words are on DIN (R99). -/
def State.Ready (s : State) (i : Instr) : Prop :=
  s.status.fault = false ∧ argFault i = none ∧ dinWords i ≤ s.din.length

/-! ### Rounding (R10) -/

/-- `r` is the real of sign `neg` and exact size `v`, rounded once to nearest, ties to even (R10): its magnitude code is
one whose value is nearest to `v`, of two such the even one, and it is infinite where that code is beyond the finite
ones. -/
def RoundsTo (neg : Bool) (v : ℝ) (r : F64) : Prop :=
  ∃ c : Nat, (∀ h : c < infMag, r = .fin neg ⟨c, h⟩) ∧ (infMag ≤ c → r = .inf neg) ∧
    ∀ c' : Nat, |(F64.units c : ℝ) / 2 ^ 1074 - v| ≤ |(F64.units c' : ℝ) / 2 ^ 1074 - v| ∧
      (|(F64.units c : ℝ) / 2 ^ 1074 - v| = |(F64.units c' : ℝ) / 2 ^ 1074 - v| → c' ≠ c → c % 2 = 0)

/-! ### Named properties of the coefficient table (R177) -/

/-- A window of finite samples. -/
def finiteWindow (w : Vector F64 8) : Prop := ∀ j : Fin 8, w[j].isFinite = true

/-- `TAPS_ENDPOINTS` (R177), equality being that of reals (R11). -/
def TapsEndpoints (t : Taps) : Prop :=
  ∀ w, finiteWindow w → F64.feq (interp t w 0) w[3] = true ∧ F64.feq (interp t w 128) w[4] = true

/-- `TAPS_SYMMETRY` (R177). -/
def TapsSymmetry (t : Taps) : Prop :=
  ∀ (k k' : Fin 129) (j j' : Fin 8), k.val + k'.val = 128 → j.val + j'.val = 7 → t k' j = t k j'

/-- `TAPS_DCGAIN` (R177). -/
def TapsDcGain (t : Taps) : Prop :=
  ∀ k : Fin 129, |(∑ j : Fin 8, value (t k j)) - 1| ≤ 1 / 2 ^ 20

/-- `TAPS_FINITE` (R170, R177), which `taps` has by construction. -/
def TapsFinite (t : Taps) : Prop := ∀ (k : Fin 129) (j : Fin 8), (t k j).isFinite = true

/-- The test fixture `TAPS_LIN` (R178): not the hardware's table. -/
def tapsLin : Taps := fun k j =>
  if j = 3 then .lit (128 - k.val) 128 else if j = 4 then .lit k.val 128 else .zero

end Sys2Proof.Machine
end

