-- ==== Sys2Proof/Certificates/Slice0/Obligations.lean ====
section
/-! DEFINITION. The statements about the model, for the provers. Where a statement gives an operation's effect it
writes the formula of the spec's rule, not the name of the model's definition, and the record update says that
every other field is unchanged. -/

open Sys2Proof Sys2Proof.Machine

/-! ### Encoding (30_encoding.md) -/

/-- R84, R85: on each port the decoder accepts exactly the words of that port's operations, each as its own
operation; so decoding the encoding of an operation gives it back, and no bit of an accepted word is ignored. -/
def Obligations.DecodeAcceptsExactlyTheEncodings : Prop :=
  ∀ (p : Port) (w : Word32) (i : Instr), decode p w = .ok i ↔ i.port = p ∧ encode i = w

/-- R84: the word of each of the thirty rows of the operation map, those with an argument with one of its values in it,
decodes to that row's operation (a sanity statement). -/
def Obligations.TabledWordsDecode : Prop :=
  decode .cmd 0x00000000 = .ok .nop ∧ decode .cmd 0x01000000 = .ok .rstall ∧
  decode .cmd 0x0200000A = .ok (.rstu 10) ∧ decode .cmd 0x03000006 = .ok (.wrp 6) ∧
  decode .cmd 0x04000019 = .ok (.rdp 25) ∧ decode .cmd 0x050001FF = .ok (.rds 511) ∧
  decode .cmd 0x10000000 = .ok .pcmLd ∧ decode .cmd 0x11000000 = .ok .pcmLdc ∧
  decode .cmd 0x12000000 = .ok .pcmSt ∧ decode .cmd 0x20000000 = .ok .dcfStep ∧
  decode .cmd 0x21000000 = .ok .dcfStepc ∧ decode .cmd 0x2200FFFF = .ok (.dcfBlock 65535) ∧
  decode .cmd 0x23000002 = .ok (.dcfBlockc 2) ∧ decode .cmd 0x30000000 = .ok .iqcStep ∧
  decode .cmd 0x40000000 = .ok .fmdStep ∧ decode .cmd 0x50000000 = .ok .amdStep ∧
  decode .cmd 0x60000000 = .ok .agcStep ∧ decode .cmd 0x70000000 = .ok .dgcCorrect ∧
  decode .cmd 0x71000000 = .ok .dgcInc ∧ decode .cmd 0x72000000 = .ok .dgcDec ∧
  decode .cmd 0x80000040 = .ok (.intFir 64) ∧ decode .cmd 0x81000080 = .ok (.intFirc 128) ∧
  decode .cmd 0x82000000 = .ok .intFirmu ∧ decode .cmd 0x83000000 = .ok .intFirmuc ∧
  decode .cmd 0x90000000 = .ok .rsmPush ∧ decode .cmd 0x91000000 = .ok .rsmPushc ∧
  decode .cmd 0xA0000000 = .ok .synStep ∧ decode .cmd 0xA1000000 = .ok .synEndbuf ∧
  decode .ntf 0xA8000000 = .ok .synAck ∧ decode .ntf 0xA9000000 = .ok .synRate

/-- R85, R88: the illegal words, class by class, are refused on the port named. The spec has one code, `ILLEGAL_OP`,
for all of them; the four reasons, and the order in which the decoder tests for them (the port before the argument),
are the model's (notes/assumptions/18.md). -/
def Obligations.IllegalWordClassesRefused : Prop :=
  ∀ (p : Port) (w : Word32),
    (rsvField w ≠ 0 → decode p w = .error .reservedBits) ∧
    (rsvField w = 0 → 11 ≤ (unitField w).toNat → decode p w = .error .noSuchOperation) ∧
    (rsvField w = 0 → (∀ i : Instr, ¬(i.unit = unitField w ∧ i.op = opField w)) →
      decode p w = .error .noSuchOperation) ∧
    (∀ i : Instr, rsvField w = 0 → i.unit = unitField w → i.op = opField w → i.port ≠ p →
      decode p w = .error .wrongPort) ∧
    (∀ i : Instr, rsvField w = 0 → i.unit = unitField w → i.op = opField w → i.port = p → i.format ≠ .a →
      argField w ≠ 0 → decode p w = .error .nonzeroArgument)

/-! ### The step (00_scope.md R15; 60_exceptions.md R243; 70_reset_and_hazards.md R276) -/

/-- A step runs the decoded operation. (a) A command at the head of CMD with NTF empty. (b) A notification at the
head of NTF while the command agent cannot move: CMD empty, or its head command holding for operands. (c) Where
both could move, exactly one of them does, which one being free; the boundary counter, the model's own, advances
(notes/assumptions/4.md). -/
def Obligations.StepRunsTheDecodedOperation : Prop :=
  (∀ (s : State) (w : Word32) (rest : List Word32) (i : Instr),
    s.cmd = w :: rest → s.ntf = [] → decode .cmd w = .ok i → step s = exec i s) ∧
  (∀ (s : State) (e : NtfEntry) (rest : List NtfEntry) (j : Instr),
    s.ntf = e :: rest → decode .ntf e.word = .ok j →
    (s.cmd = [] ∨ ∃ w ws i, s.cmd = w :: ws ∧ decode .cmd w = .ok i ∧ s.holds i = true) → step s = exec j s) ∧
  (∀ (s : State) (w : Word32) (ws : List Word32) (i : Instr) (e : NtfEntry) (es : List NtfEntry) (j : Instr),
    s.cmd = w :: ws → decode .cmd w = .ok i → s.holds i = false → s.ntf = e :: es → decode .ntf e.word = .ok j →
    (step s = exec i { s with boundary := s.boundary + 1 } ∨
      step s = exec j { s with boundary := s.boundary + 1 }))

/-- R85, R231, R233: a word the decoder does not accept is taken and enters the fault `ILLEGAL_OP` with that word
recorded; DIN and everything else stay. (a) At the head of CMD with NTF empty. (b) At the head of NTF while the command
agent cannot move. (c) Where both agents could move, the one or the other does, each to the same effect; which one is
free, and the boundary counter advances (notes/assumptions/4.md). That an illegal notification word leaves NTF with its
whole entry, the operand beside it included, is the model's choice (notes/assumptions/7.md). -/
def Obligations.IllegalWordFaults : Prop :=
  let onCmd (s : State) (w : Word32) (rest : List Word32) : State :=
    { s with cmd := rest, status := { s.status with fault := true }, faultCode := .illegalOp, faultCmd := w }
  let onNtf (s : State) (w : Word32) (rest : List NtfEntry) : State :=
    { s with ntf := rest, status := { s.status with fault := true }, faultCode := .illegalOp, faultCmd := w }
  (∀ (s : State) (w : Word32) (rest : List Word32) (e : DecodeError),
    s.status.fault = false → s.cmd = w :: rest → s.ntf = [] → decode .cmd w = .error e →
    step s = .next (onCmd s w rest)) ∧
  (∀ (s : State) (n : NtfEntry) (rest : List NtfEntry) (e : DecodeError),
    s.status.fault = false → s.ntf = n :: rest → decode .ntf n.word = .error e →
    (s.cmd = [] ∨ ∃ w ws i, s.cmd = w :: ws ∧ decode .cmd w = .ok i ∧ s.holds i = true) →
    step s = .next (onNtf s n.word rest)) ∧
  (∀ (s : State) (w : Word32) (ws : List Word32) (n : NtfEntry) (ns : List NtfEntry),
    s.status.fault = false → s.cmd = w :: ws → s.ntf = n :: ns →
    let b := { s with boundary := s.boundary + 1 }
    (∀ e e', decode .cmd w = .error e → decode .ntf n.word = .error e' →
      step s = .next (onCmd b w ws) ∨ step s = .next (onNtf b n.word ns)) ∧
    (∀ e j, decode .cmd w = .error e → decode .ntf n.word = .ok j →
      step s = .next (onCmd b w ws) ∨ step s = exec j b) ∧
    (∀ i e', decode .cmd w = .ok i → s.holds i = false → decode .ntf n.word = .error e' →
      step s = exec i b ∨ step s = .next (onNtf b n.word ns)))

/-- R254, R276: with both operation ports empty, or with the head command waiting for operands and no
notification queued, a step changes nothing at all. R277: a run has ended where CMD is empty or its head command waits
for operands, and only there; its outcome is that state, with the contents of DOUT and EVT and the FAULT line. (That a
notification still queued there is left to a later run is the model's reading: notes/assumptions/19.md.) -/
def Obligations.IdleAndHoldChangeNothing : Prop :=
  (∀ s : State, s.cmd = [] → s.ntf = [] → step s = .next s) ∧
  (∀ (s : State) (w : Word32) (rest : List Word32) (i : Instr),
    s.ntf = [] → s.cmd = w :: rest → decode .cmd w = .ok i → s.status.fault = false → argFault i = none →
    s.din.length < dinWords i → step s = .next s) ∧
  (∀ s : State, s.runEnded = true ↔ s.cmd = [] ∨ ∃ w ws i, s.cmd = w :: ws ∧ decode .cmd w = .ok i ∧
    s.status.fault = false ∧ argFault i = none ∧ s.din.length < dinWords i) ∧
  (∀ s : State, s.runEnded = true → run s = .next ⟨s, s.dout, s.evt, s.status.fault⟩)

/-! ### The order of checks and the fault mechanism (40_sys_pcm.md R99; 60_exceptions.md R231 to R236) -/

/-- R234: while a fault is recorded, every command but `NOP`, `RDP`, `RDS`, `RSTALL` is taken from CMD and has no
other effect, whatever its `ARG` and whether or not its operands are there; a notification's entry is removed
from NTF and has no other effect; an illegal word, on CMD, on NTF or where both agents could move, is taken and does
not fault again. (The boundary counter is the model's: notes/assumptions/4.md. That an illegal notification word leaves
NTF with its whole entry is the model's choice: notes/assumptions/7.md.) -/
def Obligations.DiscardedWhileFaulted : Prop :=
  (∀ (i : Instr) (s : State), s.status.fault = true → i.port = .cmd →
    i ≠ .nop → i ≠ .rstall → (∀ p, i ≠ .rdp p) → (∀ r, i ≠ .rds r) →
    exec i s = .next { s with cmd := s.cmd.tail }) ∧
  (∀ (i : Instr) (s : State), s.status.fault = true → i.port = .ntf → exec i s = .next { s with ntf := s.ntf.tail }) ∧
  (∀ (s : State) (w : Word32) (rest : List Word32) (e : DecodeError), s.status.fault = true → s.ntf = [] →
    s.cmd = w :: rest → decode .cmd w = .error e → step s = .next { s with cmd := rest }) ∧
  (∀ (s : State) (n : NtfEntry) (rest : List NtfEntry) (e : DecodeError), s.status.fault = true → s.cmd = [] →
    s.ntf = n :: rest → decode .ntf n.word = .error e → step s = .next { s with ntf := rest }) ∧
  (∀ (s : State) (w : Word32) (ws : List Word32) (n : NtfEntry) (ns : List NtfEntry),
    s.status.fault = true → s.cmd = w :: ws → s.ntf = n :: ns →
    let b := { s with boundary := s.boundary + 1 }
    (∀ e, decode .cmd w = .error e → step s = .next { b with cmd := ws } ∨ step s = .next { b with ntf := ns }) ∧
    (∀ i e, decode .cmd w = .ok i → decode .ntf n.word = .error e →
      step s = exec i b ∨ step s = .next { b with ntf := ns }))

/-- R231, R232, R99 (3): an `ARG` outside the operation's domain faults with the code of the table, the command
recorded, DIN untouched; the read-only parameters are 4, 12 to 23 and 25. -/
def Obligations.BadArgumentFaultsBeforeOperands : Prop :=
  ∀ (s : State) (a : Arg), s.status.fault = false →
    let trap (i : Instr) (c : FaultCode) : Prop :=
      exec i s = .next { s with
        cmd := s.cmd.tail, status := { s.status with fault := true }, faultCode := c, faultCmd := encode i }
    (a.toNat = 0 ∨ 10 < a.toNat → trap (.rstu a) .badOperand) ∧
    (25 < a.toNat → trap (.wrp a) .badOperand) ∧
    (a.toNat = 4 ∨ (12 ≤ a.toNat ∧ a.toNat ≤ 23) ∨ a.toNat = 25 → trap (.wrp a) .badConfig) ∧
    (25 < a.toNat → trap (.rdp a) .badOperand) ∧
    ((22 < a.toNat ∧ a.toNat < 32) ∨ (55 < a.toNat ∧ a.toNat < 256) ∨ 511 < a.toNat → trap (.rds a) .badOperand) ∧
    (128 < a.toNat → trap (.intFir a) .badOperand) ∧
    (128 < a.toNat → trap (.intFirc a) .badOperand)

/-- R87, R99 (4), R276: a command whose `ARG` passes does not start while its operand words are not all on DIN: it
consumes nothing and changes nothing. -/
def Obligations.HoldsUntilOperandsArrive : Prop :=
  ∀ (i : Instr) (s : State), s.status.fault = false → argFault i = none → s.din.length < dinWords i →
    exec i s = .next s

/-- R233, R236: whenever executing an operation records a fault, nothing else happens: the state is the one before
it with the command word taken, some operand words consumed, and the three fault registers written; the code is
none of `noFault`, and the word is the operation's own. -/
def Obligations.FaultsArePrecise : Prop :=
  ∀ (i : Instr) (s t : State), s.status.fault = false → exec i s = .next t → t.status.fault = true →
    ∃ (k : Nat) (c : FaultCode), c ≠ .noFault ∧ (k = 0 ∨ (k = dinWords i ∧ k ≤ s.din.length)) ∧
      t = { s with
        cmd := s.cmd.tail, din := s.din.drop k, status := { s.status with fault := true }
        faultCode := c, faultCmd := encode i }

/-- R175, R176, R99 (5): `mu` outside `[0, 1)`, NaN included, faults after the operands have been consumed, with
no result. -/
def Obligations.MuOutOfRangeFaults : Prop :=
  (∀ (s : State) (ws rest : List Word64), s.status.fault = false → s.din = ws ++ rest → ws.length = 9 →
    ¬(F64.le .zero (F64.ofBits (ws.getD 8 0)) = true ∧ F64.lt (F64.ofBits (ws.getD 8 0)) .one = true) →
    exec .intFirmu s = .next { s with
      cmd := s.cmd.tail, din := rest, status := { s.status with fault := true }
      faultCode := .badOperand, faultCmd := 0x82000000 }) ∧
  (∀ (s : State) (ws rest : List Word64), s.status.fault = false → s.din = ws ++ rest → ws.length = 17 →
    ¬(F64.le .zero (F64.ofBits (ws.getD 16 0)) = true ∧ F64.lt (F64.ofBits (ws.getD 16 0)) .one = true) →
    exec .intFirmuc s = .next { s with
      cmd := s.cmd.tail, din := rest, status := { s.status with fault := true }
      faultCode := .badOperand, faultCmd := 0x83000000 })

/-! ### SYS (40_sys_pcm.md R100 to R106; 70_reset_and_hazards.md R260 to R263) -/

/-- R260: what power-on reset leaves, by the patterns of 95_test_vectors.md section 2: every parameter register at its
default (the values are those of ParameterDefaults), every state register, memory and port as listed. -/
def Obligations.ResetValues : Prop :=
  State.reset.params = Params.default ∧
  State.reset.agc.gain = .ofBits 0x40C3880000000000 ∧ State.reset.dgc.gain = .ofBits 0x402E000000000000 ∧
  State.reset.syn.spread = .ofBits 0x4000000000000000 ∧ State.reset.syn.clock = .ofBits 0 ∧
  State.reset.agc.max = .ofBits 0 ∧ State.reset.agc.idx = 0 ∧ State.reset.syn.hidx = 0 ∧
  State.reset.dcf = ⟨.ofBits 0, .ofBits 0⟩ ∧ State.reset.iqc = ⟨.ofBits 0, .ofBits 0, .ofBits 0⟩ ∧
  State.reset.fmd = ⟨.ofBits 0, .ofBits 0⟩ ∧ State.reset.rsm.pos = .ofBits 0 ∧
  State.reset.syn.coarse = .ofBits 0 ∧ State.reset.syn.fine = .ofBits 0 ∧ State.reset.syn.err = .ofBits 0 ∧
  State.reset.syn.pending = 0 ∧ State.reset.syn.acked = 0 ∧
  (∀ x ∈ State.reset.agc.ring.toList ++ State.reset.syn.hist.toList ++ State.reset.rsm.wI.toList ++
    State.reset.rsm.wQ.toList, x = .ofBits 0) ∧
  State.reset.statusWord = 0 ∧ State.reset.faultLine = false ∧
  State.reset.faultCode = .noFault ∧ State.reset.faultCmd = 0 ∧
  State.reset.cmd = [] ∧ State.reset.din = [] ∧ State.reset.dout = [] ∧ State.reset.evt = [] ∧ State.reset.ntf = []

/-- R40: the default of every parameter register, by the patterns of 95_test_vectors.md section 2. -/
def Obligations.ParameterDefaults : Prop :=
  (List.range 27).map Params.default.read =
    ([0x3EE4F8B588E368F1, 0x3EE4F8B588E368F1, 0x3FF0000000000000, 0x3FF0000000000000, 0x3FF0000000000000,
      0x3F1A36E2EB1C432D] : List Word64).map (fun w => some (.real (.ofBits w))) ++
    [some (.int32 32)] ++
    ([0x402E000000000000, 0x3FB999999999999A, 0x4041800000000000, 0x3FD3333333333333, 0x3FF0000000000000,
      0x40E0000000000000, 0x40E7700000000000, 0x40B2C00000000000, 0x3F847AE147AE147B, 0x3F9999999999999A,
      0x3F547AE147AE147B, 0x3FC0000000000000, 0x4000000000000000, 0x3FF999999999999A, 0x4003333333333333,
      0x3FF3333333333333] : List Word64).map (fun w => some (.real (.ofBits w))) ++
    [some (.int32 500), some (.int32 3000), some (.real (.ofBits 0x3FB999999999999A)), none]

/-- R100: `NOP` is the zero word and only leaves CMD, also while a fault is recorded. -/
def Obligations.NopDoesNothing : Prop :=
  encode .nop = 0x00000000 ∧ ∀ s : State, exec .nop s = .next { s with cmd := s.cmd.tail }

/-- R101, R235, R261: `RSTALL` resets every state register and memory under the current parameters, empties DIN,
keeps parameters, DOUT, EVT and NTF, whether or not a fault is recorded; and no other operation clears `FAULT`. -/
def Obligations.RstallResetsAndRecovers : Prop :=
  encode .rstall = 0x01000000 ∧
  (∀ s : State, exec .rstall s = .next { s with
    dcf := ⟨.zero, .zero⟩
    iqc := ⟨.zero, .zero, .zero⟩
    fmd := ⟨.zero, .zero⟩
    agc := ⟨s.params.agcObjective.div s.params.agcFloor, .zero, 0, Vector.replicate 256 .zero⟩
    dgc := ⟨s.params.dgcInit⟩
    rsm := ⟨.zero, Vector.replicate 8 .zero, Vector.replicate 8 .zero⟩
    syn := ⟨.zero, s.params.spreadNominal, .zero, .zero, 0, .zero, 0, 0, Vector.replicate 8 .zero⟩
    status := ⟨false, false, false, false⟩
    faultCode := .noFault
    faultCmd := 0
    cmd := s.cmd.tail
    din := [] }) ∧
  (∀ (i : Instr) (s t : State), exec i s = .next t → s.status.fault = true → t.status.fault = false → i = .rstall)

/-- R102, R262: `RSTU u` for u = 1 to 10 resets the state of unit u under the current parameters and nothing else;
units 1, 5 and 8 own no state; DIN is not emptied and unit 10 also loses its two flags; other `u` fault. -/
def Obligations.RstuResetsOneUnit : Prop :=
  ∀ (s : State) (u : Arg), encode (.rstu u) = 0x02000000 + u.zeroExtend 32 ∧
    (s.status.fault = false →
      let s' := { s with cmd := s.cmd.tail }
      (u = 1 ∨ u = 5 ∨ u = 8 → exec (.rstu u) s = .next s') ∧
      (u = 2 → exec (.rstu u) s = .next { s' with dcf := ⟨.zero, .zero⟩ }) ∧
      (u = 3 → exec (.rstu u) s = .next { s' with iqc := ⟨.zero, .zero, .zero⟩ }) ∧
      (u = 4 → exec (.rstu u) s = .next { s' with fmd := ⟨.zero, .zero⟩ }) ∧
      (u = 6 → exec (.rstu u) s = .next { s' with
        agc := ⟨s.params.agcObjective.div s.params.agcFloor, .zero, 0, Vector.replicate 256 .zero⟩ }) ∧
      (u = 7 → exec (.rstu u) s = .next { s' with dgc := ⟨s.params.dgcInit⟩ }) ∧
      (u = 9 → exec (.rstu u) s = .next { s' with
        rsm := ⟨.zero, Vector.replicate 8 .zero, Vector.replicate 8 .zero⟩ }) ∧
      (u = 10 → exec (.rstu u) s = .next { s' with
        syn := ⟨.zero, s.params.spreadNominal, .zero, .zero, 0, .zero, 0, 0, Vector.replicate 8 .zero⟩
        status := { s.status with resetPending := false, reqOutstanding := false } }) ∧
      (u = 0 ∨ 10 < u.toNat → exec (.rstu u) s = .next { s' with
        status := { s.status with fault := true }, faultCode := .badOperand, faultCmd := encode (.rstu u) }))

/-- R40, R104: which operand words are a legal value of which parameter register. -/
def Obligations.ParameterLegality : Prop :=
  ∀ (p : Params) (w : Word64),
    let v := F64.ofBits w
    let n := (w.extractLsb' 0 32).toInt
    let ok (k : Nat) : Prop := (p.write k w).isSome = true
    let ratio : Prop := v.isFinite = true ∧ F64.lt .zero v = true ∧ F64.le v .one = true
    let positive : Prop := v.isFinite = true ∧ F64.lt .zero v = true
    (ok 0 ↔ ratio) ∧ (ok 1 ↔ ratio) ∧ (ok 2 ↔ v.isFinite = true) ∧ (ok 3 ↔ v.isFinite = true) ∧
    (ok 5 ↔ positive) ∧ (ok 6 ↔ 1 ≤ n ∧ n ≤ 256) ∧ (ok 7 ↔ positive) ∧ (ok 8 ↔ positive) ∧ (ok 9 ↔ positive) ∧
    (ok 10 ↔ positive) ∧
    (ok 11 ↔ v.isFinite = true ∧ F64.le (.lit 1 256) v = true ∧ F64.le v (.lit 65536 1) = true) ∧
    (ok 24 ↔ 0 ≤ n ∧ n ≤ 1073741824)

/-- R40: which parameter register each index 0 to 25 names, as `RDP` reads it. R103, R104: a legal `WRP` of a read-write
index (0 to 3, 5 to 11, 24) consumes its operand, writes that one register with the operand's value and leaves every
other parameter; a write of `AGC_FLOOR` (5) or `AGC_WINDOW` (6) also resets AGC under the new parameters; no other state
changes. An illegal value faults with `BAD_CONFIG` after the operand is consumed and writes nothing. -/
def Obligations.WrpWritesOneParameter : Prop :=
  (∀ p : Params, (List.range 26).map p.read =
    [some (.real p.dcRatio), some (.real p.iqRatio), some (.real p.fmGain), some (.real p.amGain),
      some (.real p.agcObjective), some (.real p.agcFloor), some (.int32 p.agcWindow), some (.real p.dgcInit),
      some (.real p.dgcMin), some (.real p.dgcMax), some (.real p.dgcStep), some (.real p.rsStep),
      some (.real p.pcmScale), some (.real p.sampleRate), some (.real p.symbolRate), some (.real p.kSymbolSpread),
      some (.real p.kSymbolTiming), some (.real p.kCoarseFrequency), some (.real p.kFineFrequency),
      some (.real p.spreadNominal), some (.real p.spreadMin), some (.real p.spreadMax),
      some (.real p.coarseThreshold), some (.int32 p.reqStepHz), some (.int32 p.maxCorrectionHz),
      some (.real p.symbolStep)]) ∧
  ∀ (s : State) (k : Arg) (w : Word64) (rest : List Word64), s.status.fault = false →
    (k.toNat ≤ 3 ∨ (5 ≤ k.toNat ∧ k.toNat ≤ 11) ∨ k.toNat = 24) → s.din = w :: rest →
    (∀ p' : Params, s.params.write k.toNat w = some p' →
      exec (.wrp k) s = .next { s with
        cmd := s.cmd.tail, din := rest, params := p'
        agc := if k = 5 ∨ k = 6
          then ⟨p'.agcObjective.div p'.agcFloor, .zero, 0, Vector.replicate 256 .zero⟩ else s.agc } ∧
      p'.read k.toNat =
        (if k = 6 ∨ k = 24 then some (.int32 (w.extractLsb' 0 32)) else some (.real (F64.ofBits w))) ∧
      ∀ q, q ≠ k.toNat → p'.read q = s.params.read q) ∧
    (s.params.write k.toNat w = none →
      exec (.wrp k) s = .next { s with
        cmd := s.cmd.tail, din := rest, status := { s.status with fault := true }
        faultCode := .badConfig, faultCmd := encode (.wrp k) })

/-- R105, R106: `RDP` and `RDS` of a mapped index append one word, the register's, and change nothing else (but for
the model's count of NaN words); this also while a fault is recorded, and a read of an unmapped index is then
discarded without overwriting the recorded fault (R233). -/
def Obligations.ReadsAppendOneWord : Prop :=
  ∀ (s : State) (a : Arg),
    (a.toNat ≤ 25 → ∃ v, s.params.read a.toNat = some v ∧
      exec (.rdp a) s = .next ({ s with cmd := s.cmd.tail }.doutReg v)) ∧
    (a.toNat ≤ 22 ∨ (32 ≤ a.toNat ∧ a.toNat ≤ 55) ∨ (256 ≤ a.toNat ∧ a.toNat ≤ 511) →
      ∃ v, s.readState a.toNat = some v ∧ exec (.rds a) s = .next ({ s with cmd := s.cmd.tail }.doutReg v)) ∧
    (s.status.fault = true → 25 < a.toNat → exec (.rdp a) s = .next { s with cmd := s.cmd.tail }) ∧
    (s.status.fault = true → (22 < a.toNat ∧ a.toNat < 32) ∨ (55 < a.toNat ∧ a.toNat < 256) ∨ 511 < a.toNat →
      exec (.rds a) s = .next { s with cmd := s.cmd.tail })

/-- R30, R106, R231: what `RDS` shows of each state register, the arrays by physical slot, integers and the two words
with their upper bits zero, the fault code by its number: 1 `ILLEGAL_OP`, 2 `BAD_OPERAND`, 3 `BAD_CONFIG`, 0 none. -/
def Obligations.StateRegisterMap : Prop :=
  ∀ s : State,
    (List.range 23).map s.readState =
      [some (.real s.dcf.avgI), some (.real s.dcf.avgQ), some (.real s.iqc.pii), some (.real s.iqc.pqq),
        some (.real s.iqc.piq), some (.real s.fmd.prevI), some (.real s.fmd.prevQ), some (.real s.agc.gain),
        some (.real s.agc.max), some (.int32 (BitVec.ofNat 32 s.agc.idx)), some (.real s.dgc.gain),
        some (.real s.rsm.pos), some (.real s.syn.clock), some (.real s.syn.spread), some (.real s.syn.coarse),
        some (.real s.syn.fine), some (.int32 (BitVec.ofNat 32 s.syn.hidx.val)), some (.real s.syn.err),
        some (.int32 s.syn.pending), some (.int32 s.syn.acked), some (.word s.statusWord),
        some (.int32 (if s.faultCode = .illegalOp then 1 else if s.faultCode = .badOperand then 2
          else if s.faultCode = .badConfig then 3 else 0)), some (.word (s.faultCmd.zeroExtend 64))] ∧
    (∀ j : Fin 8, s.readState (32 + j) = some (.real s.syn.hist[j]) ∧ s.readState (40 + j) = some (.real s.rsm.wI[j]) ∧
      s.readState (48 + j) = some (.real s.rsm.wQ[j])) ∧
    (∀ j : Fin 256, s.readState (256 + j) = some (.real s.agc.ring[j])) ∧
    (∀ k, (22 < k ∧ k < 32) ∨ (55 < k ∧ k < 256) ∨ 511 < k → s.readState k = none)

/-- R33: the status word has the five flags at bits 0 to 4 and zeros above; each flag is set and cleared only by the
operations its row names (`FAULT` is set by fault entry, see FaultsArePrecise). -/
def Obligations.StatusFlagsAsTabled : Prop :=
  (∀ s : State, s.statusWord.getLsbD 0 = s.status.fault ∧ s.statusWord.getLsbD 1 = s.status.resetPending ∧
    s.statusWord.getLsbD 2 = s.status.reqOutstanding ∧ s.statusWord.getLsbD 3 = s.status.nonfinite ∧
    s.statusWord.getLsbD 4 = (s.syn.pending != 0) ∧ ∀ k, 5 ≤ k → s.statusWord.getLsbD k = false) ∧
  (∀ (i : Instr) (s t : State), exec i s = .next t →
    (s.status.fault = true → t.status.fault = false → i = .rstall) ∧
    (s.status.resetPending = false → t.status.resetPending = true → i = .synAck ∨ i = .synRate) ∧
    (s.status.resetPending = true → t.status.resetPending = false → i = .synStep ∨ i = .rstall ∨ i = .rstu 10) ∧
    (s.status.reqOutstanding = false → t.status.reqOutstanding = true → i = .synEndbuf) ∧
    (s.status.reqOutstanding = true → t.status.reqOutstanding = false →
      i = .synAck ∨ i = .synRate ∨ i = .rstall ∨ i = .rstu 10) ∧
    (s.status.nonfinite = false → t.status.nonfinite = true →
      i.unit = 2 ∨ i = .iqcStep ∨ i = .agcStep ∨ i = .rsmPush ∨ i = .rsmPushc ∨ i = .synStep) ∧
    (s.status.nonfinite = true → t.status.nonfinite = false → i = .rstall))

/-! ### PCM (40_sys_pcm.md R110 to R112; 20_memory.md R64) -/

/-- R110, R111: `PCM.LD` and `PCM.LDC` put the signed low 16 bits of each operand, as a real over `P.PCM_SCALE`, on
DOUT, I then Q. -/
def Obligations.PcmLoadResult : Prop :=
  encode .pcmLd = 0x10000000 ∧ encode .pcmLdc = 0x11000000 ∧
  (∀ (s : State) (w : Word64) (rest : List Word64), s.status.fault = false → s.din = w :: rest →
    exec .pcmLd s = .next ({ s with cmd := s.cmd.tail, din := rest }.doutReal
      ((F64.ofInt (w.extractLsb' 0 16).toInt).div s.params.pcmScale))) ∧
  (∀ (s : State) (w v : Word64) (rest : List Word64), s.status.fault = false → s.din = w :: v :: rest →
    exec .pcmLdc s = .next (({ s with cmd := s.cmd.tail, din := rest }.doutReal
      ((F64.ofInt (w.extractLsb' 0 16).toInt).div s.params.pcmScale)).doutReal
      ((F64.ofInt (v.extractLsb' 0 16).toInt).div s.params.pcmScale)))

/-- R112: `PCM.ST` puts one 16-bit sample on DOUT, upper bits zero: 0 for a NaN product, else the floor of the
product plus a half, saturated. -/
def Obligations.PcmStoreResult : Prop :=
  encode .pcmSt = 0x12000000 ∧
  ∀ (s : State) (w : Word64) (rest : List Word64), s.status.fault = false → s.din = w :: rest →
    let t := (F64.ofBits w).mul s.params.pcmScale
    let r := (t.add (.lit 1 2)).floor
    exec .pcmSt s = .next { s with
      cmd := s.cmd.tail, din := rest
      dout := s.dout ++ [(BitVec.ofInt 16
        (if t.isNaN = true then 0 else if F64.lt (.lit 32767 1) r = true then 32767
          else if F64.lt r (.neg (.lit 32768 1)) = true then -32768 else r.floorInt)).zeroExtend 64] }

/-- R112, an inference the spec marks as its own: `PCM.ST` of what `PCM.LD` gives is the original sample, for
every 16-bit sample, at the scale 32768.0. -/
def Obligations.PcmRoundTrip : Prop :=
  ∀ (p : Params) (x : BitVec 16), p.pcmScale = .lit 32768 1 → pcmStore p (pcmLoad p x.toInt) = x.toInt

/-- R64: the byte that arrives first is bits 7:0 of the DIN word and the second is bits 15:8; the sample read from
the word is theirs, whatever the host puts in bits 63:16. -/
def Obligations.PcmWireBytesLittleEndian : Prop :=
  ∀ (upper : BitVec 48) (a b : BitVec 8), (pcmWord upper a b).extractLsb' 0 8 = a ∧
    (pcmWord upper a b).extractLsb' 8 8 = b ∧ (pcmWord upper a b).extractLsb' 16 48 = upper ∧
    dinPcm16 [pcmWord upper a b] 0 = (b ++ a).toInt

/-! ### DCF and IQC (41_correction.md R120 to R130) -/

/-- R120, R121: `DCF.STEP`. -/
def Obligations.DcfStepResult : Prop :=
  ∀ (s : State) (w : Word64) (rest : List Word64), s.status.fault = false → s.din = w :: rest →
    let x := F64.ofBits w
    let a := s.dcf.avgI.add (s.params.dcRatio.mul (x.sub s.dcf.avgI))
    let s' := { s with cmd := s.cmd.tail, din := rest }
    exec .dcfStep s = .next (
      if x.isFinite = true ∧ a.isFinite = true
      then { s' with dcf := { s.dcf with avgI := a } }.doutReal (x.sub a)
      else { s' with status := { s.status with nonfinite := true } }.doutReal (x.sub s.dcf.avgI))

/-- R122: `DCF.STEPC` does on I and on Q, independently, what R120 says: neither channel's guard stops the other. -/
def Obligations.DcfStepcResult : Prop :=
  ∀ (s : State) (wi wq : Word64) (rest : List Word64), s.status.fault = false → s.din = wi :: wq :: rest →
    let i := F64.ofBits wi
    let q := F64.ofBits wq
    let a := s.dcf.avgI.add (s.params.dcRatio.mul (i.sub s.dcf.avgI))
    let b := s.dcf.avgQ.add (s.params.dcRatio.mul (q.sub s.dcf.avgQ))
    let okI := i.isFinite && a.isFinite
    let okQ := q.isFinite && b.isFinite
    let avgI := if okI = true then a else s.dcf.avgI
    let avgQ := if okQ = true then b else s.dcf.avgQ
    exec .dcfStepc s = .next (({ s with
      cmd := s.cmd.tail, din := rest, dcf := ⟨avgI, avgQ⟩
      status := { s.status with nonfinite := s.status.nonfinite || !okI || !okQ } }.doutReal
        (i.sub avgI)).doutReal (q.sub avgQ))

/-- R123: `DCF.BLOCK n` subtracts from its n samples the mean of the finite ones (0.0 for none, and where it is not
finite), the sum rounded in buffer order from 0.0; it touches no average. -/
def Obligations.DcfBlockResult : Prop :=
  ∀ (s : State) (n : Arg) (ws rest : List Word64), encode (.dcfBlock n) = 0x22000000 + n.zeroExtend 32 ∧ (
    s.status.fault = false → s.din = ws ++ rest → ws.length = n.toNat →
    let xs := ws.map F64.ofBits
    let finite := xs.filter F64.isFinite
    let quotient := if finite = [] then .zero else (finite.foldl F64.add .zero).div (.ofInt finite.length)
    let m := if quotient.isFinite = true then quotient else .zero
    exec (.dcfBlock n) s = .next ({ s with
      cmd := s.cmd.tail, din := rest
      status := { s.status with nonfinite := s.status.nonfinite || !(xs.all F64.isFinite) } }.doutReals
        (xs.map fun x : F64 => x.sub m)))

/-- R124: `DCF.BLOCKC n` on n pairs is R123 on the I sequence and, independently, on the Q sequence, results in pair
order. -/
def Obligations.DcfBlockcResult : Prop :=
  ∀ (s : State) (n : Arg) (pairs : List (Word64 × Word64)) (rest : List Word64),
    encode (.dcfBlockc n) = 0x23000000 + n.zeroExtend 32 ∧ (s.status.fault = false →
    s.din = (pairs.flatMap fun p : Word64 × Word64 => [p.1, p.2]) ++ rest → pairs.length = n.toNat →
    let mean (xs : List F64) : F64 :=
      let finite := xs.filter F64.isFinite
      let quotient := if finite = [] then .zero else (finite.foldl F64.add .zero).div (.ofInt finite.length)
      if quotient.isFinite = true then quotient else .zero
    let is := pairs.map fun p : Word64 × Word64 => F64.ofBits p.1
    let qs := pairs.map fun p : Word64 × Word64 => F64.ofBits p.2
    exec (.dcfBlockc n) s = .next ({ s with
      cmd := s.cmd.tail, din := rest
      status := { s.status with nonfinite := s.status.nonfinite || !(is.all F64.isFinite && qs.all F64.isFinite) }
      }.doutReals (pairs.flatMap fun p : Word64 × Word64 => [(F64.ofBits p.1).sub (mean is), (F64.ofBits p.2).sub (mean qs)])))

/-- R130: `IQC.STEP`, the spec's own algorithm (41_correction.md R131 leaves another open; notes/assumptions/5.md). -/
def Obligations.IqcStepResult : Prop :=
  ∀ (s : State) (wi wq : Word64) (rest : List Word64), s.status.fault = false → s.din = wi :: wq :: rest →
    let i := F64.ofBits wi
    let q := F64.ofBits wq
    let r := s.params.iqRatio
    let a := s.iqc.pii.add (r.mul ((i.mul i).sub s.iqc.pii))
    let b := s.iqc.pqq.add (r.mul ((q.mul q).sub s.iqc.pqq))
    let c := s.iqc.piq.add (r.mul ((i.mul q).sub s.iqc.piq))
    let ok := i.isFinite && q.isFinite && a.isFinite && b.isFinite && c.isFinite
    let u : Iqc := if ok = true then ⟨a, b, c⟩ else s.iqc
    let t := if F64.lt .zero u.pii = true then u.piq.div u.pii else .zero
    let v := u.pqq.sub (t.mul u.piq)
    let g₀ := if F64.lt .zero u.pii = true ∧ F64.lt .zero v = true then (u.pii.div v).sqrt else .one
    let g := if g₀.isFinite = true then g₀ else .one
    exec .iqcStep s = .next (({ s with
      cmd := s.cmd.tail, din := rest, iqc := u
      status := { s.status with nonfinite := s.status.nonfinite || !ok } }.doutReal i).doutReal
        ((q.sub (t.mul i)).mul g))

/-- R131: no other unit reads IQC state. Two states that differ only in IQC give, under every operation but
`IQC.STEP` and `RDS`, the same outcome up to IQC: the same stop, or next states that again differ at most there. -/
def Obligations.NoOtherUnitReadsIqc : Prop :=
  ∀ (i : Instr) (s : State) (u : Iqc), i ≠ .iqcStep → (∀ r, i ≠ .rds r) →
    match exec i s, exec i { s with iqc := u } with
    | .next t, .next t' => ∃ u', t' = { t with iqc := u' }
    | .fault f, .fault f' => f = f'
    | .refused r, .refused r' => r = r'
    | _, _ => False

/-! ### FMD and AMD (42_demod.md R140 to R145) -/

/-- R140, R141: `FMD.STEP`: the angle of the product with the conjugate of the previous sample, 0 where the
denominator is zero, times the gain; the sample becomes the previous one whatever its value. -/
def Obligations.FmdStepResult : Prop :=
  encode .fmdStep = 0x40000000 ∧
  ∀ (s : State) (wi wq : Word64) (rest : List Word64), s.status.fault = false → s.din = wi :: wq :: rest →
    let i := F64.ofBits wi
    let q := F64.ofBits wq
    let ip := (i.mul s.fmd.prevI).add (q.mul s.fmd.prevQ)
    let qp := (q.mul s.fmd.prevI).sub (i.mul s.fmd.prevQ)
    let angle := if F64.feq ip .zero = true then .zero else atan (qp.div ip)
    exec .fmdStep s = .next ({ s with cmd := s.cmd.tail, din := rest, fmd := ⟨i, q⟩ }.doutReal
      (angle.mul s.params.fmGain))

/-- R142: the six named properties hold of `ATAN`, whatever its open values are: `ATAN_ZERO`, `ATAN_ODD`, `ATAN_MONO`,
`ATAN_RANGE`, `ATAN_NAN`, `ATAN_ACC` (for every finite argument a finite result, within the distance to the next greater
magnitude of the true arctangent: notes/assumptions/2.md). -/
def Obligations.AtanNamedProperties : Prop :=
  atan (.fin false 0) = .fin false 0 ∧ atan (.fin true 0) = .fin true 0 ∧
  (∀ x, atan x.neg = (atan x).neg) ∧
  (∀ x y, F64.le x y = true → F64.le (atan x) (atan y) = true) ∧
  (∀ x, x ≠ .nan → F64.le (atan x).abs (.ofBits 0x3FF921FB54442D18) = true) ∧
  (∀ s, (atan (.inf s)).abs = .ofBits 0x3FF921FB54442D18) ∧
  atan .nan = .nan ∧
  (∀ (s : Bool) (m : Fin infMag), ∃ (t : Bool) (n : Fin infMag), atan (.fin s m) = .fin t n ∧
    |((value (.fin t n) : ℚ) : ℝ) - Real.arctan ((value (.fin s m) : ℚ) : ℝ)| ≤
      ((F64.units (n.val + 1) : ℝ) - (F64.units n.val : ℝ)) / 2 ^ 1074)

/-- R144: the round trip of the FM demodulator, from R141 and R142. Where the previous and the current sample are those
of a carrier of unit amplitude at the angles `φ` and `φ + θ`, each part within 2^-52, and the gain is 1.0, `FMD.STEP`
gives an angle within 1e-3 of the deviation `θ`, for every `θ` between -1.57 and 1.57. (The linear range is open at
pi/2, where a rounded sample can fall on either side of the quarter turn: R143 (b).) -/
def Obligations.FmRoundTrip : Prop :=
  let near (x : F64) (r : ℝ) : Prop := x.isFinite = true ∧ |((value x : ℚ) : ℝ) - r| ≤ 1 / 2 ^ 52
  ∀ (s : State) (wi wq : Word64) (rest : List Word64) (φ θ : ℝ), s.status.fault = false → s.din = wi :: wq :: rest →
    s.params.fmGain = .one → near s.fmd.prevI (Real.cos φ) → near s.fmd.prevQ (Real.sin φ) →
    near (F64.ofBits wi) (Real.cos (φ + θ)) → near (F64.ofBits wq) (Real.sin (φ + θ)) → |θ| ≤ 157 / 100 →
    ∃ y : F64, exec .fmdStep s = .next ({ s with
        cmd := s.cmd.tail, din := rest, fmd := ⟨F64.ofBits wi, F64.ofBits wq⟩ }.doutReal y) ∧
      y.isFinite = true ∧ |((value y : ℚ) : ℝ) - θ| ≤ 1 / 1000

/-- R145: `AMD.STEP` is stateless: its result, and nothing else. -/
def Obligations.AmdStepResult : Prop :=
  encode .amdStep = 0x50000000 ∧
  ∀ (s : State) (wi wq : Word64) (rest : List Word64), s.status.fault = false → s.din = wi :: wq :: rest →
    let i := F64.ofBits wi
    let q := F64.ofBits wq
    exec .amdStep s = .next ({ s with cmd := s.cmd.tail, din := rest }.doutReal
      ((((i.mul i).add (q.mul q)).sqrt).mul s.params.amGain))

/-! ### AGC and DGC (43_gain.md R150 to R159) -/

/-- R151, R152, R153: `AGC.STEP`, for a ring index inside the ring and a window of at least one entry: the sample
enters the window where it and its envelope are finite; the maximum is raised, or found again after the
replacement where the evicted entry equalled it, or stays; the gain applied is the gain after the update. -/
def Obligations.AgcStepResult : Prop :=
  ∀ (s : State) (wi wq : Word64) (rest : List Word64) (h : s.agc.idx < 256), s.status.fault = false →
    s.din = wi :: wq :: rest → 1 ≤ s.params.agcWindow.toNat →
    let i := F64.ofBits wi
    let q := F64.ofBits wq
    let e := (F64.fmax i.abs q.abs).add ((F64.lit 4 10).mul (F64.fmin i.abs q.abs))
    let gainFor (m : F64) := s.params.agcObjective.div (F64.fmax m s.params.agcFloor)
    let ring := s.agc.ring.set s.agc.idx e
    let idx := (s.agc.idx + 1) % s.params.agcWindow.toNat
    let m := ((ring.toList.take s.params.agcWindow.toNat).drop 1).foldl F64.fmax ring[0]
    let accepted := i.isFinite && q.isFinite && e.isFinite
    let u : Agc :=
      if accepted = false then s.agc
      else if F64.lt s.agc.max e = true then ⟨gainFor e, e, idx, ring⟩
      else if F64.feq s.agc.ring[s.agc.idx] s.agc.max = true then ⟨gainFor m, m, idx, ring⟩
      else ⟨s.agc.gain, s.agc.max, idx, ring⟩
    exec .agcStep s = .next (({ s with
      cmd := s.cmd.tail, din := rest, agc := u
      status := { s.status with nonfinite := s.status.nonfinite || !accepted } }.doutReal
        (i.mul u.gain)).doutReal (q.mul u.gain))

/-- R154 (a): the AGC invariant (index inside the window; entries finite and not negative; the maximum that of the
window; the gain objective over the larger of maximum and floor) survives `AGC.STEP`. -/
def Obligations.AgcStepKeepsWindowMaximum : Prop :=
  ∀ s t : State, s.params.Legal → AgcInv s.params s.agc → exec .agcStep s = .next t → AgcInv t.params t.agc

/-- R156: `DGC.CORRECT`. -/
def Obligations.DgcCorrectResult : Prop :=
  encode .dgcCorrect = 0x70000000 ∧
  ∀ (s : State) (w : Word64) (rest : List Word64), s.status.fault = false → s.din = w :: rest →
    exec .dgcCorrect s = .next ({ s with cmd := s.cmd.tail, din := rest }.doutReal ((F64.ofBits w).mul s.dgc.gain))

/-- R157, R158: `DGC.INC` and `DGC.DEC` step the gain and saturate at the bound; nothing else changes. At the bound
they leave the gain, and `DGC.INC` pulls a gain above the maximum down to it (legal parameters). Then what follows for
the interval of R159: `DGC.INC` from a gain at or above the minimum, and `DGC.DEC` from one at or below the maximum, end
inside both bounds; a gain inside stays inside under every operation, `SYN.STEP` and the resets among them, that leaves
the two bounds as they are; and `RSTALL`, `RSTU 7` and power-on put it inside, under the relation of R41. (A step from the
other side need not end inside, against the second sentence of R159: notes/assumptions/20.md. The defaults: 17.md.) -/
def Obligations.DgcStepsSaturate : Prop :=
  encode .dgcInc = 0x71000000 ∧ encode .dgcDec = 0x72000000 ∧
  (∀ s : State, s.status.fault = false →
    exec .dgcInc s = .next { s with
      cmd := s.cmd.tail, dgc := ⟨F64.fmin (s.dgc.gain.add s.params.dgcStep) s.params.dgcMax⟩ } ∧
    exec .dgcDec s = .next { s with
      cmd := s.cmd.tail, dgc := ⟨F64.fmax (s.dgc.gain.sub s.params.dgcStep) s.params.dgcMin⟩ }) ∧
  (∀ (s t : State), s.status.fault = false → s.params.Legal → legalPositive s.dgc.gain = true →
    (exec .dgcInc s = .next t → F64.le s.params.dgcMax s.dgc.gain = true → t.dgc.gain = s.params.dgcMax) ∧
    (exec .dgcDec s = .next t → s.dgc.gain = s.params.dgcMin → t.dgc.gain = s.params.dgcMin)) ∧
  (∀ (s t : State), s.status.fault = false → s.params.Legal → legalPositive s.dgc.gain = true →
    F64.le s.params.dgcMin s.params.dgcMax = true →
    (exec .dgcInc s = .next t → F64.le s.params.dgcMin s.dgc.gain = true → t.GainInBounds) ∧
    (exec .dgcDec s = .next t → F64.le s.dgc.gain s.params.dgcMax = true → t.GainInBounds)) ∧
  (∀ (i : Instr) (s t : State), s.params.Legal → s.params.DgcOrdered → legalPositive s.dgc.gain = true →
    s.GainInBounds → exec i s = .next t → t.params.dgcMin = s.params.dgcMin → t.params.dgcMax = s.params.dgcMax →
    t.GainInBounds) ∧
  (∀ (s t : State), s.params.DgcOrdered → (exec .rstall s = .next t → t.GainInBounds) ∧
    (s.status.fault = false → exec (.rstu 7) s = .next t → t.GainInBounds)) ∧
  State.reset.params.DgcOrdered ∧ State.reset.GainInBounds

/-! ### INT and RSM (44_interp.md R170 to R183) -/

/-- R171, R173, R174: `INT.FIR k` and `INT.FIRC k`: the dot product of row k with the window, oldest sample first,
summed in that order; stateless. -/
def Obligations.IntFirResult : Prop :=
  let fir (k : Fin 129) (a b c d e f g h : Word64) : F64 :=
    (((((((((taps k 0).mul (.ofBits a)).add ((taps k 1).mul (.ofBits b))).add ((taps k 2).mul (.ofBits c))).add
      ((taps k 3).mul (.ofBits d))).add ((taps k 4).mul (.ofBits e))).add ((taps k 5).mul (.ofBits f))).add
      ((taps k 6).mul (.ofBits g))).add ((taps k 7).mul (.ofBits h)))
  (∀ (s : State) (k : Arg) (hk : k.toNat < 129) (a b c d e f g h : Word64) (rest : List Word64),
    s.status.fault = false → s.din = a :: b :: c :: d :: e :: f :: g :: h :: rest →
    exec (.intFir k) s = .next ({ s with cmd := s.cmd.tail, din := rest }.doutReal (fir ⟨k.toNat, hk⟩ a b c d e f g h))) ∧
  (∀ (s : State) (k : Arg) (hk : k.toNat < 129) (a b c d e f g h a' b' c' d' e' f' g' h' : Word64)
    (rest : List Word64), s.status.fault = false →
    s.din = a :: a' :: b :: b' :: c :: c' :: d :: d' :: e :: e' :: f :: f' :: g :: g' :: h :: h' :: rest →
    exec (.intFirc k) s = .next (({ s with cmd := s.cmd.tail, din := rest }.doutReal
      (fir ⟨k.toNat, hk⟩ a b c d e f g h)).doutReal (fir ⟨k.toNat, hk⟩ a' b' c' d' e' f' g' h')))

/-- R172, R175, R176: `INT.FIRMU` and `INT.FIRMUC` for `mu` in `[0, 1)`: `INTERP` at row `PHASE(mu)`, on the window
of words 0 to 7, or on the even and the odd words of 0 to 15; stateless. -/
def Obligations.IntFirmuResult : Prop :=
  let row (mu : F64) : Nat := (F64.toIndex (((F64.lit 128 1).mul mu).add (.lit 1 2)).floor 0 128).toNat
  let inRange (mu : F64) : Prop := F64.le .zero mu = true ∧ F64.lt mu .one = true
  (∀ (s : State) (ws rest : List Word64), s.status.fault = false → s.din = ws ++ rest → ws.length = 9 →
    inRange (F64.ofBits (ws.getD 8 0)) →
    exec .intFirmu s = .next ({ s with cmd := s.cmd.tail, din := rest }.doutReal
      (interp taps (Vector.ofFn fun j => F64.ofBits (ws.getD j 0)) (row (F64.ofBits (ws.getD 8 0)))))) ∧
  (∀ (s : State) (ws rest : List Word64), s.status.fault = false → s.din = ws ++ rest → ws.length = 17 →
    inRange (F64.ofBits (ws.getD 16 0)) →
    exec .intFirmuc s = .next (({ s with cmd := s.cmd.tail, din := rest }.doutReal
      (interp taps (Vector.ofFn fun j => F64.ofBits (ws.getD (2 * j) 0)) (row (F64.ofBits (ws.getD 16 0))))).doutReal
      (interp taps (Vector.ofFn fun j => F64.ofBits (ws.getD (2 * j + 1) 0)) (row (F64.ofBits (ws.getD 16 0))))))

/-- R61, R172, R196 (e): no row index leaves the table: `PHASE` is at most 128, and the synchronizer's index at most
127, so that the row after it exists. -/
def Obligations.RowIndicesStayInTable : Prop :=
  (∀ mu : F64, phase mu ≤ 128) ∧ ∀ (p : Params) (clock : F64), synPhase p clock ≤ 127

/-- R181 with (a) and (b): `RSM.PUSH`, for a legal step and a position not negative, completes: the window shifts
and takes the sample (0.0 for a non-finite one, with `NONFINITE`), then m outputs, at most 256, are taken at the
positions below 1.0, and the position left is the first one that is not, less 1.0; `wQ` and all else stay. -/
def Obligations.RsmPushResult : Prop :=
  ∀ (s : State) (w : Word64) (rest : List Word64), s.status.fault = false → s.din = w :: rest →
    legalRsStep s.params.rsStep = true → F64.le .zero s.rsm.pos = true →
    let x := F64.ofBits w
    let wI := Vector.ofFn fun j : Fin 8 => if h : j.val + 1 < 8 then s.rsm.wI[j.val + 1] else
      if x.isFinite = true then x else .zero
    let pos (k : Nat) : F64 := (fun p => p.add s.params.rsStep)^[k] s.rsm.pos
    ∃ m ≤ 256, (∀ k < m, F64.lt (pos k) .one = true) ∧ F64.lt (pos m) .one = false ∧
      F64.le .zero ((pos m).sub .one) = true ∧
      exec .rsmPush s = .next ({ s with
        cmd := s.cmd.tail, din := rest, rsm := { s.rsm with pos := (pos m).sub .one, wI := wI }
        status := { s.status with nonfinite := s.status.nonfinite || !x.isFinite } }.doutReals
          ((List.range m).map fun k => interp taps wI (phase (pos k))))

/-- R182: `RSM.PUSHC` likewise on both windows, which share the position and the row, each output I then Q. -/
def Obligations.RsmPushcResult : Prop :=
  ∀ (s : State) (wi wq : Word64) (rest : List Word64), s.status.fault = false → s.din = wi :: wq :: rest →
    legalRsStep s.params.rsStep = true → F64.le .zero s.rsm.pos = true →
    let i := F64.ofBits wi
    let q := F64.ofBits wq
    let wI := Vector.ofFn fun j : Fin 8 => if h : j.val + 1 < 8 then s.rsm.wI[j.val + 1] else
      if i.isFinite = true then i else .zero
    let wQ := Vector.ofFn fun j : Fin 8 => if h : j.val + 1 < 8 then s.rsm.wQ[j.val + 1] else
      if q.isFinite = true then q else .zero
    let pos (k : Nat) : F64 := (fun p => p.add s.params.rsStep)^[k] s.rsm.pos
    ∃ m ≤ 256, (∀ k < m, F64.lt (pos k) .one = true) ∧ F64.lt (pos m) .one = false ∧
      F64.le .zero ((pos m).sub .one) = true ∧
      exec .rsmPushc s = .next ({ s with
        cmd := s.cmd.tail, din := rest, rsm := ⟨(pos m).sub .one, wI, wQ⟩
        status := { s.status with nonfinite := s.status.nonfinite || (!i.isFinite || !q.isFinite) } }.doutReals
          ((List.range m).flatMap fun k => [interp taps wI (phase (pos k)), interp taps wQ (phase (pos k))]))

/-! ### SYN (45_sync.md R190 to R207) -/

/-- R191 steps 1 to 3 (R192 to R195): a `SYN.STEP` whose clock does not exceed 1.0 takes the sample into the history,
with the tracker reset where it was pending, and gives no result. -/
def Obligations.SynStepBetweenSymbols : Prop :=
  ∀ (s : State) (w : Word64) (rest : List Word64), s.status.fault = false → s.din = w :: rest →
    let v₀ := (F64.ofBits w).mul s.dgc.gain
    let v := if v₀.isFinite = true then v₀ else .zero
    let clock := s.syn.clock.add s.params.symbolStep
    F64.lt .one clock = false →
    exec .synStep s = .next { s with
      cmd := s.cmd.tail, din := rest
      syn := { s.syn with
        clock := clock
        hist := s.syn.hist.set s.syn.hidx v
        hidx := s.syn.hidx + 1
        coarse := if s.status.resetPending = true then .zero else s.syn.coarse
        fine := if s.status.resetPending = true then .zero else s.syn.fine }
      evt := if s.status.resetPending = true then s.evt ++ [0] else s.evt
      status := { s.status with resetPending := false, nonfinite := s.status.nonfinite || !v₀.isFinite } }

/-- R191 steps 4 to 11 (R196 to R204): a `SYN.STEP` whose clock exceeds 1.0, in the formulas of the rule. -/
def Obligations.SynStepAtSymbol : Prop :=
  ∀ (s : State) (w : Word64) (rest : List Word64), s.status.fault = false → s.din = w :: rest →
    let p := s.params
    let v₀ := (F64.ofBits w).mul s.dgc.gain
    let v := if v₀.isFinite = true then v₀ else .zero
    let coarse₀ := if s.status.resetPending = true then .zero else s.syn.coarse
    let fine₀ := if s.status.resetPending = true then .zero else s.syn.fine
    let clock₀ := s.syn.clock.add p.symbolStep
    let hist := s.syn.hist.set s.syn.hidx v
    let hidx := s.syn.hidx + 1
    F64.lt .one clock₀ = true →
    let clock₁ := clock₀.sub .one
    let imu := (F64.toIndex (((F64.lit 128 1).mul (clock₁.div p.symbolStep)).add (.lit 1 2)).floor 0 127).toNat
    let win : Vector F64 8 := Vector.ofFn fun j => hist[hidx + j]
    let a := (interp taps win imu).sub fine₀
    let b := (interp taps win (imu + 1)).sub fine₀
    let sp := s.syn.spread
    let y := a.mul ((F64.lit 2 1).div sp)
    let err :=
      if F64.lt a sp.neg = true then a.add ((F64.lit 3 2).mul sp)
      else if F64.lt a .zero = true then a.add ((F64.lit 1 2).mul sp)
      else if F64.lt a sp = true then a.sub ((F64.lit 1 2).mul sp)
      else a.sub ((F64.lit 3 2).mul sp)
    let sp₁ :=
      if F64.lt a sp.neg = true then sp.sub (err.mul ((F64.lit 1 2).mul p.kSymbolSpread))
      else if F64.lt a .zero = true then sp.sub (err.mul p.kSymbolSpread)
      else if F64.lt a sp = true then sp.add (err.mul p.kSymbolSpread)
      else sp.add (err.mul ((F64.lit 1 2).mul p.kSymbolSpread))
    let low := F64.lt sp₁ p.spreadMin
    let high := F64.lt p.spreadMax sp₁
    let coarse := coarse₀.add ((fine₀.sub coarse₀).mul p.kCoarseFrequency)
    exec .synStep s = .next ({ s with
      cmd := s.cmd.tail, din := rest
      dgc :=
        if low = true then ⟨F64.fmin (s.dgc.gain.add p.dgcStep) p.dgcMax⟩
        else if high = true then ⟨F64.fmax (s.dgc.gain.sub p.dgcStep) p.dgcMin⟩ else s.dgc
      syn := { s.syn with
        hist := hist
        hidx := hidx
        clock := if F64.lt b a = true then clock₁.add (err.mul p.kSymbolTiming) else clock₁.sub (err.mul p.kSymbolTiming)
        spread := if low = true then p.spreadMin else if high = true then p.spreadMax else sp₁
        coarse := coarse
        fine := fine₀.add (err.mul p.kFineFrequency)
        err := err
        pending :=
          if s.status.reqOutstanding = true then s.syn.pending
          else if F64.lt p.coarseThreshold coarse = true then p.reqStepHz
          else if F64.lt coarse p.coarseThreshold.neg = true then -p.reqStepHz
          else s.syn.pending }
      evt := if s.status.resetPending = true then s.evt ++ [0] else s.evt
      status := { s.status with resetPending := false, nonfinite := s.status.nonfinite || !v₀.isFinite } }.doutReal y)

/-- R205: `SYN.ENDBUF`: nothing latched, nothing happens; else the total is clamped in the direction of the request,
the request is emitted where its delta has the latched sign, and the latch falls. -/
def Obligations.SynEndbufResult : Prop :=
  encode .synEndbuf = 0xA1000000 ∧
  ∀ s : State, s.status.fault = false →
    let pend := s.syn.pending.toInt
    let acked := s.syn.acked.toInt
    let limit := s.params.maxCorrectionHz.toInt
    let t₀ := acked + pend
    let t := if 0 < pend ∧ limit < t₀ then limit else if pend < 0 ∧ t₀ < -limit then -limit else t₀
    let d := t - acked
    (s.syn.pending = 0 → exec .synEndbuf s = .next { s with cmd := s.cmd.tail }) ∧
    (s.syn.pending ≠ 0 → 0 < d * pend → exec .synEndbuf s = .next { s with
      cmd := s.cmd.tail, syn := { s.syn with pending := 0 }
      evt := s.evt ++ [(1#32 ++ BitVec.ofInt 32 d : Word64)]
      status := { s.status with reqOutstanding := true } }) ∧
    (s.syn.pending ≠ 0 → ¬0 < d * pend → exec .synEndbuf s = .next { s with
      cmd := s.cmd.tail, syn := { s.syn with pending := 0 } })

/-- R205, R98 (d): whatever total the tuner reported, an emitted request is not zero, has the sign of the latch, and
is at most the latched step; so its int32 payload is the delta itself. -/
def Obligations.RequestsAreBoundedByTheStep : Prop :=
  ∀ (p : Params) (u : Syn), 0 < requestDelta p u * u.pending.toInt →
    0 < |requestDelta p u| ∧ |requestDelta p u| ≤ |u.pending.toInt| ∧
      (0 < requestDelta p u ↔ 0 < u.pending.toInt) ∧
      (BitVec.ofInt 32 (requestDelta p u)).toInt = requestDelta p u

/-- R203: while a request is outstanding no operation but the notifications, `SYN.ENDBUF` and the resets changes the
latch. -/
def Obligations.NothingLatchedWhileOutstanding : Prop :=
  ∀ (i : Instr) (s t : State), s.status.reqOutstanding = true → exec i s = .next t →
    t.syn.pending = s.syn.pending ∨ (t.syn.pending = 0 ∧
      (i = .synEndbuf ∨ i = .synAck ∨ i = .synRate ∨ i = .rstall ∨ i = .rstu 10))

/-- R93, R194, R245: the events an operation appends: `SYN.STEP` one `ZERO_CORRECTION` where the tracker reset was
pending (and it no longer is), `SYN.ENDBUF` at most one `CORRECTION_REQUEST`, every other operation none. -/
def Obligations.EventsOnlyFromTheSynchronizer : Prop :=
  ∀ (i : Instr) (s t : State), s.status.fault = false → exec i s = .next t →
    (i = .synStep → s.din ≠ [] → t.status.resetPending = false ∧
      t.evt = if s.status.resetPending = true then s.evt ++ [0] else s.evt) ∧
    (i = .synEndbuf → t.evt = s.evt ∨ ∃ d : BitVec 32, t.evt = s.evt ++ [(1#32 ++ d : Word64)]) ∧
    (i ≠ .synStep → i ≠ .synEndbuf → t.evt = s.evt)

/-! ### Notifications (60_exceptions.md R241, R242) -/

/-- R241, R242: `SYN.ACK` takes the tuner's total from bits 31:0 of its operand; both notifications set
`RESET_PENDING`, clear `REQ_OUTSTANDING` and drop the latch; `SYN.RATE` keeps the total; nothing else changes. -/
def Obligations.NotificationResults : Prop :=
  encode .synAck = 0xA8000000 ∧ encode .synRate = 0xA9000000 ∧
  ∀ (s : State) (e : NtfEntry) (rest : List NtfEntry), s.status.fault = false → s.ntf = e :: rest →
    exec .synAck s = .next { s with
      ntf := rest, syn := { s.syn with acked := e.operand.extractLsb' 0 32, pending := 0 }
      status := { s.status with resetPending := true, reqOutstanding := false } } ∧
    exec .synRate s = .next { s with
      ntf := rest, syn := { s.syn with pending := 0 }
      status := { s.status with resetPending := true, reqOutstanding := false } }

/-! ### Frames over all operations (10_state.md R30, R40; 20_memory.md R70) -/

/-- R30, R33, R40: every register and memory is written only by the operations of its unit, except where the last column
of R30 says otherwise; parameters only by `WRP`; `S.fault_code` and `S.fault_cmd` only where a fault is entered; the
status register by fault entry and by the operations of R33 that have a flag. (Outcomes of every kind: discarded, held,
faulted or executed. `RSTALL`, which writes all but the parameters, is RstallResetsAndRecovers.) -/
def Obligations.StateIsWrittenOnlyByItsUnit : Prop :=
  ∀ (i : Instr) (s t : State), exec i s = .next t → i ≠ .rstall →
    (t.params = s.params ∨ ∃ k, i = .wrp k) ∧
    (t.dcf = s.dcf ∨ i = .dcfStep ∨ i = .dcfStepc ∨ i = .rstu 2) ∧
    (t.dcf.avgQ = s.dcf.avgQ ∨ i = .dcfStepc ∨ i = .rstu 2) ∧
    (t.iqc = s.iqc ∨ i = .iqcStep ∨ i = .rstu 3) ∧
    (t.fmd = s.fmd ∨ i = .fmdStep ∨ i = .rstu 4) ∧
    (t.agc = s.agc ∨ i = .agcStep ∨ i = .rstu 6 ∨ i = .wrp 5 ∨ i = .wrp 6) ∧
    (t.dgc = s.dgc ∨ i = .dgcInc ∨ i = .dgcDec ∨ i = .synStep ∨ i = .rstu 7) ∧
    (t.rsm = s.rsm ∨ i = .rsmPush ∨ i = .rsmPushc ∨ i = .rstu 9) ∧
    (t.rsm.wQ = s.rsm.wQ ∨ i = .rsmPushc ∨ i = .rstu 9) ∧
    (t.syn = s.syn ∨ i = .synStep ∨ i = .synEndbuf ∨ i = .synAck ∨ i = .synRate ∨ i = .rstu 10) ∧
    (t.syn.acked = s.syn.acked ∨ i = .synAck ∨ i = .rstu 10) ∧
    ((t.faultCode = s.faultCode ∧ t.faultCmd = s.faultCmd) ∨ (s.status.fault = false ∧ t.status.fault = true)) ∧
    (t.status = s.status ∨ (s.status.fault = false ∧ t.status = { s.status with fault := true }) ∨
      i.unit = 2 ∨ i = .iqcStep ∨ i = .agcStep ∨ i = .rsmPush ∨ i = .rsmPushc ∨
      i = .synStep ∨ i = .synEndbuf ∨ i = .synAck ∨ i = .synRate ∨ i = .rstu 10)

/-- R50, R70, R101: what any operation does to the queues: CMD and NTF lose at most their head, DIN a prefix (all of
it under `RSTALL`), DOUT and EVT only grow. -/
def Obligations.QueuesMoveInOrder : Prop :=
  ∀ (i : Instr) (s t : State), exec i s = .next t →
    (t.cmd = s.cmd ∨ t.cmd = s.cmd.tail) ∧ (t.ntf = s.ntf ∨ t.ntf = s.ntf.tail) ∧
    (∃ k, t.din = s.din.drop k ∧ (i ≠ .rstall → k = 0 ∨ k = dinWords i)) ∧ (i = .rstall → t.din = []) ∧
    s.dout <+: t.dout ∧ s.evt <+: t.evt ∧
    (i.port = .cmd → t.ntf = s.ntf) ∧ (i.port = .ntf → t.cmd = s.cmd ∧ t.din = s.din ∧ t.dout = s.dout)

/-! ### Invariants and safety (10_state.md R32; 43_gain.md R154, R159; 44_interp.md R181) -/

/-- R32, R159 (its first sentence; the second: notes/assumptions/20.md): the invariants hold after power-on reset. -/
def Obligations.ResetMeetsTheInvariants : Prop := Inv State.reset

/-- R32, R154, R159 (its first sentence; the second: notes/assumptions/20.md), R181 (b): every step from any state that
meets the invariants leads to one that meets them. -/
def Obligations.StepKeepsTheInvariants : Prop := ∀ s t : State, Inv s → step s = .next t → Inv t

/-- R181 (a), R234, R239: from every state that meets the invariants the block makes a step: no condition stops it. The
model has one stop, Fault.resamplerLoopUnbounded (notes/assumptions/11.md), and no such state meets it. So the runs of
the model end, as it reads the end of a run, which is the model's choice (notes/assumptions/19.md): from every such state
the run of the block ends, after at most as many steps as there are words on CMD and entries on NTF, in a state where CMD
is empty or the command agent holds, notifications still queued being left on NTF, and that state meets the invariants;
and so does the run of every program, where the commands run as far as they can after each line. -/
def Obligations.InvariantStatesNeverStop : Prop :=
  (∀ s : State, Inv s → ∃ t, step s = .next t) ∧
  (∀ s : State, Inv s → ∃ t, Inv t ∧ t.runEnded = true ∧ run s = .next ⟨t, t.dout, t.evt, t.status.fault⟩ ∧
    ∃ k ≤ s.cmd.length + s.ntf.length, steps k s = .next t) ∧
  (∀ (ls : List Line) (s : State), Inv s →
    ∃ t, Inv t ∧ t.runEnded = true ∧ runProgram ls s = .next ⟨t, t.dout, t.evt, t.status.fault⟩)

/-! ### Arithmetic (00_scope.md R10 to R12) -/

/-- R10: every arithmetic operation on finite reals is the exact result rounded once, to the nearest magnitude, the even
one of two (`RoundsTo`: infinite where that magnitude is beyond the finite ones). First the rounding itself: of all
magnitude codes, the exponent unbounded, `roundMag num den` is one whose exact value is nearest to `num / den` units.
Then sum, difference, product, quotient and root, with the zeros and the operands that have no real result, decimal
literals and `real(n)`. Then the same on infinities and NaN, as IEEE 754 has them; and, on patterns, `abs`, which clears
the sign bit, and negation, which inverts it; and `fmax` and `fmin`. -/
def Obligations.RoundingIsNearestTiesToEven : Prop :=
  (∀ num den c : Nat, 0 < den →
    |(F64.units (F64.roundMag num den) * den : Int) - num| ≤ |(F64.units c * den : Int) - num| ∧
    (|(F64.units (F64.roundMag num den) * den : Int) - num| = |(F64.units c * den : Int) - num| →
      c ≠ F64.roundMag num den → F64.roundMag num den % 2 = 0)) ∧
  (∀ (s t : Bool) (m n : Fin infMag),
    let a := F64.fin s m
    let b := F64.fin t n
    let x : ℝ := ((value a : ℚ) : ℝ)
    let y : ℝ := ((value b : ℚ) : ℝ)
    (0 < x + y → RoundsTo false (x + y) (a.add b)) ∧ (x + y < 0 → RoundsTo true (-(x + y)) (a.add b)) ∧
    (x + y = 0 → a.add b = .fin (s && t) 0) ∧
    (0 < x - y → RoundsTo false (x - y) (a.sub b)) ∧ (x - y < 0 → RoundsTo true (y - x) (a.sub b)) ∧
    (x - y = 0 → a.sub b = .fin (s && !t) 0) ∧
    RoundsTo (s != t) |x * y| (a.mul b) ∧
    (y ≠ 0 → RoundsTo (s != t) |x / y| (a.div b)) ∧
    (y = 0 → x ≠ 0 → a.div b = .inf (s != t)) ∧ (y = 0 → x = 0 → a.div b = .nan) ∧
    (0 < x → RoundsTo false (√x) a.sqrt) ∧ (x < 0 → a.sqrt = .nan) ∧ (x = 0 → a.sqrt = a)) ∧
  (∀ num den : Nat, 0 < den → RoundsTo false ((num : ℝ) / den) (.lit num den)) ∧
  (∀ n : Int, RoundsTo (decide (n < 0)) |(n : ℝ)| (.ofInt n)) ∧
  (∀ x : F64, x.add .nan = .nan ∧ F64.nan.add x = .nan ∧ x.sub .nan = .nan ∧ F64.nan.sub x = .nan ∧
    x.mul .nan = .nan ∧ F64.nan.mul x = .nan ∧ x.div .nan = .nan ∧ F64.nan.div x = .nan ∧ F64.nan.sqrt = .nan) ∧
  (∀ s t : Bool,
    (F64.inf s).add (.inf t) = (if s = t then .inf s else .nan) ∧
    (F64.inf s).sub (.inf t) = (if s = t then .nan else .inf s) ∧
    (F64.inf s).mul (.inf t) = .inf (s != t) ∧ (F64.inf s).div (.inf t) = .nan ∧
    (F64.inf s).sqrt = (if s = true then .nan else .inf s)) ∧
  (∀ (s t : Bool) (m : Fin infMag),
    (F64.inf s).add (.fin t m) = .inf s ∧ (F64.fin t m).add (.inf s) = .inf s ∧
    (F64.inf s).sub (.fin t m) = .inf s ∧ (F64.fin t m).sub (.inf s) = .inf !s ∧
    (m.val = 0 → (F64.inf s).mul (.fin t m) = .nan ∧ (F64.fin t m).mul (.inf s) = .nan) ∧
    (m.val ≠ 0 → (F64.inf s).mul (.fin t m) = .inf (s != t) ∧ (F64.fin t m).mul (.inf s) = .inf (s != t)) ∧
    (F64.inf s).div (.fin t m) = .inf (s != t) ∧ (F64.fin t m).div (.inf s) = .fin (s != t) 0) ∧
  (∀ w : Word64, (F64.ofBits w).abs = .ofBits (w &&& 0x7FFFFFFFFFFFFFFF) ∧
    (F64.ofBits w).neg = .ofBits (w ^^^ 0x8000000000000000)) ∧
  (∀ a b : F64, (F64.lt b a = true → F64.fmax a b = a) ∧ (F64.lt b a = false → F64.fmax a b = b) ∧
    (F64.lt a b = true → F64.fmin a b = a) ∧ (F64.lt a b = false → F64.fmin a b = b))

/-- R9, R10, R106: what a real leaves on DOUT: one word, whose reading is that real; for every real but a NaN it is the
only such word and the model's count of NaN words stays. An int32 fills bits 31:0 and leaves zeros above. -/
def Obligations.ResultWordsReadBack : Prop :=
  (∀ (s : State) (v : F64), ∃ w n, s.doutReal v = { s with dout := s.dout ++ [w], nanCount := n } ∧ F64.ofBits w = v ∧
    (v ≠ .nan → n = s.nanCount ∧ ∀ w', F64.ofBits w' = v → w' = w)) ∧
  (∀ (s : State) (v : F64), s.doutReg (.real v) = s.doutReal v) ∧
  (∀ (s : State) (v : BitVec 32), ∃ w : Word64, s.doutReg (.int32 v) = { s with dout := s.dout ++ [w] } ∧
    w.extractLsb' 0 32 = v ∧ w.extractLsb' 32 32 = 0) ∧
  (∀ (s : State) (w : Word64), s.doutReg (.word w) = { s with dout := s.dout ++ [w] })

/-- R11: on finite reals the comparisons are those of the exact values; every finite real lies strictly between the two
infinities, each of which is equal to itself alone; all three are false with a NaN. `isFinite` and `isNaN` tell the three
kinds apart. -/
def Obligations.ComparisonsAreExact : Prop :=
  (∀ (s t : Bool) (m n : Fin infMag),
    (F64.lt (.fin s m) (.fin t n) = true ↔ F64.toUnits (.fin s m) < F64.toUnits (.fin t n)) ∧
    (F64.le (.fin s m) (.fin t n) = true ↔ F64.toUnits (.fin s m) ≤ F64.toUnits (.fin t n)) ∧
    (F64.feq (.fin s m) (.fin t n) = true ↔ F64.toUnits (.fin s m) = F64.toUnits (.fin t n))) ∧
  (∀ (s t : Bool) (m : Fin infMag),
    F64.lt (.fin s m) (.inf t) = !t ∧ F64.le (.fin s m) (.inf t) = !t ∧ F64.feq (.fin s m) (.inf t) = false ∧
    F64.lt (.inf t) (.fin s m) = t ∧ F64.le (.inf t) (.fin s m) = t ∧ F64.feq (.inf t) (.fin s m) = false ∧
    F64.lt (.inf s) (.inf t) = (s && !t) ∧ F64.le (.inf s) (.inf t) = (s || !t) ∧
    F64.feq (.inf s) (.inf t) = (s == t)) ∧
  (∀ x : F64, F64.lt x .nan = false ∧ F64.lt .nan x = false ∧ F64.le x .nan = false ∧ F64.le .nan x = false ∧
    F64.feq x .nan = false ∧ F64.feq .nan x = false) ∧
  (∀ x : F64, (x.isNaN = true ↔ x = .nan) ∧ (x.isFinite = true ↔ x ≠ .nan ∧ ∀ s, x ≠ .inf s))

/-- R12: `toIndex(a, lo, hi)` lies in `[lo, hi]` for every real `a`: `lo` for NaN, for `a <= lo` and for -Inf, `hi` for
`a >= hi` and for +Inf, and between them the floor of the exact value. `floor(a)` of a finite real is a finite real whose
exact value is the largest integer not above that of `a`. (That NaN and the infinities are their own floor, and that the
floor of a zero keeps its sign, is the model's reading: notes/assumptions/15.md.) -/
def Obligations.ToIndexSaturates : Prop :=
  (∀ (s : Bool) (m : Fin infMag), let a := F64.fin s m
    a.floor.isFinite = true ∧ value a.floor = (⌊value a⌋ : ℤ) ∧ (m.val = 0 → a.floor = a)) ∧
  F64.nan.floor = .nan ∧ (∀ s, (F64.inf s).floor = .inf s) ∧
  ∀ (a : F64) (lo hi : Int), lo ≤ hi → |lo| < 2 ^ 53 → |hi| < 2 ^ 53 →
    lo ≤ F64.toIndex a lo hi ∧ F64.toIndex a lo hi ≤ hi ∧
    (a = .nan → F64.toIndex a lo hi = lo) ∧
    (a = .inf true → F64.toIndex a lo hi = lo) ∧ (a = .inf false → F64.toIndex a lo hi = hi) ∧
    (∀ (s : Bool) (m : Fin infMag), a = .fin s m →
      (a.toUnits ≤ lo * 2 ^ 1074 → F64.toIndex a lo hi = lo) ∧
      (hi * 2 ^ 1074 ≤ a.toUnits → F64.toIndex a lo hi = hi) ∧
      (lo * 2 ^ 1074 < a.toUnits → a.toUnits < hi * 2 ^ 1074 → F64.toIndex a lo hi = a.toUnits / 2 ^ 1074))
end

