-- ==== Sys2Proof/Laws/Arith.lean ====
section
/-! SUPPORT. What the parts of binary64 arithmetic are (spec/00_scope.md R10): the values of magnitude codes, the parts of
a rounding, the integer square root, and the error of one operation, which is half a unit in the last place. -/

namespace Sys2Proof.Machine

open Sys2Proof

/-! ### Magnitude codes -/

theorem units_strictMono : StrictMono F64.units :=
  strictMono_nat_of_lt_succ fun m => by rw [units_succ]; exact Nat.lt_add_of_pos_right (Nat.two_pow_pos _)

/-- A code of exponent `e` and significand `n`, the significand carrying into the exponent where it is full. -/
theorem units_code {e n : Nat} (hn : n ≤ 2 ^ 53) (h : e = 0 ∨ 2 ^ 52 ≤ n) : F64.units (e * 2 ^ 52 + n) = n * 2 ^ e := by
  unfold F64.units
  rcases Nat.lt_or_ge n (2 ^ 52) with h1 | h1
  · have he : e = 0 := by omega
    subst he
    rw [if_pos (by omega)]; omega
  · rcases Nat.lt_or_ge n (2 ^ 53) with h2 | h2
    · rw [show (e * 2 ^ 52 + n) / 2 ^ 52 = e + 1 by omega, show (e * 2 ^ 52 + n) % 2 ^ 52 = n - 2 ^ 52 by omega,
        if_neg (by omega), show 2 ^ 52 + (n - 2 ^ 52) = n by omega, Nat.add_sub_cancel]
    · have hn' : n = 2 ^ 53 := by omega
      subst hn'
      rw [show (e * 2 ^ 52 + 2 ^ 53) / 2 ^ 52 = e + 1 + 1 by omega, show (e * 2 ^ 52 + 2 ^ 53) % 2 ^ 52 = 0 by omega,
        if_neg (by omega), Nat.add_sub_cancel, pow_succ 2 e]
      omega

/-- Every code's value is a multiple of 2^e, or below all the codes that have the exponent `e`. -/
theorem units_dvd_or_lt (e c : Nat) : 2 ^ e ∣ F64.units c ∨ F64.units c < 2 ^ 52 * 2 ^ e := by
  rcases Nat.lt_or_ge (c / 2 ^ 52 - 1) e with h | h
  · right
    have h1 := units_le c
    have h2 : 2 ^ (c / 2 ^ 52 - 1 + 1) ≤ 2 ^ e := Nat.pow_le_pow_right (by norm_num) h
    have h3 : F64.units c < 2 ^ 53 * 2 ^ (c / 2 ^ 52 - 1) := by
      unfold F64.units
      split
      · next h0 => rw [h0]; simp; omega
      · exact Nat.mul_lt_mul_of_pos_right (by omega) (Nat.two_pow_pos _)
    rw [pow_succ] at h2
    omega
  · left
    unfold F64.units
    split
    · next h0 =>
      have : e = 0 := by omega
      simp [this]
    · exact Dvd.dvd.mul_left (pow_dvd_pow 2 h) _

/-! ### Rounding -/

/-- The parts of a rounding: quotient `n`, remainder `r` by the spacing `d = den * 2^e` of the codes around, and
whether it goes up. -/
theorem roundMag_parts {num den : Nat} (hd : 0 < den) : ∃ e n r up : Nat,
    num = n * (den * 2 ^ e) + r ∧ r < den * 2 ^ e ∧ n < 2 ^ 53 ∧ (e = 0 ∨ 2 ^ 52 ≤ n) ∧
    F64.roundMag num den = e * 2 ^ 52 + (n + up) ∧
    (2 * r < den * 2 ^ e → up = 0) ∧ (den * 2 ^ e < 2 * r → up = 1) ∧ (2 * r = den * 2 ^ e → up = n % 2) := by
  refine ⟨Nat.log2 (num / den) - 52, num / (den * 2 ^ (Nat.log2 (num / den) - 52)),
    num % (den * 2 ^ (Nat.log2 (num / den) - 52)), _, (Nat.div_add_mod' _ _).symm,
    Nat.mod_lt _ (Nat.mul_pos hd (Nat.two_pow_pos _)), ?_, ?_, rfl, ?_, ?_, ?_⟩
  · rw [← Nat.div_div_eq_div_mul, Nat.div_lt_iff_lt_mul (Nat.two_pow_pos _), ← pow_add]
    have h1 := Nat.lt_log2_self (n := num / den)
    exact h1.trans_le (Nat.pow_le_pow_right (by norm_num) (by omega))
  · rcases Nat.lt_or_ge (Nat.log2 (num / den)) 52 with h | h
    · left; omega
    · right
      rw [← Nat.div_div_eq_div_mul, Nat.le_div_iff_mul_le (Nat.two_pow_pos _), ← pow_add]
      refine le_trans (Nat.pow_le_pow_right (by norm_num) (by omega)) (Nat.log2_self_le ?_)
      rintro h0
      rw [h0] at h
      exact absurd h (by decide)
  · intro h
    rw [if_neg (by omega), if_neg (by omega)]
  · intro h
    rw [if_pos h]
  · intro h
    rw [if_neg (by omega), if_pos h]


/-! ### Integer square root -/

theorem isqrt_spec (fuel n : Nat) (h : n < 4 ^ fuel) :
    F64.isqrt fuel n * F64.isqrt fuel n ≤ n ∧ n < (F64.isqrt fuel n + 1) * (F64.isqrt fuel n + 1) := by
  induction fuel generalizing n with
  | zero => simp [F64.isqrt]; omega
  | succ k ih =>
    have h4 : n / 4 < 4 ^ k := by rw [pow_succ] at h; omega
    obtain ⟨h1, h2⟩ := ih (n / 4) h4
    rw [F64.isqrt]
    generalize F64.isqrt k (n / 4) = r at *
    split
    · next hc => exact ⟨hc, by nlinarith [Nat.div_add_mod n 4, Nat.mod_lt n (show 0 < 4 by norm_num)]⟩
    · next hc =>
      refine ⟨?_, by omega⟩
      have : 4 * (n / 4) ≤ n := by omega
      nlinarith

/-- The scaled root of a float's units: `u * 2^1074 = h * 4^t` exactly, with 112 or 113 bits left in `h`. -/
theorem sqrt_scale {m : Nat} (h0 : 0 < m) : ∃ t h : Nat, t = (Nat.log2 (F64.units m) + 1074 - 111) / 2 ∧
    h = F64.units m * 2 ^ 1074 / 2 ^ (2 * t) ∧ F64.units m * 2 ^ 1074 = h * 2 ^ (2 * t) ∧
    2 ^ 111 ≤ h ∧ h < 4 ^ 57 := by
  have hu := units_pos h0
  set u := F64.units m with hu'
  set L := Nat.log2 u with hL
  have hlo : 2 ^ L ≤ u := Nat.log2_self_le hu.ne'
  have hhi : u < 2 ^ (L + 1) := Nat.lt_log2_self
  have hdvd : 2 ^ (L - 52) ∣ u := by
    rcases units_dvd_or_lt (L - 52) m with h | h
    · exact h
    · rw [← hu', ← pow_add] at h
      rcases Nat.lt_or_ge L 52 with h5 | h5
      · rw [show L - 52 = 0 by omega]; simp
      · rw [show 52 + (L - 52) = L by omega] at h; omega
  refine ⟨_, _, rfl, rfl, ?_, ?_, ?_⟩
  · symm
    refine Nat.div_mul_cancel ?_
    refine dvd_trans (pow_dvd_pow 2 (show 2 * ((L + 1074 - 111) / 2) ≤ L - 52 + 1074 by omega)) ?_
    rw [pow_add]
    exact Nat.mul_dvd_mul_right hdvd _
  · rw [Nat.le_div_iff_mul_le (Nat.two_pow_pos _), ← pow_add]
    refine le_trans (Nat.pow_le_pow_right (by norm_num) (show 111 + 2 * ((L + 1074 - 111) / 2) ≤ L + 1074 by omega)) ?_
    rw [pow_add]
    exact Nat.mul_le_mul_right _ hlo
  · rw [Nat.div_lt_iff_lt_mul (Nat.two_pow_pos _), show 4 ^ 57 = 2 ^ 114 by norm_num, ← pow_add]
    refine lt_of_lt_of_le (Nat.mul_lt_mul_of_pos_right hhi (Nat.two_pow_pos 1074)) ?_
    rw [← pow_add]
    exact Nat.pow_le_pow_right (by norm_num) (by omega)

/-! ### The error of one rounding -/

/-- A rounding of less than 2^2000 units is finite, and off by at most half a unit in the last place. -/
theorem roundUnits_error (neg : Bool) {num den : Nat} (hd : 0 < den) (hlt : num < 2 ^ 2000 * den) :
    ∃ mag : Fin infMag, F64.roundUnits neg num den = .fin neg mag ∧
      |(F64.units mag : ℝ) - num / den| ≤ num / den / 2 ^ 53 + 1 / 2 := by
  obtain ⟨e, n, r, up, hnum, hr, hn, hen, hc, hu0, hu1, hu2⟩ := roundMag_parts (num := num) hd
  have hup : up ≤ 1 := by
    rcases lt_trichotomy (2 * r) (den * 2 ^ e) with h | h | h
    · rw [hu0 h]; omega
    · rw [hu2 h]; omega
    · rw [hu1 h]
  have hU : F64.units (F64.roundMag num den) = (n + up) * 2 ^ e := by
    rw [hc]; exact units_code (by omega) (by omega)
  have hdr : (0 : ℝ) < den := by exact_mod_cast hd
  have hE : (0 : ℝ) < 2 ^ e := by positivity
  have hq : (num : ℝ) / den = n * 2 ^ e + r / den := by
    rw [hnum]; push_cast; field_simp
  have hrd : (r : ℝ) / den < 2 ^ e := by
    rw [div_lt_iff₀ hdr, mul_comm]; exact_mod_cast hr
  have hr0 : (0 : ℝ) ≤ r / den := by positivity
  have herr : |(F64.units (F64.roundMag num den) : ℝ) - num / den| ≤ 2 ^ e / 2 := by
    rw [hU, hq]
    push_cast
    rcases (by omega : up = 0 ∨ up = 1) with hu | hu <;> subst hu
    · have : (r : ℝ) / den ≤ 2 ^ e / 2 := by
        rw [div_le_iff₀ hdr]
        have : 2 * r ≤ den * 2 ^ e := by
          by_contra h; exact absurd (hu1 (by omega)) (by norm_num)
        have : 2 * (r : ℝ) ≤ den * 2 ^ e := by exact_mod_cast this
        linarith
      rw [abs_le]; constructor <;> simp <;> linarith
    · have : 2 ^ e / 2 ≤ (r : ℝ) / den := by
        rw [le_div_iff₀ hdr]
        have : den * 2 ^ e ≤ 2 * r := by
          by_contra h; exact absurd (hu0 (by omega)) (by norm_num)
        have : (den : ℝ) * 2 ^ e ≤ 2 * r := by exact_mod_cast this
        linarith
      rw [abs_le]; constructor <;> simp <;> linarith
  have hstep : (2 : ℝ) ^ e / 2 ≤ num / den / 2 ^ 53 + 1 / 2 := by
    rcases hen with h | h
    · have : (0 : ℝ) ≤ num / den / 2 ^ 53 := by positivity
      subst h; simpa using this
    · have h52 : (2 : ℝ) ^ 52 * 2 ^ e ≤ n * 2 ^ e := mul_le_mul_of_nonneg_right (by exact_mod_cast h) hE.le
      rw [show (2 : ℝ) ^ e / 2 = 2 ^ 52 * 2 ^ e / 2 ^ 53 by ring]
      have : (2 : ℝ) ^ 52 * 2 ^ e / 2 ^ 53 ≤ num / den / 2 ^ 53 :=
        div_le_div_of_nonneg_right (by rw [hq]; linarith) (by positivity)
      linarith
  have hfin : F64.roundMag num den < infMag := by
    by_contra hge
    have h1 : F64.units infMag ≤ F64.units (F64.roundMag num den) := units_mono (not_lt.1 hge)
    rw [hU, show F64.units infMag = 2 ^ 2098 by decide +kernel] at h1
    have h2 : n * 2 ^ e * den ≤ num := by rw [hnum]; linarith
    have h3 : n * 2 ^ e < 2 ^ 2000 := Nat.lt_of_mul_lt_mul_right (h2.trans_lt hlt)
    have h4 : (n + up) * 2 ^ e ≤ 2 * (n * 2 ^ e) + 1 := by
      rcases hen with h | h
      · subst h; omega
      · rw [← mul_assoc]
        exact (Nat.mul_le_mul_right _ (by omega : n + up ≤ 2 * n)).trans (Nat.le_succ _)
    have h5 : 2 * 2 ^ 2000 + 1 < 2 ^ 2098 := by decide +kernel
    omega
  refine ⟨⟨F64.roundMag num den, hfin⟩, ?_, herr.trans hstep⟩
  unfold F64.roundUnits
  rw [F64.ofMag, dif_pos hfin]


/-- The size of a finite real. -/
theorem abs_value (neg : Bool) (mag : Fin infMag) : |((value (.fin neg mag) : ℚ) : ℝ)| = (F64.units mag : ℝ) / 2 ^ 1074 := by
  have : (0 : ℝ) ≤ (F64.units mag : ℝ) / 2 ^ 1074 := by positivity
  rw [value_fin]
  cases neg <;> simp [abs_of_nonneg this]

/-- A rounding, off by at most half a unit in the last place of the exact value `v`. -/
theorem roundUnits_near (neg : Bool) {num den : Nat} (hd : 0 < den) {v : ℝ}
    (hv : v = (if neg then -1 else 1) * ((num : ℝ) / den / 2 ^ 1074)) (hlt : |v| < 2 ^ 900) :
    (F64.roundUnits neg num den).isFinite = true ∧
      |((value (F64.roundUnits neg num den) : ℚ) : ℝ) - v| ≤ |v| / 2 ^ 53 + 1 / 2 ^ 1075 := by
  have hp : (0 : ℝ) < 2 ^ 1074 := by positivity
  have hd' : (0 : ℝ) < den := by exact_mod_cast hd
  have hq : (0 : ℝ) ≤ (num : ℝ) / den / 2 ^ 1074 := by positivity
  have hav : |v| = (num : ℝ) / den / 2 ^ 1074 := by
    rw [hv, abs_mul, abs_of_nonneg hq]; cases neg <;> simp
  have hnum : num < 2 ^ 2000 * den := by
    rw [hav, div_lt_iff₀ hp, div_lt_iff₀ hd', ← pow_add] at hlt
    have h : (num : ℝ) < 2 ^ 2000 * den :=
      hlt.trans_le (mul_le_mul_of_nonneg_right (pow_le_pow_right₀ (by norm_num) (by norm_num)) hd'.le)
    exact_mod_cast h
  obtain ⟨mag, he, herr⟩ := roundUnits_error neg hd hnum
  rw [he]
  refine ⟨rfl, ?_⟩
  have e : |((value (.fin neg mag) : ℚ) : ℝ) - v| = |(F64.units mag : ℝ) - num / den| / 2 ^ 1074 := by
    rw [value_fin, hv, ← abs_of_pos hp, ← abs_div, abs_of_pos hp]
    cases neg
    · simp only [Bool.false_eq_true, if_false]; congr 1; ring
    · simp only [if_true]; rw [← abs_neg]; congr 1; ring
  rw [e, hav]
  refine (div_le_div_of_nonneg_right herr hp.le).trans (le_of_eq ?_)
  rw [add_div, div_right_comm, div_div 1 2, ← pow_succ']

theorem add_near {a b : F64} (ha : a.isFinite = true) (hb : b.isFinite = true)
    (hlt : |((value a : ℚ) : ℝ) + ((value b : ℚ) : ℝ)| < 2 ^ 900) :
    (a.add b).isFinite = true ∧ |((value (a.add b) : ℚ) : ℝ) - (((value a : ℚ) : ℝ) + ((value b : ℚ) : ℝ))| ≤
      |((value a : ℚ) : ℝ) + ((value b : ℚ) : ℝ)| / 2 ^ 53 + 1 / 2 ^ 1075 := by
  cases a with
  | nan => cases ha
  | inf s => cases ha
  | fin s m =>
    cases b with
    | nan => cases hb
    | inf t => cases hb
    | fin t n =>
      have hxy : ((value (.fin s m) : ℚ) : ℝ) + ((value (.fin t n) : ℚ) : ℝ) =
          (((F64.fin s m).toUnits + (F64.fin t n).toUnits : Int) : ℝ) / 2 ^ 1074 := by
        simp only [value]; push_cast; ring
      rw [hxy] at hlt ⊢
      have e : (F64.fin s m).add (.fin t n) = if (F64.fin s m).toUnits + (F64.fin t n).toUnits = 0 then .fin (s && t) 0
        else F64.roundUnits (decide ((F64.fin s m).toUnits + (F64.fin t n).toUnits < 0))
          ((F64.fin s m).toUnits + (F64.fin t n).toUnits).natAbs 1 := rfl
      rw [e]
      generalize (F64.fin s m).toUnits + (F64.fin t n).toUnits = v at *
      split
      · next h =>
        subst h
        refine ⟨rfl, ?_⟩
        rw [value_fin, show F64.units (0 : Fin infMag).val = 0 by rfl]
        simp
      · refine roundUnits_near _ one_pos ?_ hlt
        rw [Nat.cast_natAbs]
        push_cast
        rcases lt_or_ge v 0 with h | h
        · rw [decide_eq_true h, if_pos rfl, abs_of_neg (by exact_mod_cast h)]; ring
        · rw [decide_eq_false (by omega), if_neg (by decide), abs_of_nonneg (by exact_mod_cast h)]; ring

theorem value_neg (b : F64) : ((value b.neg : ℚ) : ℝ) = -((value b : ℚ) : ℝ) := by
  cases b with
  | nan => simp [value, F64.neg, F64.toUnits]
  | inf s => simp [value, F64.neg, F64.toUnits]
  | fin s m => rw [F64.neg, value_fin, value_fin]; cases s <;> simp

theorem isFinite_neg (b : F64) : b.neg.isFinite = b.isFinite := by cases b <;> rfl

theorem sub_near {a b : F64} (ha : a.isFinite = true) (hb : b.isFinite = true)
    (hlt : |((value a : ℚ) : ℝ) - ((value b : ℚ) : ℝ)| < 2 ^ 900) :
    (a.sub b).isFinite = true ∧ |((value (a.sub b) : ℚ) : ℝ) - (((value a : ℚ) : ℝ) - ((value b : ℚ) : ℝ))| ≤
      |((value a : ℚ) : ℝ) - ((value b : ℚ) : ℝ)| / 2 ^ 53 + 1 / 2 ^ 1075 := by
  have h := add_near ha ((isFinite_neg b).trans hb) (by rw [value_neg, ← sub_eq_add_neg]; exact hlt)
  rw [value_neg, ← sub_eq_add_neg] at h
  exact h

theorem mul_near {a b : F64} (ha : a.isFinite = true) (hb : b.isFinite = true)
    (hlt : |((value a : ℚ) : ℝ) * ((value b : ℚ) : ℝ)| < 2 ^ 900) :
    (a.mul b).isFinite = true ∧ |((value (a.mul b) : ℚ) : ℝ) - ((value a : ℚ) : ℝ) * ((value b : ℚ) : ℝ)| ≤
      |((value a : ℚ) : ℝ) * ((value b : ℚ) : ℝ)| / 2 ^ 53 + 1 / 2 ^ 1075 := by
  cases a with
  | nan => cases ha
  | inf s => cases ha
  | fin s m =>
    cases b with
    | nan => cases hb
    | inf t => cases hb
    | fin t n =>
      refine roundUnits_near (s != t) (Nat.two_pow_pos 1074) ?_ hlt
      rw [value_fin, value_fin]
      push_cast
      cases s <;> cases t <;> simp <;> field_simp

theorem div_near {a b : F64} (ha : a.isFinite = true) (hb : b.isFinite = true) (h0 : ((value b : ℚ) : ℝ) ≠ 0)
    (hlt : |((value a : ℚ) : ℝ) / ((value b : ℚ) : ℝ)| < 2 ^ 900) :
    (a.div b).isFinite = true ∧ |((value (a.div b) : ℚ) : ℝ) - ((value a : ℚ) : ℝ) / ((value b : ℚ) : ℝ)| ≤
      |((value a : ℚ) : ℝ) / ((value b : ℚ) : ℝ)| / 2 ^ 53 + 1 / 2 ^ 1075 := by
  cases a with
  | nan => cases ha
  | inf s => cases ha
  | fin s m =>
    cases b with
    | nan => cases hb
    | inf t => cases hb
    | fin t n =>
      have hn : n.val ≠ 0 := by
        intro h
        rw [value_fin, h] at h0
        simp [F64.units] at h0
      have e : (F64.fin s m).div (.fin t n) = F64.roundUnits (s != t) (F64.units m * 2 ^ 1074) (F64.units n) := by
        rw [F64.div, if_neg hn]
      have hu := units_pos (Nat.pos_of_ne_zero hn)
      have hu' : (0 : ℝ) < F64.units n := by exact_mod_cast hu
      rw [e]
      refine roundUnits_near (s != t) hu ?_ hlt
      rw [value_fin, value_fin]
      push_cast
      cases s <;> cases t <;> simp <;> field_simp

end Sys2Proof.Machine
end

