-- ==== Sys2Proof/Laws/Decode.lean ====
section
/-! SUPPORT. What the fields of a composed word are (spec/30_encoding.md R81). -/

namespace Sys2Proof

/-- A composed word as a number. -/
theorem wordOf_toNat (u o : BitVec 4) (a : Arg) :
    (wordOf u o a).toNat = u.toNat * 2 ^ 28 + o.toNat * 2 ^ 24 + a.toNat := by
  have ho := o.isLt
  have ha := a.isLt
  simp only [wordOf, BitVec.toNat_append]
  rw [← Nat.shiftLeft_add_eq_or_of_lt ho, ← Nat.shiftLeft_add_eq_or_of_lt (by decide : (0#8).toNat < 2 ^ 8),
    ← Nat.shiftLeft_add_eq_or_of_lt ha]
  simp only [Nat.shiftLeft_eq, BitVec.toNat_ofNat]
  omega

theorem unitField_toNat (w : Word32) : (unitField w).toNat = w.toNat / 2 ^ 28 := by
  have := w.isLt
  simp [unitField, BitVec.extractLsb'_toNat, Nat.shiftRight_eq_div_pow]
  omega

theorem opField_toNat (w : Word32) : (opField w).toNat = w.toNat / 2 ^ 24 % 16 := by
  simp [opField, BitVec.extractLsb'_toNat, Nat.shiftRight_eq_div_pow]

theorem rsvField_toNat (w : Word32) : (rsvField w).toNat = w.toNat / 2 ^ 16 % 256 := by
  simp [rsvField, BitVec.extractLsb'_toNat, Nat.shiftRight_eq_div_pow]

theorem argField_toNat (w : Word32) : (argField w).toNat = w.toNat % 65536 := by
  simp [argField, BitVec.extractLsb'_toNat]

@[simp] theorem unitField_wordOf (u o : BitVec 4) (a : Arg) : unitField (wordOf u o a) = u := by
  apply BitVec.eq_of_toNat_eq
  rw [unitField_toNat, wordOf_toNat]
  have := o.isLt
  have := a.isLt
  omega

@[simp] theorem opField_wordOf (u o : BitVec 4) (a : Arg) : opField (wordOf u o a) = o := by
  apply BitVec.eq_of_toNat_eq
  rw [opField_toNat, wordOf_toNat]
  have := o.isLt
  have := a.isLt
  omega

@[simp] theorem rsvField_wordOf (u o : BitVec 4) (a : Arg) : rsvField (wordOf u o a) = 0 := by
  apply BitVec.eq_of_toNat_eq
  rw [rsvField_toNat, wordOf_toNat]
  have := a.isLt
  simp
  omega

@[simp] theorem argField_wordOf (u o : BitVec 4) (a : Arg) : argField (wordOf u o a) = a := by
  apply BitVec.eq_of_toNat_eq
  rw [argField_toNat, wordOf_toNat]
  have := a.isLt
  omega

/-- A word with `RSV` = 0 is composed of its other three fields. -/
theorem wordOf_fields (w : Word32) (h : rsvField w = 0) : wordOf (unitField w) (opField w) (argField w) = w := by
  apply BitVec.eq_of_toNat_eq
  have hr : (rsvField w).toNat = 0 := by rw [h]; rfl
  rw [rsvField_toNat] at hr
  rw [wordOf_toNat, unitField_toNat, opField_toNat, argField_toNat]
  omega

end Sys2Proof
end

