-- ==== Sys2Proof/Laws/Gain.lean ====
section
/-! SUPPORT. What a step of the direct gain can do, said once (spec/43_gain.md R157 to R159): the order of reals, a
rounding against a real on one side of it, and each step against each bound. -/

namespace Sys2Proof.Machine

open Sys2Proof

/-! ### A rounding keeps to its side of a magnitude -/

/-- What is at least a magnitude's value rounds to at least that magnitude. -/
theorem le_roundMag {m num : Nat} (h : F64.units m ≤ num) : m ≤ F64.roundMag num 1 := by
  obtain ⟨e, n, r, up, hnum, hr, hn, hen, hc, -⟩ := roundMag_parts (num := num) (den := 1) one_pos
  rw [one_mul] at hnum hr
  rw [hc]
  by_contra hlt
  have h1 := units_strictMono.monotone (show e * 2 ^ 52 + (n + 1) ≤ m by omega)
  rw [units_code (by omega) (by omega), Nat.add_mul, one_mul] at h1
  omega

/-- What is at most a magnitude's value rounds to at most that magnitude. -/
theorem roundMag_le {m num : Nat} (h : num ≤ F64.units m) : F64.roundMag num 1 ≤ m := by
  obtain ⟨e, n, r, up, hnum, hr, hn, hen, hc, hu0, hu1, hu2⟩ := roundMag_parts (num := num) (den := 1) one_pos
  rw [one_mul] at hnum hr hu0 hu1 hu2
  rw [hc]
  rcases Nat.eq_zero_or_pos r with h0 | h0
  · have hup : up = 0 := hu0 (by omega)
    subst h0 hup
    have h1 : F64.units (e * 2 ^ 52 + n) ≤ F64.units m := by
      rw [units_code hn.le hen]; omega
    simpa using units_strictMono.le_iff_le.1 h1
  · have hup : up ≤ 1 := by
      rcases lt_trichotomy (2 * r) (2 ^ e) with h | h | h
      · rw [hu0 h]; omega
      · rw [hu2 h]; omega
      · rw [hu1 h]
    have h1 : F64.units (e * 2 ^ 52 + n) < F64.units m := by
      rw [units_code hn.le hen]; omega
    have h2 := units_strictMono.lt_iff_lt.1 h1
    omega

/-! ### Order -/

theorem le_trans_F64 {a b c : F64} (h1 : F64.le a b = true) (h2 : F64.le b c = true) : F64.le a c = true := by
  unfold F64.le at *
  cases ha : a.key <;> cases hb : b.key <;> cases hc : c.key <;> simp_all
  omega

theorem le_of_lt_F64 {a b : F64} (h : F64.lt a b = true) : F64.le a b = true := by
  unfold F64.lt at h
  unfold F64.le
  cases ha : a.key <;> cases hb : b.key <;> simp_all
  omega

/-- A legal positive real is not NaN, so it is equal to itself. -/
theorem le_refl_of_legalPositive {a : F64} (h : legalPositive a = true) : F64.le a a = true := by
  cases a <;> simp_all [legalPositive, F64.le, F64.key, F64.isFinite]

/-- A legal positive real has the sign of the positive ones. -/
theorem legalPositive_fin {a : F64} (h : legalPositive a = true) : ∃ m : Fin infMag, a = .fin false m := by
  cases a with
  | nan => cases h
  | inf s => cases h
  | fin s m =>
    cases s with
    | false => exact ⟨m, rfl⟩
    | true => simp [legalPositive, F64.isFinite, F64.lt, F64.key, F64.zero] at h; omega

/-- A sum of legal positive reals is not below the first. -/
theorem le_add_of_legalPositive {a b : F64} (ha : legalPositive a = true) (hb : legalPositive b = true) :
    F64.le a (a.add b) = true := by
  obtain ⟨m, rfl⟩ := legalPositive_fin ha
  obtain ⟨n, rfl⟩ := legalPositive_fin hb
  have hm := le_roundMag (m := m) (num := F64.units m + F64.units n) (by omega)
  have hv : F64.toUnits (.fin false m) + F64.toUnits (.fin false n) = ((F64.units m + F64.units n : Nat) : Int) := by
    simp [F64.toUnits]
  have hm' := m.isLt
  unfold F64.add
  simp only [hv]
  split
  · next h0 =>
    have hu : F64.units m.val = F64.units 0 := by rw [show F64.units 0 = 0 from rfl]; omega
    have h0' := units_strictMono.injective hu
    simp [F64.le, F64.key, h0']
  · rw [Int.natAbs_natCast, F64.roundUnits, F64.ofMag]
    rw [decide_eq_false (by omega : ¬((F64.units m + F64.units n : Nat) : Int) < 0)]
    split
    · simpa [F64.le, F64.key] using hm
    · rw [F64.le, F64.key, F64.key]
      simp only [Bool.false_eq_true, if_false, decide_eq_true_eq]
      omega

/-- A difference of legal positive reals is not above the first. -/
theorem sub_le_of_legalPositive {a b : F64} (ha : legalPositive a = true) (hb : legalPositive b = true) :
    F64.le (a.sub b) a = true := by
  obtain ⟨m, rfl⟩ := legalPositive_fin ha
  obtain ⟨n, rfl⟩ := legalPositive_fin hb
  have hm' := m.isLt
  unfold F64.sub F64.neg F64.add
  have hv : F64.toUnits (.fin false m) + F64.toUnits (.fin (!false) n) = (F64.units m : Int) - F64.units n := by
    simp [F64.toUnits]; omega
  simp only [hv]
  split
  · simp [F64.le, F64.key]
  · next h0 =>
    rw [F64.roundUnits, F64.ofMag]
    rcases lt_or_ge ((F64.units m : Int) - F64.units n) 0 with hn | hn
    · split <;> simp [F64.le, F64.key, hn]
    · have hr := roundMag_le (m := m) (num := ((F64.units m : Int) - F64.units n).natAbs) (by omega)
      rw [dif_pos (by omega)]
      simp [F64.le, F64.key, not_lt.2 hn]
      omega

/-! ### The two steps -/

/-- A minimum is at most its second operand. -/
theorem fmin_le_right {a b : F64} (hb : legalPositive b = true) : F64.le (F64.fmin a b) b = true := by
  unfold F64.fmin
  split
  · next h => exact le_of_lt_F64 h
  · exact le_refl_of_legalPositive hb

/-- A maximum is at least its second operand. -/
theorem le_fmax_right {a b : F64} (hb : legalPositive b = true) : F64.le b (F64.fmax a b) = true := by
  unfold F64.fmax
  split
  · next h => exact le_of_lt_F64 h
  · exact le_refl_of_legalPositive hb

/-- `increase()` leaves the gain at most at the maximum, whatever it was. -/
theorem dgcIncrease_le_max {p : Params} (hp : p.Legal) (u : Dgc) : F64.le (dgcIncrease p u).gain p.dgcMax = true :=
  fmin_le_right hp.dgcMax

/-- `decrease()` leaves the gain at least at the minimum, whatever it was. -/
theorem min_le_dgcDecrease {p : Params} (hp : p.Legal) (u : Dgc) : F64.le p.dgcMin (dgcDecrease p u).gain = true :=
  le_fmax_right hp.dgcMin

/-- `increase()` keeps a gain at or above the minimum there, where the maximum is. -/
theorem min_le_dgcIncrease {p : Params} (hp : p.Legal) {u : Dgc} (hu : legalPositive u.gain = true)
    (hb : F64.le p.dgcMin p.dgcMax = true) (hg : F64.le p.dgcMin u.gain = true) :
    F64.le p.dgcMin (dgcIncrease p u).gain = true := by
  unfold dgcIncrease F64.fmin
  dsimp only
  split
  · exact le_trans_F64 hg (le_add_of_legalPositive hu hp.dgcStep)
  · exact hb

/-- `decrease()` keeps a gain at or below the maximum there, where the minimum is. -/
theorem dgcDecrease_le_max {p : Params} (hp : p.Legal) {u : Dgc} (hu : legalPositive u.gain = true)
    (hb : F64.le p.dgcMin p.dgcMax = true) (hg : F64.le u.gain p.dgcMax = true) :
    F64.le (dgcDecrease p u).gain p.dgcMax = true := by
  unfold dgcDecrease F64.fmax
  dsimp only
  split
  · exact le_trans_F64 (sub_le_of_legalPositive hu hp.dgcStep) hg
  · exact hb

/-- The gain step that a clamp of the spread takes keeps a gain between the bounds there (R200). -/
theorem synGainStep_in_bounds {p : Params} (hp : p.Legal) {u : Dgc} (hu : legalPositive u.gain = true)
    (hb : F64.le p.dgcMin p.dgcMax = true) (h1 : F64.le p.dgcMin u.gain = true) (h2 : F64.le u.gain p.dgcMax = true)
    (sp : F64) : F64.le p.dgcMin (synGainStep p sp u).gain = true ∧ F64.le (synGainStep p sp u).gain p.dgcMax = true := by
  unfold synGainStep
  split
  · exact ⟨min_le_dgcIncrease hp hu hb h1, dgcIncrease_le_max hp u⟩
  · split
    · exact ⟨min_le_dgcDecrease hp u, dgcDecrease_le_max hp hu hb h2⟩
    · exact ⟨h1, h2⟩

end Sys2Proof.Machine
end

