-- ==== Sys2Proof/Laws/State.lean ====
section
/-! SUPPORT. The small lemmas of the shared state updates: for each update, what each field holds after it. -/

namespace Sys2Proof.Machine

open Sys2Proof


/-! ### `retire` -/

@[simp] theorem State.retire_params (s : State) :
    (s.retire).params = s.params := rfl
@[simp] theorem State.retire_dcf (s : State) :
    (s.retire).dcf = s.dcf := rfl
@[simp] theorem State.retire_iqc (s : State) :
    (s.retire).iqc = s.iqc := rfl
@[simp] theorem State.retire_fmd (s : State) :
    (s.retire).fmd = s.fmd := rfl
@[simp] theorem State.retire_agc (s : State) :
    (s.retire).agc = s.agc := rfl
@[simp] theorem State.retire_dgc (s : State) :
    (s.retire).dgc = s.dgc := rfl
@[simp] theorem State.retire_rsm (s : State) :
    (s.retire).rsm = s.rsm := rfl
@[simp] theorem State.retire_syn (s : State) :
    (s.retire).syn = s.syn := rfl
@[simp] theorem State.retire_status (s : State) :
    (s.retire).status = s.status := rfl
@[simp] theorem State.retire_faultCode (s : State) :
    (s.retire).faultCode = s.faultCode := rfl
@[simp] theorem State.retire_faultCmd (s : State) :
    (s.retire).faultCmd = s.faultCmd := rfl
@[simp] theorem State.retire_cmd (s : State) :
    (s.retire).cmd = s.cmd.tail := rfl
@[simp] theorem State.retire_din (s : State) :
    (s.retire).din = s.din := rfl
@[simp] theorem State.retire_dout (s : State) :
    (s.retire).dout = s.dout := rfl
@[simp] theorem State.retire_evt (s : State) :
    (s.retire).evt = s.evt := rfl
@[simp] theorem State.retire_ntf (s : State) :
    (s.retire).ntf = s.ntf := rfl
@[simp] theorem State.retire_boundary (s : State) :
    (s.retire).boundary = s.boundary := rfl
@[simp] theorem State.retire_nanCount (s : State) :
    (s.retire).nanCount = s.nanCount := rfl

/-! ### `dropNtf` -/

@[simp] theorem State.dropNtf_params (s : State) :
    (s.dropNtf).params = s.params := rfl
@[simp] theorem State.dropNtf_dcf (s : State) :
    (s.dropNtf).dcf = s.dcf := rfl
@[simp] theorem State.dropNtf_iqc (s : State) :
    (s.dropNtf).iqc = s.iqc := rfl
@[simp] theorem State.dropNtf_fmd (s : State) :
    (s.dropNtf).fmd = s.fmd := rfl
@[simp] theorem State.dropNtf_agc (s : State) :
    (s.dropNtf).agc = s.agc := rfl
@[simp] theorem State.dropNtf_dgc (s : State) :
    (s.dropNtf).dgc = s.dgc := rfl
@[simp] theorem State.dropNtf_rsm (s : State) :
    (s.dropNtf).rsm = s.rsm := rfl
@[simp] theorem State.dropNtf_syn (s : State) :
    (s.dropNtf).syn = s.syn := rfl
@[simp] theorem State.dropNtf_status (s : State) :
    (s.dropNtf).status = s.status := rfl
@[simp] theorem State.dropNtf_faultCode (s : State) :
    (s.dropNtf).faultCode = s.faultCode := rfl
@[simp] theorem State.dropNtf_faultCmd (s : State) :
    (s.dropNtf).faultCmd = s.faultCmd := rfl
@[simp] theorem State.dropNtf_cmd (s : State) :
    (s.dropNtf).cmd = s.cmd := rfl
@[simp] theorem State.dropNtf_din (s : State) :
    (s.dropNtf).din = s.din := rfl
@[simp] theorem State.dropNtf_dout (s : State) :
    (s.dropNtf).dout = s.dout := rfl
@[simp] theorem State.dropNtf_evt (s : State) :
    (s.dropNtf).evt = s.evt := rfl
@[simp] theorem State.dropNtf_ntf (s : State) :
    (s.dropNtf).ntf = s.ntf.tail := rfl
@[simp] theorem State.dropNtf_boundary (s : State) :
    (s.dropNtf).boundary = s.boundary := rfl
@[simp] theorem State.dropNtf_nanCount (s : State) :
    (s.dropNtf).nanCount = s.nanCount := rfl

/-! ### `consume` -/

@[simp] theorem State.consume_params (s : State) (n : Nat) :
    (s.consume n).params = s.params := rfl
@[simp] theorem State.consume_dcf (s : State) (n : Nat) :
    (s.consume n).dcf = s.dcf := rfl
@[simp] theorem State.consume_iqc (s : State) (n : Nat) :
    (s.consume n).iqc = s.iqc := rfl
@[simp] theorem State.consume_fmd (s : State) (n : Nat) :
    (s.consume n).fmd = s.fmd := rfl
@[simp] theorem State.consume_agc (s : State) (n : Nat) :
    (s.consume n).agc = s.agc := rfl
@[simp] theorem State.consume_dgc (s : State) (n : Nat) :
    (s.consume n).dgc = s.dgc := rfl
@[simp] theorem State.consume_rsm (s : State) (n : Nat) :
    (s.consume n).rsm = s.rsm := rfl
@[simp] theorem State.consume_syn (s : State) (n : Nat) :
    (s.consume n).syn = s.syn := rfl
@[simp] theorem State.consume_status (s : State) (n : Nat) :
    (s.consume n).status = s.status := rfl
@[simp] theorem State.consume_faultCode (s : State) (n : Nat) :
    (s.consume n).faultCode = s.faultCode := rfl
@[simp] theorem State.consume_faultCmd (s : State) (n : Nat) :
    (s.consume n).faultCmd = s.faultCmd := rfl
@[simp] theorem State.consume_cmd (s : State) (n : Nat) :
    (s.consume n).cmd = s.cmd.tail := rfl
@[simp] theorem State.consume_din (s : State) (n : Nat) :
    (s.consume n).din = s.din.drop n := rfl
@[simp] theorem State.consume_dout (s : State) (n : Nat) :
    (s.consume n).dout = s.dout := rfl
@[simp] theorem State.consume_evt (s : State) (n : Nat) :
    (s.consume n).evt = s.evt := rfl
@[simp] theorem State.consume_ntf (s : State) (n : Nat) :
    (s.consume n).ntf = s.ntf := rfl
@[simp] theorem State.consume_boundary (s : State) (n : Nat) :
    (s.consume n).boundary = s.boundary := rfl
@[simp] theorem State.consume_nanCount (s : State) (n : Nat) :
    (s.consume n).nanCount = s.nanCount := rfl

/-! ### `pushWord` -/

@[simp] theorem State.pushWord_params (s : State) (w : Word64) :
    (s.pushWord w).params = s.params := rfl
@[simp] theorem State.pushWord_dcf (s : State) (w : Word64) :
    (s.pushWord w).dcf = s.dcf := rfl
@[simp] theorem State.pushWord_iqc (s : State) (w : Word64) :
    (s.pushWord w).iqc = s.iqc := rfl
@[simp] theorem State.pushWord_fmd (s : State) (w : Word64) :
    (s.pushWord w).fmd = s.fmd := rfl
@[simp] theorem State.pushWord_agc (s : State) (w : Word64) :
    (s.pushWord w).agc = s.agc := rfl
@[simp] theorem State.pushWord_dgc (s : State) (w : Word64) :
    (s.pushWord w).dgc = s.dgc := rfl
@[simp] theorem State.pushWord_rsm (s : State) (w : Word64) :
    (s.pushWord w).rsm = s.rsm := rfl
@[simp] theorem State.pushWord_syn (s : State) (w : Word64) :
    (s.pushWord w).syn = s.syn := rfl
@[simp] theorem State.pushWord_status (s : State) (w : Word64) :
    (s.pushWord w).status = s.status := rfl
@[simp] theorem State.pushWord_faultCode (s : State) (w : Word64) :
    (s.pushWord w).faultCode = s.faultCode := rfl
@[simp] theorem State.pushWord_faultCmd (s : State) (w : Word64) :
    (s.pushWord w).faultCmd = s.faultCmd := rfl
@[simp] theorem State.pushWord_cmd (s : State) (w : Word64) :
    (s.pushWord w).cmd = s.cmd := rfl
@[simp] theorem State.pushWord_din (s : State) (w : Word64) :
    (s.pushWord w).din = s.din := rfl
@[simp] theorem State.pushWord_dout (s : State) (w : Word64) :
    (s.pushWord w).dout = s.dout ++ [w] := rfl
@[simp] theorem State.pushWord_evt (s : State) (w : Word64) :
    (s.pushWord w).evt = s.evt := rfl
@[simp] theorem State.pushWord_ntf (s : State) (w : Word64) :
    (s.pushWord w).ntf = s.ntf := rfl
@[simp] theorem State.pushWord_boundary (s : State) (w : Word64) :
    (s.pushWord w).boundary = s.boundary := rfl
@[simp] theorem State.pushWord_nanCount (s : State) (w : Word64) :
    (s.pushWord w).nanCount = s.nanCount := rfl

/-! ### `doutReal` -/

@[simp] theorem State.doutReal_params (s : State) (v : F64) :
    (s.doutReal v).params = s.params := by cases v <;> rfl
@[simp] theorem State.doutReal_dcf (s : State) (v : F64) :
    (s.doutReal v).dcf = s.dcf := by cases v <;> rfl
@[simp] theorem State.doutReal_iqc (s : State) (v : F64) :
    (s.doutReal v).iqc = s.iqc := by cases v <;> rfl
@[simp] theorem State.doutReal_fmd (s : State) (v : F64) :
    (s.doutReal v).fmd = s.fmd := by cases v <;> rfl
@[simp] theorem State.doutReal_agc (s : State) (v : F64) :
    (s.doutReal v).agc = s.agc := by cases v <;> rfl
@[simp] theorem State.doutReal_dgc (s : State) (v : F64) :
    (s.doutReal v).dgc = s.dgc := by cases v <;> rfl
@[simp] theorem State.doutReal_rsm (s : State) (v : F64) :
    (s.doutReal v).rsm = s.rsm := by cases v <;> rfl
@[simp] theorem State.doutReal_syn (s : State) (v : F64) :
    (s.doutReal v).syn = s.syn := by cases v <;> rfl
@[simp] theorem State.doutReal_status (s : State) (v : F64) :
    (s.doutReal v).status = s.status := by cases v <;> rfl
@[simp] theorem State.doutReal_faultCode (s : State) (v : F64) :
    (s.doutReal v).faultCode = s.faultCode := by cases v <;> rfl
@[simp] theorem State.doutReal_faultCmd (s : State) (v : F64) :
    (s.doutReal v).faultCmd = s.faultCmd := by cases v <;> rfl
@[simp] theorem State.doutReal_cmd (s : State) (v : F64) :
    (s.doutReal v).cmd = s.cmd := by cases v <;> rfl
@[simp] theorem State.doutReal_din (s : State) (v : F64) :
    (s.doutReal v).din = s.din := by cases v <;> rfl
@[simp] theorem State.doutReal_evt (s : State) (v : F64) :
    (s.doutReal v).evt = s.evt := by cases v <;> rfl
@[simp] theorem State.doutReal_ntf (s : State) (v : F64) :
    (s.doutReal v).ntf = s.ntf := by cases v <;> rfl
@[simp] theorem State.doutReal_boundary (s : State) (v : F64) :
    (s.doutReal v).boundary = s.boundary := by cases v <;> rfl

/-! ### `doutReals` -/

@[simp] theorem State.doutReals_params (s : State) (vs : List F64) :
    (s.doutReals vs).params = s.params := by
  unfold State.doutReals
  induction vs generalizing s with
  | nil => rfl
  | cons v vs ih => simp only [List.foldl_cons, ih, State.doutReal_params]
@[simp] theorem State.doutReals_dcf (s : State) (vs : List F64) :
    (s.doutReals vs).dcf = s.dcf := by
  unfold State.doutReals
  induction vs generalizing s with
  | nil => rfl
  | cons v vs ih => simp only [List.foldl_cons, ih, State.doutReal_dcf]
@[simp] theorem State.doutReals_iqc (s : State) (vs : List F64) :
    (s.doutReals vs).iqc = s.iqc := by
  unfold State.doutReals
  induction vs generalizing s with
  | nil => rfl
  | cons v vs ih => simp only [List.foldl_cons, ih, State.doutReal_iqc]
@[simp] theorem State.doutReals_fmd (s : State) (vs : List F64) :
    (s.doutReals vs).fmd = s.fmd := by
  unfold State.doutReals
  induction vs generalizing s with
  | nil => rfl
  | cons v vs ih => simp only [List.foldl_cons, ih, State.doutReal_fmd]
@[simp] theorem State.doutReals_agc (s : State) (vs : List F64) :
    (s.doutReals vs).agc = s.agc := by
  unfold State.doutReals
  induction vs generalizing s with
  | nil => rfl
  | cons v vs ih => simp only [List.foldl_cons, ih, State.doutReal_agc]
@[simp] theorem State.doutReals_dgc (s : State) (vs : List F64) :
    (s.doutReals vs).dgc = s.dgc := by
  unfold State.doutReals
  induction vs generalizing s with
  | nil => rfl
  | cons v vs ih => simp only [List.foldl_cons, ih, State.doutReal_dgc]
@[simp] theorem State.doutReals_rsm (s : State) (vs : List F64) :
    (s.doutReals vs).rsm = s.rsm := by
  unfold State.doutReals
  induction vs generalizing s with
  | nil => rfl
  | cons v vs ih => simp only [List.foldl_cons, ih, State.doutReal_rsm]
@[simp] theorem State.doutReals_syn (s : State) (vs : List F64) :
    (s.doutReals vs).syn = s.syn := by
  unfold State.doutReals
  induction vs generalizing s with
  | nil => rfl
  | cons v vs ih => simp only [List.foldl_cons, ih, State.doutReal_syn]
@[simp] theorem State.doutReals_status (s : State) (vs : List F64) :
    (s.doutReals vs).status = s.status := by
  unfold State.doutReals
  induction vs generalizing s with
  | nil => rfl
  | cons v vs ih => simp only [List.foldl_cons, ih, State.doutReal_status]
@[simp] theorem State.doutReals_faultCode (s : State) (vs : List F64) :
    (s.doutReals vs).faultCode = s.faultCode := by
  unfold State.doutReals
  induction vs generalizing s with
  | nil => rfl
  | cons v vs ih => simp only [List.foldl_cons, ih, State.doutReal_faultCode]
@[simp] theorem State.doutReals_faultCmd (s : State) (vs : List F64) :
    (s.doutReals vs).faultCmd = s.faultCmd := by
  unfold State.doutReals
  induction vs generalizing s with
  | nil => rfl
  | cons v vs ih => simp only [List.foldl_cons, ih, State.doutReal_faultCmd]
@[simp] theorem State.doutReals_cmd (s : State) (vs : List F64) :
    (s.doutReals vs).cmd = s.cmd := by
  unfold State.doutReals
  induction vs generalizing s with
  | nil => rfl
  | cons v vs ih => simp only [List.foldl_cons, ih, State.doutReal_cmd]
@[simp] theorem State.doutReals_din (s : State) (vs : List F64) :
    (s.doutReals vs).din = s.din := by
  unfold State.doutReals
  induction vs generalizing s with
  | nil => rfl
  | cons v vs ih => simp only [List.foldl_cons, ih, State.doutReal_din]
@[simp] theorem State.doutReals_evt (s : State) (vs : List F64) :
    (s.doutReals vs).evt = s.evt := by
  unfold State.doutReals
  induction vs generalizing s with
  | nil => rfl
  | cons v vs ih => simp only [List.foldl_cons, ih, State.doutReal_evt]
@[simp] theorem State.doutReals_ntf (s : State) (vs : List F64) :
    (s.doutReals vs).ntf = s.ntf := by
  unfold State.doutReals
  induction vs generalizing s with
  | nil => rfl
  | cons v vs ih => simp only [List.foldl_cons, ih, State.doutReal_ntf]
@[simp] theorem State.doutReals_boundary (s : State) (vs : List F64) :
    (s.doutReals vs).boundary = s.boundary := by
  unfold State.doutReals
  induction vs generalizing s with
  | nil => rfl
  | cons v vs ih => simp only [List.foldl_cons, ih, State.doutReal_boundary]

/-! ### `doutInt32` -/

@[simp] theorem State.doutInt32_params (s : State) (v : BitVec 32) :
    (s.doutInt32 v).params = s.params := rfl
@[simp] theorem State.doutInt32_dcf (s : State) (v : BitVec 32) :
    (s.doutInt32 v).dcf = s.dcf := rfl
@[simp] theorem State.doutInt32_iqc (s : State) (v : BitVec 32) :
    (s.doutInt32 v).iqc = s.iqc := rfl
@[simp] theorem State.doutInt32_fmd (s : State) (v : BitVec 32) :
    (s.doutInt32 v).fmd = s.fmd := rfl
@[simp] theorem State.doutInt32_agc (s : State) (v : BitVec 32) :
    (s.doutInt32 v).agc = s.agc := rfl
@[simp] theorem State.doutInt32_dgc (s : State) (v : BitVec 32) :
    (s.doutInt32 v).dgc = s.dgc := rfl
@[simp] theorem State.doutInt32_rsm (s : State) (v : BitVec 32) :
    (s.doutInt32 v).rsm = s.rsm := rfl
@[simp] theorem State.doutInt32_syn (s : State) (v : BitVec 32) :
    (s.doutInt32 v).syn = s.syn := rfl
@[simp] theorem State.doutInt32_status (s : State) (v : BitVec 32) :
    (s.doutInt32 v).status = s.status := rfl
@[simp] theorem State.doutInt32_faultCode (s : State) (v : BitVec 32) :
    (s.doutInt32 v).faultCode = s.faultCode := rfl
@[simp] theorem State.doutInt32_faultCmd (s : State) (v : BitVec 32) :
    (s.doutInt32 v).faultCmd = s.faultCmd := rfl
@[simp] theorem State.doutInt32_cmd (s : State) (v : BitVec 32) :
    (s.doutInt32 v).cmd = s.cmd := rfl
@[simp] theorem State.doutInt32_din (s : State) (v : BitVec 32) :
    (s.doutInt32 v).din = s.din := rfl
@[simp] theorem State.doutInt32_dout (s : State) (v : BitVec 32) :
    (s.doutInt32 v).dout = s.dout ++ [v.zeroExtend 64] := rfl
@[simp] theorem State.doutInt32_evt (s : State) (v : BitVec 32) :
    (s.doutInt32 v).evt = s.evt := rfl
@[simp] theorem State.doutInt32_ntf (s : State) (v : BitVec 32) :
    (s.doutInt32 v).ntf = s.ntf := rfl
@[simp] theorem State.doutInt32_boundary (s : State) (v : BitVec 32) :
    (s.doutInt32 v).boundary = s.boundary := rfl
@[simp] theorem State.doutInt32_nanCount (s : State) (v : BitVec 32) :
    (s.doutInt32 v).nanCount = s.nanCount := rfl

/-! ### `doutPcm16` -/

@[simp] theorem State.doutPcm16_params (s : State) (r : Int) :
    (s.doutPcm16 r).params = s.params := rfl
@[simp] theorem State.doutPcm16_dcf (s : State) (r : Int) :
    (s.doutPcm16 r).dcf = s.dcf := rfl
@[simp] theorem State.doutPcm16_iqc (s : State) (r : Int) :
    (s.doutPcm16 r).iqc = s.iqc := rfl
@[simp] theorem State.doutPcm16_fmd (s : State) (r : Int) :
    (s.doutPcm16 r).fmd = s.fmd := rfl
@[simp] theorem State.doutPcm16_agc (s : State) (r : Int) :
    (s.doutPcm16 r).agc = s.agc := rfl
@[simp] theorem State.doutPcm16_dgc (s : State) (r : Int) :
    (s.doutPcm16 r).dgc = s.dgc := rfl
@[simp] theorem State.doutPcm16_rsm (s : State) (r : Int) :
    (s.doutPcm16 r).rsm = s.rsm := rfl
@[simp] theorem State.doutPcm16_syn (s : State) (r : Int) :
    (s.doutPcm16 r).syn = s.syn := rfl
@[simp] theorem State.doutPcm16_status (s : State) (r : Int) :
    (s.doutPcm16 r).status = s.status := rfl
@[simp] theorem State.doutPcm16_faultCode (s : State) (r : Int) :
    (s.doutPcm16 r).faultCode = s.faultCode := rfl
@[simp] theorem State.doutPcm16_faultCmd (s : State) (r : Int) :
    (s.doutPcm16 r).faultCmd = s.faultCmd := rfl
@[simp] theorem State.doutPcm16_cmd (s : State) (r : Int) :
    (s.doutPcm16 r).cmd = s.cmd := rfl
@[simp] theorem State.doutPcm16_din (s : State) (r : Int) :
    (s.doutPcm16 r).din = s.din := rfl
@[simp] theorem State.doutPcm16_dout (s : State) (r : Int) :
    (s.doutPcm16 r).dout = s.dout ++ [(BitVec.ofInt 16 r).zeroExtend 64] := rfl
@[simp] theorem State.doutPcm16_evt (s : State) (r : Int) :
    (s.doutPcm16 r).evt = s.evt := rfl
@[simp] theorem State.doutPcm16_ntf (s : State) (r : Int) :
    (s.doutPcm16 r).ntf = s.ntf := rfl
@[simp] theorem State.doutPcm16_boundary (s : State) (r : Int) :
    (s.doutPcm16 r).boundary = s.boundary := rfl
@[simp] theorem State.doutPcm16_nanCount (s : State) (r : Int) :
    (s.doutPcm16 r).nanCount = s.nanCount := rfl

/-! ### `emitEvt` -/

@[simp] theorem State.emitEvt_params (s : State) (c v : BitVec 32) :
    (s.emitEvt c v).params = s.params := rfl
@[simp] theorem State.emitEvt_dcf (s : State) (c v : BitVec 32) :
    (s.emitEvt c v).dcf = s.dcf := rfl
@[simp] theorem State.emitEvt_iqc (s : State) (c v : BitVec 32) :
    (s.emitEvt c v).iqc = s.iqc := rfl
@[simp] theorem State.emitEvt_fmd (s : State) (c v : BitVec 32) :
    (s.emitEvt c v).fmd = s.fmd := rfl
@[simp] theorem State.emitEvt_agc (s : State) (c v : BitVec 32) :
    (s.emitEvt c v).agc = s.agc := rfl
@[simp] theorem State.emitEvt_dgc (s : State) (c v : BitVec 32) :
    (s.emitEvt c v).dgc = s.dgc := rfl
@[simp] theorem State.emitEvt_rsm (s : State) (c v : BitVec 32) :
    (s.emitEvt c v).rsm = s.rsm := rfl
@[simp] theorem State.emitEvt_syn (s : State) (c v : BitVec 32) :
    (s.emitEvt c v).syn = s.syn := rfl
@[simp] theorem State.emitEvt_status (s : State) (c v : BitVec 32) :
    (s.emitEvt c v).status = s.status := rfl
@[simp] theorem State.emitEvt_faultCode (s : State) (c v : BitVec 32) :
    (s.emitEvt c v).faultCode = s.faultCode := rfl
@[simp] theorem State.emitEvt_faultCmd (s : State) (c v : BitVec 32) :
    (s.emitEvt c v).faultCmd = s.faultCmd := rfl
@[simp] theorem State.emitEvt_cmd (s : State) (c v : BitVec 32) :
    (s.emitEvt c v).cmd = s.cmd := rfl
@[simp] theorem State.emitEvt_din (s : State) (c v : BitVec 32) :
    (s.emitEvt c v).din = s.din := rfl
@[simp] theorem State.emitEvt_dout (s : State) (c v : BitVec 32) :
    (s.emitEvt c v).dout = s.dout := rfl
@[simp] theorem State.emitEvt_evt (s : State) (c v : BitVec 32) :
    (s.emitEvt c v).evt = s.evt ++ [c ++ v] := rfl
@[simp] theorem State.emitEvt_ntf (s : State) (c v : BitVec 32) :
    (s.emitEvt c v).ntf = s.ntf := rfl
@[simp] theorem State.emitEvt_boundary (s : State) (c v : BitVec 32) :
    (s.emitEvt c v).boundary = s.boundary := rfl
@[simp] theorem State.emitEvt_nanCount (s : State) (c v : BitVec 32) :
    (s.emitEvt c v).nanCount = s.nanCount := rfl

/-! ### `noteNonfinite` -/

@[simp] theorem State.noteNonfinite_params (s : State) (b : Bool) :
    (s.noteNonfinite b).params = s.params := rfl
@[simp] theorem State.noteNonfinite_dcf (s : State) (b : Bool) :
    (s.noteNonfinite b).dcf = s.dcf := rfl
@[simp] theorem State.noteNonfinite_iqc (s : State) (b : Bool) :
    (s.noteNonfinite b).iqc = s.iqc := rfl
@[simp] theorem State.noteNonfinite_fmd (s : State) (b : Bool) :
    (s.noteNonfinite b).fmd = s.fmd := rfl
@[simp] theorem State.noteNonfinite_agc (s : State) (b : Bool) :
    (s.noteNonfinite b).agc = s.agc := rfl
@[simp] theorem State.noteNonfinite_dgc (s : State) (b : Bool) :
    (s.noteNonfinite b).dgc = s.dgc := rfl
@[simp] theorem State.noteNonfinite_rsm (s : State) (b : Bool) :
    (s.noteNonfinite b).rsm = s.rsm := rfl
@[simp] theorem State.noteNonfinite_syn (s : State) (b : Bool) :
    (s.noteNonfinite b).syn = s.syn := rfl
@[simp] theorem State.noteNonfinite_status (s : State) (b : Bool) :
    (s.noteNonfinite b).status = { s.status with nonfinite := s.status.nonfinite || b } := rfl
@[simp] theorem State.noteNonfinite_faultCode (s : State) (b : Bool) :
    (s.noteNonfinite b).faultCode = s.faultCode := rfl
@[simp] theorem State.noteNonfinite_faultCmd (s : State) (b : Bool) :
    (s.noteNonfinite b).faultCmd = s.faultCmd := rfl
@[simp] theorem State.noteNonfinite_cmd (s : State) (b : Bool) :
    (s.noteNonfinite b).cmd = s.cmd := rfl
@[simp] theorem State.noteNonfinite_din (s : State) (b : Bool) :
    (s.noteNonfinite b).din = s.din := rfl
@[simp] theorem State.noteNonfinite_dout (s : State) (b : Bool) :
    (s.noteNonfinite b).dout = s.dout := rfl
@[simp] theorem State.noteNonfinite_evt (s : State) (b : Bool) :
    (s.noteNonfinite b).evt = s.evt := rfl
@[simp] theorem State.noteNonfinite_ntf (s : State) (b : Bool) :
    (s.noteNonfinite b).ntf = s.ntf := rfl
@[simp] theorem State.noteNonfinite_boundary (s : State) (b : Bool) :
    (s.noteNonfinite b).boundary = s.boundary := rfl
@[simp] theorem State.noteNonfinite_nanCount (s : State) (b : Bool) :
    (s.noteNonfinite b).nanCount = s.nanCount := rfl

/-! ### `raiseFault` -/

@[simp] theorem State.raiseFault_params (s : State) (c : FaultCode) (w : Word32) :
    (s.raiseFault c w).params = s.params := by
  unfold State.raiseFault
  split <;> rfl
@[simp] theorem State.raiseFault_dcf (s : State) (c : FaultCode) (w : Word32) :
    (s.raiseFault c w).dcf = s.dcf := by
  unfold State.raiseFault
  split <;> rfl
@[simp] theorem State.raiseFault_iqc (s : State) (c : FaultCode) (w : Word32) :
    (s.raiseFault c w).iqc = s.iqc := by
  unfold State.raiseFault
  split <;> rfl
@[simp] theorem State.raiseFault_fmd (s : State) (c : FaultCode) (w : Word32) :
    (s.raiseFault c w).fmd = s.fmd := by
  unfold State.raiseFault
  split <;> rfl
@[simp] theorem State.raiseFault_agc (s : State) (c : FaultCode) (w : Word32) :
    (s.raiseFault c w).agc = s.agc := by
  unfold State.raiseFault
  split <;> rfl
@[simp] theorem State.raiseFault_dgc (s : State) (c : FaultCode) (w : Word32) :
    (s.raiseFault c w).dgc = s.dgc := by
  unfold State.raiseFault
  split <;> rfl
@[simp] theorem State.raiseFault_rsm (s : State) (c : FaultCode) (w : Word32) :
    (s.raiseFault c w).rsm = s.rsm := by
  unfold State.raiseFault
  split <;> rfl
@[simp] theorem State.raiseFault_syn (s : State) (c : FaultCode) (w : Word32) :
    (s.raiseFault c w).syn = s.syn := by
  unfold State.raiseFault
  split <;> rfl
@[simp] theorem State.raiseFault_status (s : State) (c : FaultCode) (w : Word32) :
    (s.raiseFault c w).status = { s.status with fault := true } := by
  cases h : s.status with
  | mk f r o n => cases f <;> simp [State.raiseFault, h]
@[simp] theorem State.raiseFault_faultCode (s : State) (c : FaultCode) (w : Word32) :
    (s.raiseFault c w).faultCode = if s.status.fault then s.faultCode else c := by
  unfold State.raiseFault
  split <;> rfl
@[simp] theorem State.raiseFault_faultCmd (s : State) (c : FaultCode) (w : Word32) :
    (s.raiseFault c w).faultCmd = if s.status.fault then s.faultCmd else w := by
  unfold State.raiseFault
  split <;> rfl
@[simp] theorem State.raiseFault_cmd (s : State) (c : FaultCode) (w : Word32) :
    (s.raiseFault c w).cmd = s.cmd := by
  unfold State.raiseFault
  split <;> rfl
@[simp] theorem State.raiseFault_din (s : State) (c : FaultCode) (w : Word32) :
    (s.raiseFault c w).din = s.din := by
  unfold State.raiseFault
  split <;> rfl
@[simp] theorem State.raiseFault_dout (s : State) (c : FaultCode) (w : Word32) :
    (s.raiseFault c w).dout = s.dout := by
  unfold State.raiseFault
  split <;> rfl
@[simp] theorem State.raiseFault_evt (s : State) (c : FaultCode) (w : Word32) :
    (s.raiseFault c w).evt = s.evt := by
  unfold State.raiseFault
  split <;> rfl
@[simp] theorem State.raiseFault_ntf (s : State) (c : FaultCode) (w : Word32) :
    (s.raiseFault c w).ntf = s.ntf := by
  unfold State.raiseFault
  split <;> rfl
@[simp] theorem State.raiseFault_boundary (s : State) (c : FaultCode) (w : Word32) :
    (s.raiseFault c w).boundary = s.boundary := by
  unfold State.raiseFault
  split <;> rfl
@[simp] theorem State.raiseFault_nanCount (s : State) (c : FaultCode) (w : Word32) :
    (s.raiseFault c w).nanCount = s.nanCount := by
  unfold State.raiseFault
  split <;> rfl

/-! ### `restart` -/

@[simp] theorem State.restart_params (s : State) :
    (s.restart).params = s.params := rfl
@[simp] theorem State.restart_dcf (s : State) :
    (s.restart).dcf = .reset := rfl
@[simp] theorem State.restart_iqc (s : State) :
    (s.restart).iqc = .reset := rfl
@[simp] theorem State.restart_fmd (s : State) :
    (s.restart).fmd = .reset := rfl
@[simp] theorem State.restart_agc (s : State) :
    (s.restart).agc = .reset s.params := rfl
@[simp] theorem State.restart_dgc (s : State) :
    (s.restart).dgc = .reset s.params := rfl
@[simp] theorem State.restart_rsm (s : State) :
    (s.restart).rsm = .reset := rfl
@[simp] theorem State.restart_syn (s : State) :
    (s.restart).syn = .reset s.params := rfl
@[simp] theorem State.restart_status (s : State) :
    (s.restart).status = ⟨false, false, false, false⟩ := rfl
@[simp] theorem State.restart_faultCode (s : State) :
    (s.restart).faultCode = .noFault := rfl
@[simp] theorem State.restart_faultCmd (s : State) :
    (s.restart).faultCmd = 0 := rfl
@[simp] theorem State.restart_cmd (s : State) :
    (s.restart).cmd = s.cmd := rfl
@[simp] theorem State.restart_din (s : State) :
    (s.restart).din = [] := rfl
@[simp] theorem State.restart_dout (s : State) :
    (s.restart).dout = s.dout := rfl
@[simp] theorem State.restart_evt (s : State) :
    (s.restart).evt = s.evt := rfl
@[simp] theorem State.restart_ntf (s : State) :
    (s.restart).ntf = s.ntf := rfl
@[simp] theorem State.restart_boundary (s : State) :
    (s.restart).boundary = s.boundary := rfl
@[simp] theorem State.restart_nanCount (s : State) :
    (s.restart).nanCount = s.nanCount := rfl

/-! ### `resetAgc` -/

@[simp] theorem State.resetAgc_params (s : State) :
    (s.resetAgc).params = s.params := rfl
@[simp] theorem State.resetAgc_dcf (s : State) :
    (s.resetAgc).dcf = s.dcf := rfl
@[simp] theorem State.resetAgc_iqc (s : State) :
    (s.resetAgc).iqc = s.iqc := rfl
@[simp] theorem State.resetAgc_fmd (s : State) :
    (s.resetAgc).fmd = s.fmd := rfl
@[simp] theorem State.resetAgc_agc (s : State) :
    (s.resetAgc).agc = .reset s.params := rfl
@[simp] theorem State.resetAgc_dgc (s : State) :
    (s.resetAgc).dgc = s.dgc := rfl
@[simp] theorem State.resetAgc_rsm (s : State) :
    (s.resetAgc).rsm = s.rsm := rfl
@[simp] theorem State.resetAgc_syn (s : State) :
    (s.resetAgc).syn = s.syn := rfl
@[simp] theorem State.resetAgc_status (s : State) :
    (s.resetAgc).status = s.status := rfl
@[simp] theorem State.resetAgc_faultCode (s : State) :
    (s.resetAgc).faultCode = s.faultCode := rfl
@[simp] theorem State.resetAgc_faultCmd (s : State) :
    (s.resetAgc).faultCmd = s.faultCmd := rfl
@[simp] theorem State.resetAgc_cmd (s : State) :
    (s.resetAgc).cmd = s.cmd := rfl
@[simp] theorem State.resetAgc_din (s : State) :
    (s.resetAgc).din = s.din := rfl
@[simp] theorem State.resetAgc_dout (s : State) :
    (s.resetAgc).dout = s.dout := rfl
@[simp] theorem State.resetAgc_evt (s : State) :
    (s.resetAgc).evt = s.evt := rfl
@[simp] theorem State.resetAgc_ntf (s : State) :
    (s.resetAgc).ntf = s.ntf := rfl
@[simp] theorem State.resetAgc_boundary (s : State) :
    (s.resetAgc).boundary = s.boundary := rfl
@[simp] theorem State.resetAgc_nanCount (s : State) :
    (s.resetAgc).nanCount = s.nanCount := rfl

/-! ### `afterWrite` -/

@[simp] theorem State.afterWrite_params (s : State) (k : Nat) :
    (s.afterWrite k).params = s.params := by
  unfold State.afterWrite
  split <;> rfl
@[simp] theorem State.afterWrite_dcf (s : State) (k : Nat) :
    (s.afterWrite k).dcf = s.dcf := by
  unfold State.afterWrite
  split <;> rfl
@[simp] theorem State.afterWrite_iqc (s : State) (k : Nat) :
    (s.afterWrite k).iqc = s.iqc := by
  unfold State.afterWrite
  split <;> rfl
@[simp] theorem State.afterWrite_fmd (s : State) (k : Nat) :
    (s.afterWrite k).fmd = s.fmd := by
  unfold State.afterWrite
  split <;> rfl
@[simp] theorem State.afterWrite_agc (s : State) (k : Nat) :
    (s.afterWrite k).agc = if k = 5 ∨ k = 6 then .reset s.params else s.agc := by
  unfold State.afterWrite
  split <;> rfl
@[simp] theorem State.afterWrite_dgc (s : State) (k : Nat) :
    (s.afterWrite k).dgc = s.dgc := by
  unfold State.afterWrite
  split <;> rfl
@[simp] theorem State.afterWrite_rsm (s : State) (k : Nat) :
    (s.afterWrite k).rsm = s.rsm := by
  unfold State.afterWrite
  split <;> rfl
@[simp] theorem State.afterWrite_syn (s : State) (k : Nat) :
    (s.afterWrite k).syn = s.syn := by
  unfold State.afterWrite
  split <;> rfl
@[simp] theorem State.afterWrite_status (s : State) (k : Nat) :
    (s.afterWrite k).status = s.status := by
  unfold State.afterWrite
  split <;> rfl
@[simp] theorem State.afterWrite_faultCode (s : State) (k : Nat) :
    (s.afterWrite k).faultCode = s.faultCode := by
  unfold State.afterWrite
  split <;> rfl
@[simp] theorem State.afterWrite_faultCmd (s : State) (k : Nat) :
    (s.afterWrite k).faultCmd = s.faultCmd := by
  unfold State.afterWrite
  split <;> rfl
@[simp] theorem State.afterWrite_cmd (s : State) (k : Nat) :
    (s.afterWrite k).cmd = s.cmd := by
  unfold State.afterWrite
  split <;> rfl
@[simp] theorem State.afterWrite_din (s : State) (k : Nat) :
    (s.afterWrite k).din = s.din := by
  unfold State.afterWrite
  split <;> rfl
@[simp] theorem State.afterWrite_dout (s : State) (k : Nat) :
    (s.afterWrite k).dout = s.dout := by
  unfold State.afterWrite
  split <;> rfl
@[simp] theorem State.afterWrite_evt (s : State) (k : Nat) :
    (s.afterWrite k).evt = s.evt := by
  unfold State.afterWrite
  split <;> rfl
@[simp] theorem State.afterWrite_ntf (s : State) (k : Nat) :
    (s.afterWrite k).ntf = s.ntf := by
  unfold State.afterWrite
  split <;> rfl
@[simp] theorem State.afterWrite_boundary (s : State) (k : Nat) :
    (s.afterWrite k).boundary = s.boundary := by
  unfold State.afterWrite
  split <;> rfl
@[simp] theorem State.afterWrite_nanCount (s : State) (k : Nat) :
    (s.afterWrite k).nanCount = s.nanCount := by
  unfold State.afterWrite
  split <;> rfl

/-! ### `trackerNotified` -/

@[simp] theorem State.trackerNotified_params (s : State) :
    (s.trackerNotified).params = s.params := rfl
@[simp] theorem State.trackerNotified_dcf (s : State) :
    (s.trackerNotified).dcf = s.dcf := rfl
@[simp] theorem State.trackerNotified_iqc (s : State) :
    (s.trackerNotified).iqc = s.iqc := rfl
@[simp] theorem State.trackerNotified_fmd (s : State) :
    (s.trackerNotified).fmd = s.fmd := rfl
@[simp] theorem State.trackerNotified_agc (s : State) :
    (s.trackerNotified).agc = s.agc := rfl
@[simp] theorem State.trackerNotified_dgc (s : State) :
    (s.trackerNotified).dgc = s.dgc := rfl
@[simp] theorem State.trackerNotified_rsm (s : State) :
    (s.trackerNotified).rsm = s.rsm := rfl
@[simp] theorem State.trackerNotified_syn (s : State) :
    (s.trackerNotified).syn = { s.syn with pending := 0 } := rfl
@[simp] theorem State.trackerNotified_status (s : State) :
    (s.trackerNotified).status = { s.status with resetPending := true, reqOutstanding := false } := rfl
@[simp] theorem State.trackerNotified_faultCode (s : State) :
    (s.trackerNotified).faultCode = s.faultCode := rfl
@[simp] theorem State.trackerNotified_faultCmd (s : State) :
    (s.trackerNotified).faultCmd = s.faultCmd := rfl
@[simp] theorem State.trackerNotified_cmd (s : State) :
    (s.trackerNotified).cmd = s.cmd := rfl
@[simp] theorem State.trackerNotified_din (s : State) :
    (s.trackerNotified).din = s.din := rfl
@[simp] theorem State.trackerNotified_dout (s : State) :
    (s.trackerNotified).dout = s.dout := rfl
@[simp] theorem State.trackerNotified_evt (s : State) :
    (s.trackerNotified).evt = s.evt := rfl
@[simp] theorem State.trackerNotified_ntf (s : State) :
    (s.trackerNotified).ntf = s.ntf := rfl
@[simp] theorem State.trackerNotified_boundary (s : State) :
    (s.trackerNotified).boundary = s.boundary := rfl
@[simp] theorem State.trackerNotified_nanCount (s : State) :
    (s.trackerNotified).nanCount = s.nanCount := rfl

/-! ### Results only grow -/

/-- A real on DOUT is one word more, of that value: a pattern, or some NaN. -/
theorem State.doutReal_dout (s : State) (v : F64) :
    ∃ w, (s.doutReal v).dout = s.dout ++ [w] := by
  cases v <;> exact ⟨_, rfl⟩

/-- Several reals on DOUT are as many words more. -/
theorem State.doutReals_dout (s : State) (vs : List F64) :
    ∃ ws, ws.length = vs.length ∧ (s.doutReals vs).dout = s.dout ++ ws := by
  induction vs generalizing s with
  | nil => exact ⟨[], rfl, (List.append_nil _).symm⟩
  | cons v vs ih =>
    obtain ⟨w, hw⟩ := s.doutReal_dout v
    obtain ⟨ws, hl, h⟩ := ih (s.doutReal v)
    refine ⟨w :: ws, by simp [hl], ?_⟩
    have : (s.doutReals (v :: vs)).dout = ((s.doutReal v).doutReals vs).dout := rfl
    rw [this, h, hw, List.append_assoc]
    rfl

end Sys2Proof.Machine
end

