-- ==== Sys2Proof/WellFormed.lean ====
section
/-! DEFINITION. When an operation is well-formed: its `ARG` names something the operation can act on
(spec/60_exceptions.md R231, the causes that rest on `ARG` alone). Every 16-bit `ARG` decodes (R85 (4)); an
ill-formed operation is a legal word that faults when it is executed. -/

namespace Sys2Proof

/-- `RSTU u` names a unit that can be reset: 1 to 10 (R102). -/
def unitInRange (u : Arg) : Bool := 1 ≤ u.toNat && u.toNat ≤ 10

/-- `RDP p` names a mapped parameter register: 0 to 25 (R40, R105). -/
def paramInRange (p : Arg) : Bool := p.toNat ≤ 25

/-- `WRP p` names a read-write parameter register: the `rw` rows of R40 (R103). -/
def paramWritable (p : Arg) : Bool :=
  [0, 1, 2, 3, 5, 6, 7, 8, 9, 10, 11, 24].contains p.toNat

/-- `RDS s` names a mapped state index: 0 to 22, 32 to 55 or 256 to 511 (R30, R68, R106). -/
def stateInRange (r : Arg) : Bool :=
  r.toNat ≤ 22 || (32 ≤ r.toNat && r.toNat ≤ 55) || (256 ≤ r.toNat && r.toNat ≤ 511)

/-- `INT.FIR k` names a row of `TAPS`: 0 to 128 (R173, R174). -/
def rowInRange (k : Arg) : Bool := k.toNat ≤ 128

/-- The checks on `ARG`, one per format A operation that restricts it; `DCF.BLOCK` and `DCF.BLOCKC` take every
count (R123, R124), and formats Z and N have no `ARG`. -/
def Instr.wellFormed : Instr → Bool
  | .nop => true
  | .rstall => true
  | .rstu u => unitInRange u
  | .wrp p => paramWritable p
  | .rdp p => paramInRange p
  | .rds r => stateInRange r
  | .pcmLd => true
  | .pcmLdc => true
  | .pcmSt => true
  | .dcfStep => true
  | .dcfStepc => true
  | .dcfBlock _ => true
  | .dcfBlockc _ => true
  | .iqcStep => true
  | .fmdStep => true
  | .amdStep => true
  | .agcStep => true
  | .dgcCorrect => true
  | .dgcInc => true
  | .dgcDec => true
  | .intFir k => rowInRange k
  | .intFirc k => rowInRange k
  | .intFirmu => true
  | .intFirmuc => true
  | .rsmPush => true
  | .rsmPushc => true
  | .synStep => true
  | .synEndbuf => true
  | .synAck => true
  | .synRate => true

end Sys2Proof
end

