-- ==== Sys2Proof/Laws/Ops.lean ====
section
/-! SUPPORT. What each shared operation can do, said once: provers cite these instead of unfolding it. -/

namespace Sys2Proof.Machine

open Sys2Proof

/-- Every outcome of the common order of checks (R99): discarded, a fault on `ARG`, a hold, or the transition. -/
theorem command_cases (i : Instr) (s : State) (body : State → List Word64 → Result) :
    (s.status.fault = true ∧ command i s body = .next s.retire) ∨
    (s.status.fault = false ∧ ∃ c, argFault i = some c ∧
      command i s body = .next (s.retire.raiseFault c (encode i))) ∨
    (s.holds i = true ∧ command i s body = .next s) ∨
    (s.Ready i ∧ command i s body = body (s.consume (dinWords i)) (s.din.take (dinWords i))) := by
  unfold command State.Ready State.holds
  cases hf : s.status.fault <;> simp
  cases ha : argFault i <;> simp
  by_cases hd : s.din.length < dinWords i <;> simp [hd]
  omega

/-- An operation that can start makes its transition. -/
theorem command_ready {i : Instr} {s : State} (h : s.Ready i) (body : State → List Word64 → Result) :
    command i s body = body (s.consume (dinWords i)) (s.din.take (dinWords i)) := by
  obtain ⟨hf, ha, hd⟩ := h
  simp [command, hf, ha, Nat.not_lt.mpr hd]

/-- An operation that holds changes nothing (R276). -/
theorem command_holds {i : Instr} {s : State} (h : s.holds i = true) (body : State → List Word64 → Result) :
    command i s body = .next s := by
  unfold State.holds at h
  simp only [Bool.and_eq_true, Bool.not_eq_true', Option.isNone_iff_eq_none, decide_eq_true_eq] at h
  obtain ⟨⟨hf, ha⟩, hd⟩ := h
  simp [command, hf, ha, hd]

/-- An operation met while a fault is recorded is discarded (R234). -/
theorem command_faulted {i : Instr} {s : State} (h : s.status.fault = true) (body : State → List Word64 → Result) :
    command i s body = .next s.retire := by
  simp [command, h]

/-- A next state of a command is one of four; the last is what its transition answers. -/
theorem command_next {i : Instr} {s t : State} {body : State → List Word64 → Result}
    (h : command i s body = .next t) :
    t = s.retire ∨ (∃ c, argFault i = some c ∧ t = s.retire.raiseFault c (encode i)) ∨ t = s ∨
      (s.Ready i ∧ body (s.consume (dinWords i)) (s.din.take (dinWords i)) = .next t) := by
  rcases command_cases i s body with ⟨-, e⟩ | ⟨-, c, hc, e⟩ | ⟨-, e⟩ | ⟨hr, e⟩ <;> rw [e] at h
  · exact .inl (by cases h; rfl)
  · exact .inr (.inl ⟨c, hc, by cases h; rfl⟩)
  · exact .inr (.inr (.inl (by cases h; rfl)))
  · exact .inr (.inr (.inr ⟨hr, h⟩))

/-- Every outcome of a notification (R234, R243). -/
theorem notification_cases (s : State) (body : State → Word64 → State) :
    (s.ntf = [] ∧ notification s body = .next s) ∨
    (∃ e rest, s.ntf = e :: rest ∧ s.status.fault = true ∧ notification s body = .next s.dropNtf) ∨
    (∃ e rest, s.ntf = e :: rest ∧ s.status.fault = false ∧
      notification s body = .next (body s.dropNtf e.operand)) := by
  unfold notification
  cases hn : s.ntf with
  | nil => simp
  | cons e rest => cases hf : s.status.fault <;> simp

/-- Every outcome of a register read (R105, R106). -/
theorem readOut_cases (i : Instr) (v : Option RegValue) (s : State) :
    (v = none ∧ readOut i v s = .next (s.retire.raiseFault .badOperand (encode i))) ∨
    (∃ x, v = some x ∧ readOut i v s = .next (s.retire.doutReg x)) := by
  cases v with
  | none => exact .inl ⟨rfl, rfl⟩
  | some x => exact .inr ⟨x, rfl, rfl⟩

/-- Every outcome of the output loop of a push (R181). -/
theorem resample_cases (t : Taps) (s : State) (ws : List (Vector F64 8)) :
    (resampleLoop t ws s.params.rsStep 256 s.rsm.pos = none ∧ resample t s ws = .fault .resamplerLoopUnbounded) ∨
    (∃ out pos, resampleLoop t ws s.params.rsStep 256 s.rsm.pos = some (out, pos) ∧
      resample t s ws = .next ({ s with rsm := { s.rsm with pos := pos.sub .one } }.doutReals out)) := by
  unfold resample
  cases h : resampleLoop t ws s.params.rsStep 256 s.rsm.pos with
  | none => exact .inl ⟨rfl, rfl⟩
  | some r => exact .inr ⟨r.1, r.2, rfl, rfl⟩

/-- What a register on DOUT leaves alone: everything but DOUT and the count of NaN words. -/
theorem State.doutReg_frame (s : State) (v : RegValue) :
    ∃ w n, s.doutReg v = { s with dout := s.dout ++ [w], nanCount := n } := by
  cases v with
  | real v => cases v <;> exact ⟨_, _, rfl⟩
  | int32 v => exact ⟨_, s.nanCount, rfl⟩
  | word w => exact ⟨w, s.nanCount, rfl⟩

/-- What reals on DOUT leave alone: everything but DOUT and the count of NaN words. -/
theorem State.doutReals_frame (s : State) (vs : List F64) :
    ∃ ws n, s.doutReals vs = { s with dout := s.dout ++ ws, nanCount := n } := by
  induction vs generalizing s with
  | nil => exact ⟨[], s.nanCount, by simp [State.doutReals]⟩
  | cons v vs ih =>
    obtain ⟨ws, n, h⟩ := ih (s.doutReal v)
    have e : s.doutReals (v :: vs) = (s.doutReal v).doutReals vs := rfl
    cases v with
    | nan => exact ⟨nanWord s.nanCount :: ws, n, by rw [e, h]; simp [State.doutReal, State.pushWord]⟩
    | inf b => exact ⟨F64.pattern b infMag :: ws, n, by rw [e, h]; simp [State.doutReal, State.pushWord]⟩
    | fin b m => exact ⟨F64.pattern b m.val :: ws, n, by rw [e, h]; simp [State.doutReal, State.pushWord]⟩

/-- A step is the turn of one agent, on the state or on the state with one more contested boundary (R71, R243). -/
theorem step_cases (s : State) :
    step s = stepCommand s ∨ step s = stepNotification s ∨
      (s.ntf ≠ [] ∧ s.commandReady = true ∧
        step s = stepOf (Config.arbiter s.boundary) { s with boundary := s.boundary + 1 }) := by
  unfold step stepBoundary
  cases hn : s.ntf with
  | nil => exact .inl (by simp)
  | cons e rest =>
    cases hc : s.commandReady with
    | false => exact .inr (.inl (by simp))
    | true => exact .inr (.inr ⟨by simp, rfl, by simp⟩)

/-- The check on `ARG` passes exactly for the well-formed operations (R99 (3), R231). -/
theorem argFault_none_iff (i : Instr) : argFault i = none ↔ i.wellFormed = true := by
  cases i <;> simp [argFault, Instr.wellFormed]
  case rstu u =>
    have := u.isLt
    simp [unitInRange]
    omega
  case wrp p =>
    simp only [paramReadOnly, paramWritable]
    generalize p.toNat = n
    by_cases h : n ≤ 25
    · interval_cases n <;> decide
    · have h' : 25 < n := by omega
      simp [h']
      refine ⟨?_, ?_⟩ <;> omega
  case rdp p => simp [paramInRange]
  case rds r =>
    simp [stateInRange]
    omega
  case intFir k => simp [rowInRange]
  case intFirc k => simp [rowInRange]

end Sys2Proof.Machine
end

