-- ==== Sys2Proof/Laws/PerInstr.lean ====
section
/-! SUPPORT. A statement made of each operation as syntax: its word has `RSV` = 0 (spec/30_encoding.md R81). -/

namespace Sys2Proof.Laws

open Sys2Proof

def ReservedZero.Statement (i : Instr) : Prop := rsvField (encode i) = 0

theorem ReservedZero.nop : ReservedZero.Statement .nop := rsvField_wordOf _ _ _

theorem ReservedZero.rstall : ReservedZero.Statement .rstall := rsvField_wordOf _ _ _

theorem ReservedZero.rstu (x : Arg) : ReservedZero.Statement (.rstu x) := rsvField_wordOf _ _ _

theorem ReservedZero.wrp (x : Arg) : ReservedZero.Statement (.wrp x) := rsvField_wordOf _ _ _

theorem ReservedZero.rdp (x : Arg) : ReservedZero.Statement (.rdp x) := rsvField_wordOf _ _ _

theorem ReservedZero.rds (x : Arg) : ReservedZero.Statement (.rds x) := rsvField_wordOf _ _ _

theorem ReservedZero.pcmLd : ReservedZero.Statement .pcmLd := rsvField_wordOf _ _ _

theorem ReservedZero.pcmLdc : ReservedZero.Statement .pcmLdc := rsvField_wordOf _ _ _

theorem ReservedZero.pcmSt : ReservedZero.Statement .pcmSt := rsvField_wordOf _ _ _

theorem ReservedZero.dcfStep : ReservedZero.Statement .dcfStep := rsvField_wordOf _ _ _

theorem ReservedZero.dcfStepc : ReservedZero.Statement .dcfStepc := rsvField_wordOf _ _ _

theorem ReservedZero.dcfBlock (x : Arg) : ReservedZero.Statement (.dcfBlock x) := rsvField_wordOf _ _ _

theorem ReservedZero.dcfBlockc (x : Arg) : ReservedZero.Statement (.dcfBlockc x) := rsvField_wordOf _ _ _

theorem ReservedZero.iqcStep : ReservedZero.Statement .iqcStep := rsvField_wordOf _ _ _

theorem ReservedZero.fmdStep : ReservedZero.Statement .fmdStep := rsvField_wordOf _ _ _

theorem ReservedZero.amdStep : ReservedZero.Statement .amdStep := rsvField_wordOf _ _ _

theorem ReservedZero.agcStep : ReservedZero.Statement .agcStep := rsvField_wordOf _ _ _

theorem ReservedZero.dgcCorrect : ReservedZero.Statement .dgcCorrect := rsvField_wordOf _ _ _

theorem ReservedZero.dgcInc : ReservedZero.Statement .dgcInc := rsvField_wordOf _ _ _

theorem ReservedZero.dgcDec : ReservedZero.Statement .dgcDec := rsvField_wordOf _ _ _

theorem ReservedZero.intFir (x : Arg) : ReservedZero.Statement (.intFir x) := rsvField_wordOf _ _ _

theorem ReservedZero.intFirc (x : Arg) : ReservedZero.Statement (.intFirc x) := rsvField_wordOf _ _ _

theorem ReservedZero.intFirmu : ReservedZero.Statement .intFirmu := rsvField_wordOf _ _ _

theorem ReservedZero.intFirmuc : ReservedZero.Statement .intFirmuc := rsvField_wordOf _ _ _

theorem ReservedZero.rsmPush : ReservedZero.Statement .rsmPush := rsvField_wordOf _ _ _

theorem ReservedZero.rsmPushc : ReservedZero.Statement .rsmPushc := rsvField_wordOf _ _ _

theorem ReservedZero.synStep : ReservedZero.Statement .synStep := rsvField_wordOf _ _ _

theorem ReservedZero.synEndbuf : ReservedZero.Statement .synEndbuf := rsvField_wordOf _ _ _

theorem ReservedZero.synAck : ReservedZero.Statement .synAck := rsvField_wordOf _ _ _

theorem ReservedZero.synRate : ReservedZero.Statement .synRate := rsvField_wordOf _ _ _

end Sys2Proof.Laws
end

