-- ==== Sys2Proof/Laws/Run.lean ====
section
/-! SUPPORT. What a run of turns can do, said once: what its turns keep, when it answers, that it is done, and that
every command that does not hold is taken. -/

namespace Sys2Proof.Machine

open Sys2Proof

/-- Going on from `r` gives a next state exactly where `r` does and the rest does from there. -/
theorem andThen_eq_next {α : Type} {r : Result} {f : State → Host.Outcome α Fault Refusal} {a : α} :
    andThen r f = .next a ↔ ∃ s, r = .next s ∧ f s = .next a := by
  cases r <;> simp [andThen]

@[simp] theorem andThen_next {α : Type} (s : State) (f : State → Host.Outcome α Fault Refusal) :
    andThen (.next s) f = f s := rfl

/-- A turn that is not asked for is not taken. -/
theorem turns_of_not_more {more : State → Bool} {s : State} (h : more s = false) (turn : State → Result) (n : Nat) :
    turns more turn n s = .next s := by
  cases n <;> simp [turns, h]

/-- What every turn keeps, the run keeps. -/
theorem turns_keep {more : State → Bool} {turn : State → Result} {P : State → Prop}
    (keep : ∀ s t, P s → more s = true → turn s = .next t → P t) {n : Nat} {s t : State} (hs : P s)
    (h : turns more turn n s = .next t) : P t := by
  induction n generalizing s with
  | zero => cases h; exact hs
  | succ n ih =>
    rw [turns] at h
    split at h
    · next hm =>
      obtain ⟨s', h1, h2⟩ := andThen_eq_next.1 h
      exact ih (keep s s' hs hm h1) h2
    · cases h; exact hs

/-- Where every turn that is asked for answers a next state, and the next one may be asked there, the run answers. -/
theorem turns_answer {more : State → Bool} {turn : State → Result} {P : State → Prop}
    (go : ∀ s, P s → more s = true → ∃ t, turn s = .next t ∧ P t) (n : Nat) {s : State} (hs : P s) :
    ∃ t, turns more turn n s = .next t ∧ P t := by
  induction n generalizing s with
  | zero => exact ⟨s, rfl, hs⟩
  | succ n ih =>
    rw [turns]
    split
    · next hm =>
      obtain ⟨s', h1, h2⟩ := go s hs hm
      rw [h1]
      exact ih h2
    · exact ⟨s, rfl, hs⟩

/-- Where every turn makes a measure smaller, and none is asked for at measure 0, as many turns as the measure counts
are enough. -/
theorem turns_done {more : State → Bool} {turn : State → Result} {size : State → Nat}
    (pos : ∀ s, more s = true → 0 < size s) (dec : ∀ s t, more s = true → turn s = .next t → size t < size s)
    {n : Nat} {s t : State} (hn : size s ≤ n) (h : turns more turn n s = .next t) : more t = false := by
  induction n generalizing s with
  | zero =>
    have e : s = t := by cases h; rfl
    subst e
    by_contra hm
    have := pos s (by simpa using hm)
    omega
  | succ n ih =>
    rw [turns] at h
    split at h
    · next hm =>
      obtain ⟨s', h1, h2⟩ := andThen_eq_next.1 h
      have := dec s s' hm h1
      exact ih (by omega) h2
    · next hm => cases h; simpa using hm

/-- A run of conditional turns is one of at most as many unconditional ones. -/
theorem turns_eq_steps {more : State → Bool} {n : Nat} {s t : State} (h : turns more step n s = .next t) :
    ∃ k ≤ n, steps k s = .next t := by
  induction n generalizing s with
  | zero => exact ⟨0, le_rfl, h⟩
  | succ n ih =>
    rw [turns] at h
    split at h
    · obtain ⟨s', h1, h2⟩ := andThen_eq_next.1 h
      obtain ⟨k, hk, h3⟩ := ih h2
      refine ⟨k + 1, by omega, ?_⟩
      rw [steps, turns, if_pos rfl, h1]
      exact h3
    · exact ⟨0, by omega, h⟩

/-! ### A command that does not hold leaves CMD -/

/-- A command whose transition keeps CMD takes its own word, unless it holds. -/
theorem command_takes {i : Instr} {s t : State} {body : State → List Word64 → Result}
    (hb : ∀ s d t, body s d = .next t → t.cmd = s.cmd) (hh : s.holds i = false)
    (h : command i s body = .next t) : t.cmd = s.cmd.tail := by
  rcases command_cases i s body with ⟨-, e⟩ | ⟨-, c, -, e⟩ | ⟨h', -⟩ | ⟨-, e⟩
  · rw [e] at h; cases h; rfl
  · rw [e] at h; cases h; unfold State.raiseFault; split <;> rfl
  · rw [h'] at hh; cases hh
  · rw [e] at h; exact hb _ _ _ h

/-- The resampler keeps CMD. -/
theorem resample_cmd {t : Taps} {s s' : State} {ws : List (Vector F64 8)} (h : resample t s ws = .next s') :
    s'.cmd = s.cmd := by
  rcases resample_cases t s ws with ⟨-, e⟩ | ⟨out, pos, -, e⟩
  · rw [e] at h; cases h
  · rw [e] at h; cases h; simp

/-- A register read takes its own word. -/
theorem readOut_cmd {i : Instr} {v : Option RegValue} {s t : State} (h : readOut i v s = .next t) :
    t.cmd = s.cmd.tail := by
  rcases readOut_cases i v s with ⟨-, e⟩ | ⟨x, -, e⟩ <;> rw [e] at h <;> cases h
  · unfold State.raiseFault; split <;> rfl
  · obtain ⟨w, n, e⟩ := State.doutReg_frame s.retire x
    rw [e]; rfl

/-- Steps 1 to 3 of `SYN.STEP` keep CMD. -/
theorem synIntake_cmd (s : State) (x : F64) : (synIntake s x).cmd = s.cmd := by
  unfold synIntake synTrackerReset
  dsimp only
  split <;> simp

/-- `SYN.STEP` keeps CMD. -/
theorem synStepWith_cmd (t : Taps) (s : State) (x : F64) : (synStepWith t s x).cmd = s.cmd := by
  unfold synStepWith
  split
  · simp [synSymbolStep, synIntake_cmd]
  · exact synIntake_cmd s x

/-- A command that does not hold is taken from CMD, whatever comes of it: run, discarded or faulted. -/
theorem exec_takes {i : Instr} {s t : State} (hp : i.port = .cmd) (hh : s.holds i = false)
    (h : exec i s = .next t) : t.cmd = s.cmd.tail := by
  cases i
  case synAck => cases hp
  case synRate => cases hp
  case nop => cases h; rfl
  case rstall => cases h; rfl
  case rdp p => exact readOut_cmd h
  case rds r => exact readOut_cmd h
  all_goals
    unfold exec at h
    first
      | exact command_takes (fun s d t hb => (resample_cmd hb).trans (by simp)) hh h
      | unfold execSynStep at h
        exact command_takes (fun s d t hb => by cases hb; exact synStepWith_cmd ..) hh h
      | skip
  all_goals
    simp only [execRstu, execWrp, execPcmLd, execPcmLdc, execPcmSt, execDcfStep, execDcfStepc, execDcfBlock,
      execDcfBlockc, execIqcStep, execFmdStep, execAmdStep, execAgcStep, execDgcCorrect, execDgcInc, execDgcDec,
      execIntFir, execIntFirc, execIntFirmu, execIntFirmuc, execSynEndbuf] at h
    refine command_takes (fun s d t hb => ?_) hh h
    first
      | (cases hb; simp)
      | (split at hb <;> cases hb <;> simp)
      | (cases hb; unfold State.resetUnit; split <;> rfl)
      | (cases hb; unfold synEndbuf; dsimp only; split <;> [rfl; (split <;> rfl)])

end Sys2Proof.Machine
end

