-- ==== Sys2Proof/Laws/Sync.lean ====
section
/-! SUPPORT. The classification steps of the synchronizer as tests in order (spec/45_sync.md R199, R200). -/

namespace Sys2Proof.Machine

open Sys2Proof

/-- The symbol error, by the tests of R199. -/
theorem synError_eq (sp a : F64) : synError sp a =
    if F64.lt a sp.neg = true then a.add ((F64.lit 3 2).mul sp)
    else if F64.lt a .zero = true then a.add (F64.half.mul sp)
    else if F64.lt a sp = true then a.sub (F64.half.mul sp)
    else a.sub ((F64.lit 3 2).mul sp) := by
  unfold synError synRegion
  cases F64.lt a sp.neg <;> cases F64.lt a .zero <;> cases F64.lt a sp <;> rfl

/-- The spread before its clamp, by the tests of R199. -/
theorem synSpread_eq (p : Params) (sp a : F64) : synSpread p sp a =
    if F64.lt a sp.neg = true then sp.sub ((synError sp a).mul (F64.half.mul p.kSymbolSpread))
    else if F64.lt a .zero = true then sp.sub ((synError sp a).mul p.kSymbolSpread)
    else if F64.lt a sp = true then sp.add ((synError sp a).mul p.kSymbolSpread)
    else sp.add ((synError sp a).mul (F64.half.mul p.kSymbolSpread)) := by
  unfold synSpread synRegion
  cases F64.lt a sp.neg <;> cases F64.lt a .zero <;> cases F64.lt a sp <;> rfl

end Sys2Proof.Machine
end

