-- ==== Sys2Proof/Machine/Assembler.lean ====
section
/-! DEFINITION. The assembler syntax of the spec's programs (spec/30_encoding.md R91, R92): one line of text to the
lines it stands for. The block itself reads no text; the host's programs are written so. -/

namespace Sys2Proof.Machine

open Sys2Proof

/-! ### Names -/

/-- The operations without an argument that stand on a line of their own (R84). -/
def plainMnemonics : List (String × Instr) :=
  [("NOP", .nop), ("RSTALL", .rstall), ("PCM.LD", .pcmLd), ("PCM.LDC", .pcmLdc), ("PCM.ST", .pcmSt),
    ("DCF.STEP", .dcfStep), ("DCF.STEPC", .dcfStepc), ("IQC.STEP", .iqcStep), ("FMD.STEP", .fmdStep),
    ("AMD.STEP", .amdStep), ("AGC.STEP", .agcStep), ("DGC.CORRECT", .dgcCorrect), ("DGC.INC", .dgcInc),
    ("DGC.DEC", .dgcDec), ("INT.FIRMU", .intFirmu), ("INT.FIRMUC", .intFirmuc), ("RSM.PUSH", .rsmPush),
    ("RSM.PUSHC", .rsmPushc), ("SYN.STEP", .synStep), ("SYN.ENDBUF", .synEndbuf)]

/-- The parameter register names in the order of their indices (R40). -/
def parameterNames : List String :=
  ["DC_RATIO", "IQ_RATIO", "FM_GAIN", "AM_GAIN", "AGC_OBJECTIVE", "AGC_FLOOR", "AGC_WINDOW", "DGC_INIT", "DGC_MIN",
    "DGC_MAX", "DGC_STEP", "RS_STEP", "PCM_SCALE", "SAMPLE_RATE", "SYMBOL_RATE", "K_SYMBOL_SPREAD",
    "K_SYMBOL_TIMING", "K_COARSE_FREQUENCY", "K_FINE_FREQUENCY", "SPREAD_NOMINAL", "SPREAD_MIN", "SPREAD_MAX",
    "COARSE_THRESHOLD", "REQ_STEP_HZ", "MAX_CORRECTION_HZ", "SYMBOL_STEP"]

/-- The state register names in the order of their indices 0 to 22 (R30). -/
def stateNames : List String :=
  ["dc_avg_i", "dc_avg_q", "iq_pii", "iq_pqq", "iq_piq", "fm_prev_i", "fm_prev_q", "agc_gain", "agc_max", "agc_idx",
    "dgc_gain", "rs_pos", "syn_clock", "syn_spread", "syn_coarse", "syn_fine", "syn_hidx", "syn_err", "syn_pending",
    "syn_acked", "status", "fault_code", "fault_cmd"]

/-- The index of a name in a list of names. -/
def nameIndex : List String → List Char → Option Nat
  | [], _ => none
  | n :: rest, t => if n.toList = t then some 0 else (nameIndex rest t).map (· + 1)

/-! ### Numbers -/

/-- The value of a digit, letters counting from 10. -/
def digitValue (c : Char) : Option Nat :=
  let n := c.toNat
  if 48 ≤ n ∧ n ≤ 57 then some (n - 48)
  else if 65 ≤ n ∧ n ≤ 70 then some (n - 55)
  else if 97 ≤ n ∧ n ≤ 102 then some (n - 87)
  else none

/-- Digits in a base, most significant first, after `acc`. -/
def digits (base : Nat) : Nat → List Char → Option Nat
  | acc, [] => some acc
  | acc, c :: rest =>
    match digitValue c with
    | none => none
    | some d => if d < base then digits base (acc * base + d) rest else none

/-- An unsigned number: decimal, or hexadecimal after `0x`. -/
def parseNat (t : List Char) : Option Nat :=
  match t with
  | [] => none
  | '0' :: 'x' :: c :: rest => digits 16 0 (c :: rest)
  | _ => digits 10 0 t

/-- A sign in front, if any: whether it is a minus, and what follows. -/
def splitSign : List Char → Bool × List Char
  | '-' :: rest => (true, rest)
  | '+' :: rest => (false, rest)
  | t => (false, t)

/-- The part before the first `c`, and the part after it where there is one. -/
def splitAtChar (c : Char) : List Char → List Char × Option (List Char)
  | [] => ([], none)
  | x :: rest =>
    if x = c then ([], some rest)
    else
      let r := splitAtChar c rest
      (x :: r.1, r.2)

/-- A signed decimal integer. -/
def parseInt (t : List Char) : Option Int :=
  match splitSign t with
  | (_, []) => none
  | (neg, u) => (digits 10 0 u).map fun n => if neg then -(n : Int) else (n : Int)

/-- The pattern of a real that is not NaN. -/
def F64.toWord : F64 → Word64
  | .nan => 0x7FF8000000000000
  | .inf neg => F64.pattern neg infMag
  | .fin neg mag => F64.pattern neg mag.val

/-- A real in decimal, with a point or an exponent: the pattern of the binary64 nearest to it (R10). -/
def parseReal (t : List Char) : Option Word64 :=
  let (neg, u) := splitSign t
  let (mantissa, exponent) := splitAtChar 'e' u
  let (whole, fraction) := splitAtChar '.' mantissa
  let f := fraction.getD []
  if whole.isEmpty && f.isEmpty then none
  else
    match digits 10 0 (whole ++ f), (match exponent with | none => some 0 | some e => parseInt e) with
    | some n, some e =>
      let e' := e - (f.length : Int)
      some (F64.toWord (F64.roundUnits neg (n * 10 ^ e'.toNat * 2 ^ 1074) (10 ^ (-e').toNat)))
    | _, _ => none

/-- A data word of a `.din` line: a `0x` pattern; a decimal with a point or an exponent, which is a real; else a
decimal integer, which is an int32 or a pcm16. -/
def parseData (t : List Char) : Option Word64 :=
  match t with
  | '0' :: 'x' :: _ => (parseNat t).bind fun n => if n < 2 ^ 64 then some (BitVec.ofNat 64 n) else none
  | _ =>
    if t.contains '.' || t.contains 'e' then parseReal t
    else (parseInt t).map fun n => (BitVec.ofInt 32 n).zeroExtend 64

/-! ### Lines -/

/-- A line without its comment. -/
def stripComment (t : List Char) : List Char := (splitAtChar ';' t).1

/-- The words of a line: what stands between spaces and commas. -/
def wordsOf : List Char → List (List Char)
  | [] => []
  | c :: rest =>
    if c = ' ' ∨ c = ',' ∨ c = '\t' then [] :: wordsOf rest
    else
      match wordsOf rest with
      | [] => [[c]]
      | w :: ws => (c :: w) :: ws

/-- An argument: a number, or a register name in place of its index. -/
def parseArg (names : List String) (t : List Char) : Option Arg :=
  match nameIndex names t with
  | some k => some (BitVec.ofNat 16 k)
  | none => (parseNat t).bind fun n => if n < 2 ^ 16 then some (BitVec.ofNat 16 n) else none

/-- An operation with an argument (R84). -/
def parseArgOperation (m a : List Char) : Option Instr :=
  if m = "RSTU".toList then (parseArg [] a).map .rstu
  else if m = "WRP".toList then (parseArg parameterNames a).map .wrp
  else if m = "RDP".toList then (parseArg parameterNames a).map .rdp
  else if m = "RDS".toList then (parseArg stateNames a).map .rds
  else if m = "DCF.BLOCK".toList then (parseArg [] a).map .dcfBlock
  else if m = "DCF.BLOCKC".toList then (parseArg [] a).map .dcfBlockc
  else if m = "INT.FIR".toList then (parseArg [] a).map .intFir
  else if m = "INT.FIRC".toList then (parseArg [] a).map .intFirc
  else none

/-- A pseudo-operation with a count (R92). -/
def parseBatch (m a : List Char) : Option Pseudo :=
  (parseNat a).bind fun n =>
    if m = "DCF.BUF".toList then some (.dcfBuf n)
    else if m = "DCF.BUFC".toList then some (.dcfBufc n)
    else if m = "IQC.BUF".toList then some (.iqcBuf n)
    else if m = "FMD.BUF".toList then some (.fmdBuf n)
    else if m = "AMD.BUF".toList then some (.amdBuf n)
    else if m = "AGC.BUF".toList then some (.agcBuf n)
    else if m = "RSM.BUF".toList then some (.rsmBuf n)
    else if m = "RSM.BUFC".toList then some (.rsmBufc n)
    else if m = "SYN.BUF".toList then some (.synBuf n)
    else none

/-- An operation without an argument. -/
def parsePlain : List (String × Instr) → List Char → Option Instr
  | [], _ => none
  | (n, i) :: rest, t => if n.toList = t then some i else parsePlain rest t

/-- Data words, all of which must be read. -/
def parseAll : List (List Char) → Option (List Word64)
  | [] => some []
  | t :: rest =>
    match parseData t, parseAll rest with
    | some w, some ws => some (w :: ws)
    | _, _ => none

/-- The words of a line to the lines it stands for. -/
def parseWords : List (List Char) → Option (List Line)
  | [] => some []
  | [m] =>
    if m = "FMD.RESET".toList then some (Pseudo.expand .fmdReset)
    else if m = "DGC.RESET".toList then some (Pseudo.expand .dgcReset)
    else (parsePlain plainMnemonics m).map fun i => [.op i]
  | m :: a :: rest =>
    if m = ".din".toList then (parseAll (a :: rest)).map fun ws => [.din ws]
    else
      match rest with
      | [] =>
        if m = ".ntf".toList then
          if a = "SYN.RATE".toList then some [.ntf ⟨encode .synRate, 0⟩] else none
        else
          match parseArgOperation m a with
          | some i => some [.op i]
          | none => (parseBatch m a).map Pseudo.expand
      | [v] =>
        if m = ".ntf".toList ∧ a = "SYN.ACK".toList then
          (parseInt v).map fun n => [.ntf ⟨encode .synAck, (BitVec.ofInt 32 n).zeroExtend 64⟩]
        else if m = "SETP".toList then
          match parseArg parameterNames a, parseData v with
          | some p, some w => some (Pseudo.expand (.setp p w))
          | _, _ => none
        else none
      | _ => none

/-- One line of a program: the lines it stands for, none for a comment or an empty line; `none` where it is no line
of the syntax. -/
def parseLine (text : String) : Option (List Line) :=
  parseWords ((wordsOf (stripComment text.toList)).filter fun w => !w.isEmpty)

end Sys2Proof.Machine
end

