-- ==== Sys2Proof/Tests/Slice0.lean ====
section
/-! SUPPORT. Tests: the words of spec/30_encoding.md R84, the vectors of spec/95_test_vectors.md one step each, and
for every statement with hypotheses a state that meets them. Coefficients are those of the fixture of R178. -/

namespace Sys2Proof.Tests

open Sys2Proof Sys2Proof.Machine

set_option Elab.async false

/-! ### Decoding: every word written out from R81 and R84 (`UNIT`, `OP`, `RSV`, `ARG`) -/

theorem test_decode_sys :
    decode .cmd 0b00000000000000000000000000000000 = .ok .nop ∧
    decode .cmd 0b00000001000000000000000000000000 = .ok .rstall ∧
    decode .cmd 0b00000010000000000000000000001010 = .ok (.rstu 10) ∧
    decode .cmd 0b00000011000000000000000000000110 = .ok (.wrp 6) ∧
    decode .cmd 0b00000100000000000000000000011001 = .ok (.rdp 25) ∧
    decode .cmd 0b00000101000000000000000111111111 = .ok (.rds 511) := by decide +kernel

theorem test_decode_pcm :
    decode .cmd 0b00010000000000000000000000000000 = .ok .pcmLd ∧
    decode .cmd 0b00010001000000000000000000000000 = .ok .pcmLdc ∧
    decode .cmd 0b00010010000000000000000000000000 = .ok .pcmSt := by decide +kernel

theorem test_decode_dcf :
    decode .cmd 0b00100000000000000000000000000000 = .ok .dcfStep ∧
    decode .cmd 0b00100001000000000000000000000000 = .ok .dcfStepc ∧
    decode .cmd 0b00100010000000001111111111111111 = .ok (.dcfBlock 65535) ∧
    decode .cmd 0b00100011000000000000000000000010 = .ok (.dcfBlockc 2) := by decide +kernel

theorem test_decode_iqc_fmd_amd_agc :
    decode .cmd 0b00110000000000000000000000000000 = .ok .iqcStep ∧
    decode .cmd 0b01000000000000000000000000000000 = .ok .fmdStep ∧
    decode .cmd 0b01010000000000000000000000000000 = .ok .amdStep ∧
    decode .cmd 0b01100000000000000000000000000000 = .ok .agcStep := by decide +kernel

theorem test_decode_dgc :
    decode .cmd 0b01110000000000000000000000000000 = .ok .dgcCorrect ∧
    decode .cmd 0b01110001000000000000000000000000 = .ok .dgcInc ∧
    decode .cmd 0b01110010000000000000000000000000 = .ok .dgcDec := by decide +kernel

theorem test_decode_int :
    decode .cmd 0b10000000000000000000000001000000 = .ok (.intFir 64) ∧
    decode .cmd 0b10000001000000000000000010000000 = .ok (.intFirc 128) ∧
    decode .cmd 0b10000010000000000000000000000000 = .ok .intFirmu ∧
    decode .cmd 0b10000011000000000000000000000000 = .ok .intFirmuc := by decide +kernel

theorem test_decode_rsm :
    decode .cmd 0b10010000000000000000000000000000 = .ok .rsmPush ∧
    decode .cmd 0b10010001000000000000000000000000 = .ok .rsmPushc := by decide +kernel

theorem test_decode_syn :
    decode .cmd 0b10100000000000000000000000000000 = .ok .synStep ∧
    decode .cmd 0b10100001000000000000000000000000 = .ok .synEndbuf := by decide +kernel

theorem test_decode_ntf :
    decode .ntf 0b10101000000000000000000000000000 = .ok .synAck ∧
    decode .ntf 0b10101001000000000000000000000000 = .ok .synRate := by decide +kernel

/-- Program text (R91, R92): a register name for its index, data words, a pseudo-operation. -/
theorem test_assembler_operations : parseLine "WRP DC_RATIO  ; 0x0300" = some [.op (.wrp 0)] ∧
    parseLine "RDS syn_spread" = some [.op (.rds 13)] ∧ parseLine "RSTU 4" = some [.op (.rstu 4)] ∧
    parseLine "SYN.BUF 2" = some [.op .synStep, .op .synStep, .op .synEndbuf] ∧
    parseLine "RSTU FOUR" = none := by decide +kernel

theorem test_assembler_data :
    parseLine ".din 0.1, -500, 0x4000" = some [.din [0x3FB999999999999A, 0xFFFFFE0C, 0x4000]] ∧
    parseLine "SETP RS_STEP, 0.75" = some [.din [0x3FE8000000000000], .op (.wrp 11)] ∧
    parseLine ".ntf SYN.ACK 500" = some [.ntf ⟨0xA8000000, 500⟩] := by decide +kernel

/-- The fault rows of the decoding table: each illegal word, with the reason the decoder meets first. -/
theorem test_decode_illegal :
    decode .cmd 0x00000001 = .error .nonzeroArgument ∧ decode .cmd 0x00010000 = .error .reservedBits ∧
    decode .cmd 0x06000000 = .error .noSuchOperation ∧ decode .cmd 0xB0000000 = .error .noSuchOperation ∧
    decode .cmd 0xA8000000 = .error .wrongPort ∧ decode .cmd 0x800100FF = .error .reservedBits ∧
    decode .ntf 0xA9000001 = .error .nonzeroArgument ∧ decode .ntf 0xA0000000 = .error .wrongPort := by
  decide +kernel

theorem test_table_word : decodeTableWord 32 0x03000006 = some (.wrp 6) ∧ decodeTableWord 32 0xA8000000 = some .synAck ∧
    decodeTableWord 32 0xA8000001 = none := by decide +kernel

/-! ### WellFormed: one ill-formed term per check, and the last one that passes -/

theorem test_unitInRange : (Instr.rstu 0).wellFormed = false ∧ (Instr.rstu 11).wellFormed = false ∧
    (Instr.rstu 10).wellFormed = true := by decide +kernel

theorem test_paramWritable : (Instr.wrp 4).wellFormed = false ∧ (Instr.wrp 26).wellFormed = false ∧
    (Instr.wrp 24).wellFormed = true := by decide +kernel

theorem test_paramInRange : (Instr.rdp 26).wellFormed = false ∧ (Instr.rdp 25).wellFormed = true := by
  decide +kernel

theorem test_stateInRange : (Instr.rds 23).wellFormed = false ∧ (Instr.rds 56).wellFormed = false ∧
    (Instr.rds 512).wellFormed = false ∧ (Instr.rds 511).wellFormed = true := by decide +kernel

theorem test_rowInRange : (Instr.intFir 129).wellFormed = false ∧ (Instr.intFirc 129).wellFormed = false ∧
    (Instr.intFir 128).wellFormed = true := by decide +kernel

/-! ### One step on a small state -/

/-- The next state of a result. -/
def nextOf : Result → Option State
  | .next s => some s
  | .fault _ => none
  | .refused _ => none

/-- The state after a step that takes `i` from CMD with the words `d` on DIN. -/
def after (i : Instr) (d : List Word64) (s : State := .reset) : Option State :=
  nextOf (step { s with cmd := [encode i], din := d })

/-- What the step puts on DOUT. -/
def out (i : Instr) (d : List Word64) (s : State := .reset) : Option (List Word64) := (after i d s).map State.dout

/-- Power-on reset with other parameters. -/
def withParams (f : Params → Params) : State := { State.reset with params := f State.reset.params }

/-- The same, with the ratio 0.25 in DCF. -/
def quarter : State := withParams fun p => { p with dcRatio := .lit 1 4 }

def nanBits : Word64 := 0x7FF8000000000000

theorem test_nop : after .nop [7] = some { State.reset with din := [7] } := by decide +kernel

theorem test_rstall : after .rstall [7] { State.reset with
    status := ⟨true, true, true, true⟩, faultCode := .badConfig, faultCmd := 9, fmd := ⟨.one, .one⟩, dout := [5] } =
    some { State.reset with dout := [5] } := by decide +kernel

theorem test_rstu :
    (after (.rstu 4) [] { State.reset with fmd := ⟨.half, .one⟩, dgc := ⟨.one⟩ }).map
    (fun t => (t.fmd, t.dgc)) = some (⟨.zero, .zero⟩, ⟨.one⟩) := by decide +kernel

theorem test_rstu_bad :
    (after (.rstu 11) [7]).map (fun t => (t.faultCode, t.faultCmd, t.din)) =
    some (.badOperand, 0x0200000B, [7]) := by decide +kernel

theorem test_wrp_floor :
    (after (.wrp 5) [0x3F50624DD2F1A9FC]).map (fun t => (t.params.agcFloor, t.agc.gain, t.din)) =
    some (.ofBits 0x3F50624DD2F1A9FC, .ofBits 0x408F400000000000, []) := by decide +kernel

theorem test_wrp_illegal_value :
    (after (.wrp 0) [0x3FF0000000000001]).map (fun t => (t.faultCode, t.faultCmd, t.din, t.params)) =
    some (.badConfig, 0x03000000, [], State.reset.params) := by decide +kernel

theorem test_rdp :
    out (.rdp 23) [] = some [0x1F4] ∧ out (.rdp 25) [] = some [0x3FB999999999999A] := by decide +kernel

theorem test_rds :
    out (.rds 13) [] { State.reset with status := ⟨true, false, false, false⟩ } = some [0x4000000000000000] ∧
    out (.rds 19) [] { State.reset with syn := { State.reset.syn with acked := -500 } } = some [0xFFFFFE0C] := by
  decide +kernel

theorem test_pcmLd :
    out .pcmLd [0xDEADBEEF00004000] = some [0x3FE0000000000000] ∧ out .pcmLd [0x8000] = some [0xBFF0000000000000] := by
  decide +kernel

theorem test_pcmLdc :
    out .pcmLdc [0x4000, 0xC000] = some [0x3FE0000000000000, 0xBFE0000000000000] := by decide +kernel

theorem test_pcmSt :
    out .pcmSt [0x3FF0000000000000] = some [0x7FFF] ∧ out .pcmSt [0xBFD3333333333333] = some [0xD99A] ∧
    out .pcmSt [0xBEF0000000000000] = some [0] ∧ out .pcmSt [nanBits] = some [0] := by decide +kernel

theorem test_dcfStep :
    (after .dcfStep [0x3FF0000000000000] quarter).map (fun t => (t.dcf.avgI, t.dout)) =
    some (.ofBits 0x3FD0000000000000, [0x3FE8000000000000]) := by decide +kernel

theorem test_dcfStep_guard :
    (after .dcfStep [0x7FF0000000000000] { quarter with dcf := ⟨.ofBits 0x3FB4000000000000, .zero⟩ }).map
    (fun t => (t.dcf.avgI, t.dout, t.status.nonfinite)) = some (.ofBits 0x3FB4000000000000, [0x7FF0000000000000], true) := by
  decide +kernel

theorem test_dcfStepc :
    (after .dcfStepc [0x3FF0000000000000, 0xC000000000000000] quarter).map (fun t => (t.dcf, t.dout)) =
    some (⟨.ofBits 0x3FD0000000000000, .ofBits 0xBFE0000000000000⟩, [0x3FE8000000000000, 0xBFF8000000000000]) := by
  decide +kernel

theorem test_dcfBlock :
    out (.dcfBlock 3) [0x3FB999999999999A, 0x3FC999999999999A, 0x3FD3333333333333] =
    some [0xBFB999999999999C, 0xBC80000000000000, 0x3FB9999999999996] := by decide +kernel

theorem test_dcfBlock_overflow :
    out (.dcfBlock 3) [0x7FE1CCF385EBC8A0, 0x7FE1CCF385EBC8A0, 0xFFE1CCF385EBC8A0] =
    some [0x7FE1CCF385EBC8A0, 0x7FE1CCF385EBC8A0, 0xFFE1CCF385EBC8A0] := by decide +kernel

theorem test_dcfBlockc :
    out (.dcfBlockc 2)
    [0x3FF0000000000000, 0x4010000000000000, 0x4008000000000000, 0] =
    some [0xBFF0000000000000, 0x4000000000000000, 0x3FF0000000000000, 0xC000000000000000] := by decide +kernel

theorem test_iqcStep :
    (after .iqcStep [0x3FF0000000000000, 0x3FF0000000000000]
    { withParams (fun p => { p with iqRatio := .half }) with
    iqc := ⟨.ofBits 0x3FD0000000000000, .half, .zero⟩ }).map (fun t => (t.iqc, t.dout)) =
    some (⟨.ofBits 0x3FE4000000000000, .ofBits 0x3FE8000000000000, .half⟩, [0x3FF0000000000000, 0x3FD11ACEE5602429]) := by
  decide +kernel

/-- FMD: the guard rows of the table, which no value of the arctangent touches, and the state after. -/
theorem test_fmdStep :
    (after .fmdStep [0xBFF0000000000000, 0] { State.reset with fmd := ⟨.zero, .one⟩ }).map
    (fun t => (t.fmd, t.dout)) = some (⟨.ofBits 0xBFF0000000000000, .ofBits 0⟩, [0]) := by decide +kernel

/-- FMD with the quotient rule in sight: a fixture that returns its argument shows `qp / ip`. -/
theorem test_fmdOut : fmdOut id .two ⟨.two, .zero⟩ .two .one = .one ∧
    fmdOut id .one ⟨.one, .zero⟩ .one F64.one.neg = F64.one.neg := by decide +kernel

/-- The correctly rounded arctangent of -1 (95_test_vectors.md section 6). -/
theorem test_arctanNearest : arctanNearest (.ofBits 0xBFF0000000000000) = .ofBits 0xBFE921FB54442D18 := by
  decide +kernel

/-- The arctangents of 0.5 (section 6) and of 2.37... (section 14): each lies between the boundaries of the code given. -/
theorem test_reaches_half : (reaches (F64.units 0x3FE0000000000000) 0x3FDDAC670561BB4F &&
    !reaches (F64.units 0x3FE0000000000000) 0x3FDDAC670561BB50) = true := by decide +kernel

theorem test_reaches_ratio : (reaches (F64.units 0x4002F684BDA12F68) 0x3FF2BEC602F0D252 &&
    !reaches (F64.units 0x4002F684BDA12F68) 0x3FF2BEC602F0D253) = true := by decide +kernel

theorem test_amdStep :
    out .amdStep [0x4008000000000000, 0x4010000000000000] = some [0x4014000000000000] ∧
    out .amdStep [0x3FF0000000000000, 0x3FF0000000000000] = some [0x3FF6A09E667F3BCD] := by decide +kernel

/-- AGC: step 6 of the window-4 sequence, the rescan. -/
theorem test_agcStep : (after .agcStep [0x3FD0000000000000, 0]
    { withParams (fun p => { p with agcWindow := 4 }) with
      agc := ⟨.half, .two, 1, (((Vector.replicate 256 F64.zero).set 0 (.lit 1 4)).set 1 .two).set 2 .one
        |>.set 3 (.lit 1 4)⟩ }).map (fun t => (t.agc.gain, t.agc.max, t.agc.idx, t.agc.ring[1], t.dout)) =
    some (.one, .one, 2, .lit 1 4, [0x3FD0000000000000, 0]) := by decide +kernel

theorem test_agcStep_raised :
    (after .agcStep [0x4008000000000000, 0xC010000000000000]).map (fun t => (t.agc.max, t.agc.idx, t.dout)) =
    some (.ofBits 0x4014CCCCCCCCCCCD, 1, [0x3FE2762762762762, 0xBFE89D89D89D89D8]) := by decide +kernel

theorem test_dgcCorrect :
    out .dgcCorrect [0x3FB999999999999A] = some [0x3FF8000000000000] := by decide +kernel

theorem test_dgcInc :
    (after .dgcInc []).map (fun t => t.dgc.gain) = some (.ofBits 0x402E99999999999A) ∧
    (after .dgcInc [] { State.reset with dgc := ⟨.lit 40 1⟩ }).map (fun t => t.dgc.gain) = some (.lit 35 1) := by
  decide +kernel

theorem test_dgcDec :
    (after .dgcDec []).map (fun t => t.dgc.gain) = some (.ofBits 0x402D666666666666) ∧
    (after .dgcDec [] { State.reset with dgc := ⟨.lit 40 1⟩ }).map (fun t => t.dgc.gain) = some (.ofBits 0x4043D9999999999A) ∧
    (after .dgcDec [] { State.reset with dgc := ⟨.lit 2 10⟩ }).map (fun t => t.dgc.gain) = some (.lit 1 10) := by
  decide +kernel

/-- INT: the dot product and the row, under the fixture. -/
theorem test_intFir : interp tapsLin (dinWindow 
    [0, 0, 0, 0x3FF0000000000000, 0x4008000000000000, 0, 0, 0]) 1 =
    .ofBits 0x3FF0400000000000 ∧ phase (.ofBits 0x3FF0000000000000) = 128 ∧
    (after (.intFir 129) [7]).map (fun t => (t.faultCode, t.din)) = some (.badOperand, [7]) := by
  decide +kernel

theorem test_intFirc : (fun d : List Word64 => (interp tapsLin (dinWindowI d) 96, interp tapsLin (dinWindowQ d) 96))
    [0, 0, 0, 0, 0, 0, 0x3FF0000000000000,
      0xBFF0000000000000, 0x4008000000000000, 0xC000000000000000, 0, 0, 0, 0, 0, 0] =
    (.ofBits 0x4004000000000000, .ofBits 0xBFFC000000000000) := by decide +kernel

theorem test_intFirmu : phase (.ofBits 0x3F6FFFFAA19C4774) = 0 ∧ phase (.ofBits 0x3F70000000000000) = 1 ∧
    phase (.ofBits 0x3FD3333333333333) = 38 ∧ muInRange (.ofBits 0x8000000000000000) = true ∧
    (after .intFirmu (List.replicate 8 0 ++ [0x3FF0000000000000])).map
      (fun t => (t.faultCode, t.faultCmd, t.din, t.dout)) = some (.badOperand, 0x82000000, [], []) := by
  decide +kernel

theorem test_intFirmuc : (after .intFirmuc (List.replicate 16 0 ++ [nanBits])).map
      (fun t => (t.faultCode, t.faultCmd, t.din, t.dout)) = some (.badOperand, 0x83000000, [], []) := by
  decide +kernel

/-- RSM: push 4 of the 0.75 row, under the fixture. -/
theorem test_rsmPush : (nextOf (rsmPushWith tapsLin
    { withParams (fun p => { p with rsStep := .lit 3 4 }) with
      rsm := ⟨.zero, (((Vector.replicate 8 F64.zero).set 5 .one).set 6 .two).set 7 (.lit 3 1), Vector.replicate 8 .zero⟩ }
    (.lit 4 1))).map (fun t => (t.dout, t.rsm.pos, t.rsm.wI[4])) =
    some ([0, 0x3FE8000000000000], .half, .one) := by decide +kernel

theorem test_rsmPushc : (nextOf (rsmPushcWith tapsLin
    { withParams (fun p => { p with rsStep := .half }) with
      rsm := ⟨.zero, (Vector.replicate 8 F64.zero).set 5 .one, (Vector.replicate 8 F64.zero).set 5 (.lit 10 1)⟩ }
    (.lit 4 1) (.lit 40 1))).map (fun t => t.dout) =
    some [0, 0, 0x3FE0000000000000, 0x4014000000000000] := by decide +kernel

/-- SYN: the symbol of the constant input 1.5 (V2, n = 11), under the fixture. -/
theorem test_synStep :
    (fun t : State => (t.dout, t.syn.spread, t.syn.clock, t.syn.fine, t.syn.hidx, t.syn.err))
    (synStepWith tapsLin { State.reset with dgc := ⟨.one⟩, syn := { State.reset.syn with
      clock := .ofBits 0x3FEFFFFFFFFFFFFF, hidx := 2, hist := Vector.replicate 8 (.lit 3 2) } } (.lit 3 2)) =
    ([0x3FF8000000000000], .ofBits 0x40000A3D70A3D70A, .ofBits 0x3FB666666666665D, .ofBits 0x3FB0000000000000, 3, .half) := by
  decide +kernel

/-- SYN between symbols, with the tracker reset pending (N1). -/
theorem test_synStep_reset : (after .synStep [0x3FB999999999999A] { State.reset with
    status := ⟨false, true, false, false⟩, syn := { State.reset.syn with coarse := .one, fine := .two } }).map
    (fun t => (t.evt, t.dout, t.syn.coarse, t.syn.fine, t.status.resetPending, t.syn.hist[0])) =
    some ([0], [], .zero, .zero, false, .lit 3 2) := by decide +kernel

/-- SYN.ENDBUF, three rows of V10. -/
theorem test_synEndbuf :
    (fun f : Int → Int → Option (List Word64 × Bool × BitVec 32) => (f 2800 500, f 3000 (-500), f 5000 500))
    (fun a p => (after .synEndbuf [] { State.reset with syn := { State.reset.syn with
      acked := BitVec.ofInt 32 a, pending := BitVec.ofInt 32 p } }).map
      fun t => (t.evt, t.status.reqOutstanding, t.syn.pending)) =
    (some ([0x00000001000000C8], true, 0), some ([0x00000001FFFFFE0C], true, 0), some ([], false, 0)) := by
  decide +kernel

/-- The notifications: N2 and N3. -/
theorem test_synAck : (nextOf (step { State.reset with
    ntf := [⟨0xA8000000, 0x1234567800000000 + 0xFFFFFF06⟩],
    status := ⟨false, false, true, false⟩, syn := { State.reset.syn with pending := 500 } })).map
    (fun t => (t.syn.acked, t.syn.pending, t.status, t.ntf)) =
    some (-250, 0, ⟨false, true, false, false⟩, []) := by decide +kernel

theorem test_synRate : (nextOf (step { State.reset with
    ntf := [⟨0xA9000000, 7⟩, ⟨0xA9000000, 8⟩],
    syn := { State.reset.syn with acked := 700 } })).map
    (fun t => (t.syn.acked, t.status, t.ntf)) =
    some (700, ⟨false, true, false, false⟩, [⟨0xA9000000, 8⟩]) := by decide +kernel

/-- What a program's run shows: the CMD words left, DOUT, the FAULT line. -/
def shown (ls : List Line) : Option (List Word32 × List Word64 × Bool) :=
  match runProgram ls .reset with
  | .next o => some (o.state.cmd, o.dout, o.faultLine)
  | .fault _ => none
  | .refused _ => none

/-- The end of a run (R277): operands after their command let it run; without them it holds, and the run has ended. -/
theorem test_run_late_operands :
    shown [.op .pcmLd, .op .pcmLd, .din [0x4000], .din [0x8000]] =
      some ([], [0x3FE0000000000000, 0xBFF0000000000000], false) := by decide +kernel

theorem test_run_holds : shown [.op .pcmLd, .op .dgcInc] = some ([0x10000000, 0x71000000], [], false) ∧
    shown [.op (.wrp 4), .op (.rds 21)] = some ([], [3], true) := by decide +kernel

/-- The fetch: a placed word is the next step's operation. -/
theorem test_fetch :
    step (State.reset.withFetchWord 32 0x71000000) = exec .dgcInc (State.reset.withFetchWord 32 0x71000000) ∧
    (nextOf (step (State.reset.withFetchWord 32 0xA9000000))).map (fun t => t.status.resetPending) = some true := by
  constructor
  · rfl
  · decide +kernel

/-! ### Witnesses: for each statement with hypotheses, a state and operands that meet them -/

/-- Power-on reset with a fault recorded. -/
def faulted : State := { State.reset with status := ⟨true, false, false, false⟩, faultCode := .illegalOp, faultCmd := 1 }

/-- A word on each operation port: `NOP` and `SYN.RATE`. -/
def contested : State := { State.reset with cmd := [0], ntf := [⟨0xA9000000, 0⟩] }

/-- A command that waits for its operand, and a notification. -/
def waiting : State := { State.reset with cmd := [0x10000000], ntf := [⟨0xA9000000, 0⟩] }

theorem witness_IllegalWordClassesRefused :
    rsvField 0x00010000 ≠ 0 ∧ (rsvField 0xB0000000 = 0 ∧ 11 ≤ (unitField 0xB0000000).toNat) ∧
    (rsvField 0xA8000000 = 0 ∧ Instr.synAck.unit = unitField 0xA8000000 ∧ Instr.synAck.op = opField 0xA8000000 ∧
      Instr.synAck.port ≠ .cmd) ∧
    (rsvField 0x00000001 = 0 ∧ Instr.nop.unit = unitField 0x00000001 ∧ Instr.nop.op = opField 0x00000001 ∧
      Instr.nop.port = .cmd ∧ Instr.nop.format ≠ .a ∧ argField 0x00000001 ≠ 0) := by decide +kernel

/-- Its third clause: no operation has unit 3 and op 1. -/
theorem witness_NoSuchOperation :
    rsvField 0x31000000 = 0 ∧ ∀ i : Instr, ¬(i.unit = unitField 0x31000000 ∧ i.op = opField 0x31000000) := by
  refine ⟨by decide +kernel, fun i => ?_⟩
  have hu : unitField 0x31000000 = 3 := by decide
  have ho : opField 0x31000000 = 1 := by decide
  rw [hu, ho]
  cases i <;> simp [Instr.unit, Instr.op]

theorem witness_StepRunsTheDecodedOperation :
    (({ State.reset with cmd := [0] }.cmd = 0 :: [] ∧ { State.reset with cmd := [0] }.ntf = []) ∧
      decode .cmd 0 = .ok .nop) ∧
    (waiting.ntf = ⟨0xA9000000, 0⟩ :: [] ∧ decode .ntf 0xA9000000 = .ok .synRate ∧ waiting.cmd = 0x10000000 :: [] ∧
      decode .cmd 0x10000000 = .ok .pcmLd ∧ waiting.holds .pcmLd = true) ∧
    (contested.cmd = 0 :: [] ∧ contested.holds .nop = false ∧ contested.ntf = ⟨0xA9000000, 0⟩ :: []) := by
  decide +kernel

theorem witness_IllegalWordFaults :
    State.reset.status.fault = false ∧ decode .cmd 0x06000000 = .error .noSuchOperation ∧
    decode .ntf 0xA0000000 = .error .wrongPort ∧
    (waiting.status.fault = false ∧ waiting.cmd = 0x10000000 :: [] ∧ decode .cmd 0x10000000 = .ok .pcmLd ∧
      waiting.holds .pcmLd = true) ∧
    (contested.status.fault = false ∧ contested.cmd = 0 :: [] ∧ contested.ntf = ⟨0xA9000000, 0⟩ :: [] ∧
      decode .cmd 0 = .ok .nop ∧ contested.holds .nop = false ∧ decode .ntf 0xA9000000 = .ok .synRate) := by
  decide +kernel

theorem witness_IdleAndHoldChangeNothing :
    (State.reset.cmd = [] ∧ State.reset.ntf = []) ∧ decode .cmd 0x10000000 = .ok .pcmLd ∧
    argFault .pcmLd = none ∧ State.reset.din.length < dinWords .pcmLd ∧
    State.reset.runEnded = true ∧ waiting.runEnded = true ∧ contested.runEnded = false := by decide +kernel

theorem witness_DiscardedWhileFaulted :
    faulted.status.fault = true ∧ Instr.pcmLd.port = .cmd ∧ Instr.synAck.port = .ntf ∧
    decode .cmd 0x06000000 = .error .noSuchOperation := by decide +kernel

/-- Each clause at its boundary values. -/
theorem witness_BadArgumentFaultsBeforeOperands :
    [argFault (.rstu 0), argFault (.rstu 11), argFault (.rstu 65535), argFault (.wrp 26), argFault (.rdp 26),
      argFault (.rds 23), argFault (.rds 31), argFault (.rds 56), argFault (.rds 255), argFault (.rds 512),
      argFault (.intFir 129), argFault (.intFirc 129)] = List.replicate 12 (some .badOperand) ∧
    [argFault (.wrp 4), argFault (.wrp 12), argFault (.wrp 23), argFault (.wrp 25)] =
      List.replicate 4 (some .badConfig) ∧ State.reset.status.fault = false := by decide +kernel

theorem witness_HoldsUntilOperandsArrive :
    State.reset.status.fault = false ∧ argFault .intFirmuc = none ∧ State.reset.din.length < dinWords .intFirmuc := by
  decide +kernel

theorem witness_FaultsArePrecise : State.reset.status.fault = false ∧
    (nextOf (exec (.wrp 0) { State.reset with din := [0] })).map (fun t => t.status.fault) = some true := by
  decide +kernel

/-- `mu` at the excluded bound and NaN; `mu` at `-0.0`, which is inside. -/
theorem witness_Mu : muInRange (.ofBits 0x3FF0000000000000) = false ∧ muInRange (.ofBits nanBits) = false ∧
    muInRange (.ofBits 0x8000000000000000) = true ∧ muInRange (.ofBits 0x3FEFFFFFFFFFFFFF) = true ∧
    (List.replicate 8 (0 : Word64) ++ [0x8000000000000000]).length = 9 ∧
    (List.replicate 16 (0 : Word64) ++ [0x8000000000000000]).length = 17 := by decide +kernel

theorem witness_RstallResetsAndRecovers : faulted.status.fault = true ∧
    (nextOf (exec .rstall faulted)).map (fun t => t.status.fault) = some false := by decide +kernel

/-- The bounds of the legal ranges of R40, on both sides. -/
theorem witness_ParameterLegality :
    ((Params.default.write 0 0x3FF0000000000000).isSome = true ∧ (Params.default.write 0 0).isSome = false) ∧
    ((Params.default.write 6 256).isSome = true ∧ (Params.default.write 6 257).isSome = false) ∧
    ((Params.default.write 11 0x3F70000000000000).isSome = true ∧
      (Params.default.write 11 0x40F0000000000001).isSome = false) ∧
    ((Params.default.write 24 0x40000000).isSome = true ∧ (Params.default.write 24 0x40000001).isSome = false) := by
  decide +kernel

/-- The read-write indices at the bounds of their ranges, and both outcomes of a write. -/
theorem witness_WrpWritesOneParameter : State.reset.status.fault = false ∧
    ((0 : Arg).toNat ≤ 3 ∧ (3 : Arg).toNat ≤ 3 ∧ 5 ≤ (5 : Arg).toNat ∧ (11 : Arg).toNat ≤ 11 ∧ (24 : Arg).toNat = 24) ∧
    ([0, 3, 5, 11].all fun k => (Params.default.write k 0x3F70000000000000).isSome) = true ∧
    (Params.default.write 24 0).isSome = true ∧ Params.default.write 5 0 = none := by decide +kernel

theorem witness_ReadsAppendOneWord : (Params.default.read 25).isSome = true ∧ Params.default.read 26 = none ∧
    [22, 32, 55, 256, 511].all (fun k => (State.reset.readState k).isSome) = true ∧
    [23, 31, 56, 255, 512].all (fun k => (State.reset.readState k).isNone) = true ∧ faulted.status.fault = true := by
  decide +kernel

/-- The flags, set and cleared: `SYN.ACK`, `SYN.STEP`, `SYN.ENDBUF`, and a sample excluded by DCF. -/
theorem witness_StatusFlagsAsTabled :
    (nextOf (exec .synAck { State.reset with ntf := [⟨0xA8000000, 0⟩], status := ⟨false, false, true, false⟩ })).map
      (fun t => (t.status.resetPending, t.status.reqOutstanding)) = some (true, false) ∧
    (nextOf (exec .synStep { State.reset with din := [0], status := ⟨false, true, false, false⟩ })).map
      (fun t => t.status.resetPending) = some false ∧
    (nextOf (exec .synEndbuf { State.reset with syn := { State.reset.syn with pending := 500 } })).map
      (fun t => t.status.reqOutstanding) = some true ∧
    (nextOf (exec .dcfStep { State.reset with din := [0x7FF0000000000000] })).map (fun t => t.status.nonfinite) =
      some true ∧
    (nextOf (exec .rstall { State.reset with status := ⟨false, false, false, true⟩ })).map
      (fun t => t.status.nonfinite) = some false := by decide +kernel

/-- For `PcmLoadResult`, `PcmStoreResult`, `DcfStepResult`, `DcfStepcResult`, `DcfBlockResult`, `DcfBlockcResult`,
`IqcStepResult`, `FmdStepResult`, `AmdStepResult`, `DgcCorrectResult` and `RstuResetsOneUnit`, which ask that no fault
is recorded and that the operand words stand first on DIN: power-on reset with these words on DIN meets both, for
`DCF.BLOCK` with the counts 0, 3 and 65535. -/
theorem witness_Results : State.reset.status.fault = false ∧ ([1] : List Word64) = 1 :: [] ∧
    ([1, 2] : List Word64) = 1 :: 2 :: [] ∧ ([1, 2, 3] : List Word64).length = (3 : Arg).toNat ∧
    ([] : List Word64).length = (0 : Arg).toNat ∧ (List.replicate 65535 (0 : Word64)).length = (65535 : Arg).toNat ∧
    ([(1, 2)] : List (Word64 × Word64)).length = (1 : Arg).toNat := by
  refine ⟨rfl, rfl, rfl, rfl, rfl, ?_, rfl⟩
  rw [List.length_replicate]
  rfl

theorem witness_PcmRoundTrip : Params.default.pcmScale = .lit 32768 1 ∧
    pcmStore .default (pcmLoad .default (-32768)) = -32768 ∧ pcmStore .default (pcmLoad .default 32767) = 32767 := by
  decide +kernel

/-- A state with another IQC, and an operation that is neither `IQC.STEP` nor `RDS`. -/
theorem witness_NoOtherUnitReadsIqc : Instr.dgcInc ≠ .iqcStep ∧ (∀ r, Instr.dgcInc ≠ .rds r) ∧
    State.reset.iqc ≠ ⟨.one, .one, .one⟩ := by
  refine ⟨by decide, fun r => ?_, by decide +kernel⟩
  simp

theorem witness_AtanNamedProperties : F64.le F64.one.neg .one = true ∧ F64.one ≠ .nan := by decide +kernel

/-- A carrier at the angle 0 and no deviation: both samples are (1, 0). -/
theorem witness_FmRoundTrip : State.reset.params.fmGain = .one ∧ F64.one.isFinite = true ∧ F64.zero.isFinite = true ∧
    F64.ofBits 0x3FF0000000000000 = .one ∧ F64.ofBits 0 = .zero ∧
    |((value .one : ℚ) : ℝ) - Real.cos 0| ≤ 1 / 2 ^ 52 ∧ |((value .zero : ℚ) : ℝ) - Real.sin 0| ≤ 1 / 2 ^ 52 ∧
    |((value .one : ℚ) : ℝ) - Real.cos (0 + 0)| ≤ 1 / 2 ^ 52 ∧ |((value .zero : ℚ) : ℝ) - Real.sin (0 + 0)| ≤ 1 / 2 ^ 52 ∧
    |(0 : ℝ)| ≤ 157 / 100 := by
  have h1 : value .one = 1 := by decide +kernel
  have h0 : value .zero = 0 := by decide +kernel
  rw [h1, h0]
  refine ⟨rfl, by decide +kernel, by decide +kernel, by decide +kernel, by decide +kernel, ?_⟩
  simp
  norm_num

/-- The AGC at a ring index inside the ring, at the last one too, with a window of at least one entry. -/
theorem witness_AgcStepResult : State.reset.agc.idx < 256 ∧ 255 < 256 ∧
    1 ≤ State.reset.params.agcWindow.toNat := by decide +kernel

/-- The parameters after power-on are legal. -/
theorem default_legal : Params.default.Legal where
  dcRatio := by decide +kernel
  iqRatio := by decide +kernel
  fmGain := by decide +kernel
  amGain := by decide +kernel
  agcFloor := by decide +kernel
  agcWindow := by decide +kernel
  dgcInit := by decide +kernel
  dgcMin := by decide +kernel
  dgcMax := by decide +kernel
  dgcStep := by decide +kernel
  rsStep := by decide +kernel
  maxCorrectionHz := by decide +kernel
  readOnly := fun _ _ => rfl

/-- The AGC with every window entry zero meets its relation. -/
theorem zero_agcInv : AgcInv .default (.reset .default) where
  index := by decide +kernel
  entries := fun x hx => by
    rw [Agc.reset, Vector.toList_replicate] at hx
    rw [List.eq_of_mem_replicate hx]
    decide +kernel
  max := by decide +kernel
  gain := by decide +kernel

theorem witness_AgcStepKeepsWindowMaximum : State.reset.params.Legal ∧ AgcInv State.reset.params State.reset.agc ∧
    (nextOf (exec .agcStep { State.reset with din := [0x4008000000000000, 0] })).isSome = true :=
  ⟨default_legal, zero_agcInv, by decide +kernel⟩

/-- Gains at both bounds and above the upper one. -/
theorem witness_DgcStepsSaturate : State.reset.params.Legal ∧ legalPositive (.lit 35 1) = true ∧
    F64.le State.reset.params.dgcMax (.lit 40 1) = true ∧ legalPositive (.lit 1 10) = true ∧
    F64.lit 1 10 = State.reset.params.dgcMin ∧ F64.le State.reset.params.dgcMin State.reset.params.dgcMax = true ∧
    F64.le State.reset.params.dgcMin (.lit 35 1) = true ∧ F64.le (.lit 1 10) State.reset.params.dgcMax = true :=
  ⟨default_legal, by decide +kernel⟩

/-- Its clauses over every operation and the resets. -/
theorem witness_DgcStepsSaturate_bounds : State.reset.params.DgcOrdered ∧ State.reset.GainInBounds ∧
    (nextOf (exec .dgcInc State.reset)).isSome = true ∧ (nextOf (exec .rstall faulted)).isSome = true ∧
    (nextOf (exec (.rstu 7) State.reset)).isSome = true := by
  unfold Params.DgcOrdered State.GainInBounds
  decide +kernel

/-- The rows at both ends of the table. -/
theorem witness_IntFirResult : (0 : Arg).toNat < 129 ∧ (128 : Arg).toNat < 129 ∧ ¬(129 : Arg).toNat < 129 := by decide

/-- Legal steps at both bounds, positions at the lower bound and above 1.0. -/
theorem witness_RsmPushResult : legalRsStep (.lit 1 256) = true ∧ legalRsStep (.lit 65536 1) = true ∧
    legalRsStep State.reset.params.rsStep = true ∧ F64.le .zero State.reset.rsm.pos = true ∧
    F64.le .zero (.lit 65535 1) = true := by decide +kernel

/-- A clock that does not exceed 1.0 after the step, and one that does. -/
theorem witness_SynStep : F64.lt .one (F64.zero.add Params.default.symbolStep) = false ∧
    F64.lt .one ((F64.ofBits 0x3FEFFFFFFFFFFFFF).add Params.default.symbolStep) = true := by decide +kernel

/-- The three cases: nothing latched, a request, a request dropped at the limit. -/
theorem witness_SynEndbufResult : State.reset.syn.pending = 0 ∧
    0 < requestDelta .default { Syn.reset .default with pending := 500, acked := 2800 } * 500 ∧
    ¬0 < requestDelta .default { Syn.reset .default with pending := 500, acked := 3000 } * 500 := by
  decide +kernel

theorem witness_RequestsAreBoundedByTheStep :
    (fun u : Syn => 0 < requestDelta .default u * u.pending.toInt)
      { Syn.reset .default with pending := -500, acked := 3000 } := by decide +kernel

theorem witness_NothingLatchedWhileOutstanding :
    (nextOf (exec .synEndbuf { State.reset with
      status := ⟨false, false, true, false⟩, syn := { State.reset.syn with pending := 500 } })).map
      (fun t => t.syn.pending) = some 0 := by decide +kernel

theorem witness_EventsOnlyFromTheSynchronizer : State.reset.status.fault = false ∧
    (nextOf (exec .synStep { State.reset with din := [0] })).isSome = true ∧
    (nextOf (exec .synEndbuf State.reset)).isSome = true ∧ (nextOf (exec .dgcInc State.reset)).isSome = true := by
  decide +kernel

theorem witness_NotificationResults : (fun s : State => s.status.fault = false ∧ s.ntf = ⟨0xA8000000, 500⟩ :: [])
    { State.reset with ntf := [⟨0xA8000000, 500⟩] } := by decide +kernel

/-- For the statements about whatever an operation answers: it answers. -/
theorem witness_Frames : (nextOf (exec .dgcInc State.reset)).isSome = true ∧
    (nextOf (exec .synRate State.reset)).isSome = true ∧ Instr.dgcInc ≠ .rstall ∧ Instr.dgcInc.port = .cmd ∧
    Instr.synRate.port = .ntf := by decide +kernel

/-- A state that meets the invariants and can step. -/
theorem witness_StepKeepsTheInvariants : Inv contested ∧ (nextOf (step { contested with ntf := [] })).isSome = true := by
  refine ⟨⟨default_legal, zero_agcInv, by decide +kernel, by decide +kernel, by decide +kernel, by decide +kernel,
    by decide +kernel, ?_, by decide +kernel⟩, by decide +kernel⟩
  decide +kernel

/-- Sums of both signs and zero, a divisor that is not zero and one that is, roots of both signs, both orders. -/
theorem witness_RoundingIsNearestTiesToEven : 0 < 2 ∧ F64.roundMag 1 2 = 0 ∧ F64.roundMag 3 2 = 2 ∧
    value (.fin false 0x3FF0000000000000) = 1 ∧ value (.fin true 0x3FF0000000000000) = -1 ∧
    value (.fin false 0) = 0 ∧ (0 : Fin infMag).val = 0 ∧ (1 : Fin infMag).val ≠ 0 ∧
    F64.lt .zero .one = true ∧ F64.lt .one .zero = false := by
  decide +kernel

theorem witness_ResultWordsReadBack : F64.one ≠ .nan ∧ F64.ofBits 0x3FF0000000000000 = .one := by
  decide +kernel

/-- A finite real strictly between the bounds, and the bounds. -/
theorem witness_ToIndexSaturates : (0 : Int) ≤ 127 ∧ |(0 : Int)| < 2 ^ 53 ∧ |(127 : Int)| < 2 ^ 53 ∧
    (0 : Int) * 2 ^ 1074 < (F64.lit 3 2).toUnits ∧ (F64.lit 3 2).toUnits < 127 * 2 ^ 1074 ∧
    (F64.zero.toUnits ≤ 0 * 2 ^ 1074 ∧ 127 * 2 ^ 1074 ≤ (F64.lit 127 1).toUnits) ∧
    F64.toIndex (.lit 3 2) 0 127 = 1 ∧ (F64.lit 3 2).neg.floor = .neg .two := by
  refine ⟨by decide, by norm_num, by norm_num, ?_⟩
  decide +kernel

end Sys2Proof.Tests
end

section
/-! The turn of each agent at an operation boundary (spec/00_scope.md R15; spec/60_exceptions.md R243). -/

namespace Sys2Proof.Machine

open Sys2Proof

/-! ### The turn a step gives to an agent -/

/-- With a decodable command at its head, the command agent can move unless that command holds. -/
theorem commandReady_of_decode {s : State} {w : Word32} {ws : List Word32} {i : Instr} (hc : s.cmd = w :: ws)
    (hd : decode .cmd w = .ok i) : s.commandReady = !s.holds i := by
  simp [State.commandReady, hc, hd]

theorem commandReady_of_empty {s : State} (hc : s.cmd = []) : s.commandReady = false := by
  simp [State.commandReady, hc]

theorem stepCommand_of_decode {s : State} {w : Word32} {ws : List Word32} {i : Instr} (hc : s.cmd = w :: ws)
    (hd : decode .cmd w = .ok i) : stepCommand s = exec i s := by
  simp [stepCommand, hc, hd]

theorem stepNotification_of_decode {s : State} {e : NtfEntry} {es : List NtfEntry} {j : Instr} (hn : s.ntf = e :: es)
    (hd : decode .ntf e.word = .ok j) : stepNotification s = exec j s := by
  simp [stepNotification, hn, hd]

/-- With NTF empty it is the command agent's turn. -/
theorem step_of_ntf_empty {s : State} (hn : s.ntf = []) : step s = stepCommand s := by
  simp [step, stepBoundary, hn]

/-- With a notification queued and the command agent unable to move, it is the notification agent's turn. -/
theorem step_of_not_commandReady {s : State} (hn : s.ntf ≠ []) (hc : s.commandReady = false) :
    step s = stepNotification s := by
  simp [step, stepBoundary, hn, hc]

/-- Where both agents can move, the boundary is counted and the turn is the one's or the other's. -/
theorem step_of_contested {s : State} (hn : s.ntf ≠ []) (hc : s.commandReady = true) :
    step s = stepCommand { s with boundary := s.boundary + 1 } ∨
      step s = stepNotification { s with boundary := s.boundary + 1 } := by
  have h : step s = stepOf (Config.arbiter s.boundary) { s with boundary := s.boundary + 1 } := by
    simp [step, stepBoundary, hn, hc]
  rw [h]
  cases Config.arbiter s.boundary with
  | command => exact .inl rfl
  | notification => exact .inr rfl

/-- Settles O4: the agent whose turn it is runs what the word at the head of its port decodes to. -/
theorem stepRunsTheDecodedOperation : Obligations.StepRunsTheDecodedOperation := by
  refine ⟨?command, ?notification, ?contested⟩
  case command =>
    intro s w rest i hc hn hd
    rw [step_of_ntf_empty hn, stepCommand_of_decode hc hd]
  case notification =>
    intro s e rest j hn hd hidle
    have hready : s.commandReady = false := by
      rcases hidle with hc | ⟨w, ws, i, hc, hdc, hh⟩
      · exact commandReady_of_empty hc
      · rw [commandReady_of_decode hc hdc, hh]; rfl
    rw [step_of_not_commandReady (by simp [hn]) hready, stepNotification_of_decode hn hd]
  case contested =>
    intro s w ws i e es j hc hdc hh hn hdn
    have hready : s.commandReady = true := by rw [commandReady_of_decode hc hdc, hh]; rfl
    refine (step_of_contested (by simp [hn]) hready).imp (fun h => ?_) (fun h => ?_)
    · rw [h]; exact stepCommand_of_decode (s := { s with boundary := s.boundary + 1 }) hc hdc
    · rw [h]; exact stepNotification_of_decode (s := { s with boundary := s.boundary + 1 }) hn hdn

end Sys2Proof.Machine
end

section
/-! Comparisons and patterns of reals: what sign and magnitude code say of order, of exact value and of the word on a port
(spec/00_scope.md R9, R11). -/

namespace Sys2Proof.Machine

open Sys2Proof

/-! ### Comparisons (R11) -/

/-- The number of sign `s` and size `n`: the order key of a real from its code, its exact value from its units. -/
def signed (s : Bool) (n : Nat) : Int := if s then -(n : Int) else n

theorem key_fin (s : Bool) (m : Fin infMag) : (F64.fin s m).key = some (signed s m) := rfl

theorem key_inf (s : Bool) : (F64.inf s).key = some (signed s infMag) := rfl

/-- Magnitude codes with a sign are ordered as the exact values they stand for. -/
theorem signed_le_iff (s t : Bool) (m n : Nat) :
    signed s m ≤ signed t n ↔ signed s (F64.units m) ≤ signed t (F64.units n) := by
  have hmn := units_strictMono.le_iff_le (a := m) (b := n)
  have hnm := units_strictMono.le_iff_le (a := n) (b := m)
  have hm0 := units_strictMono.le_iff_le (a := m) (b := 0)
  have hn0 := units_strictMono.le_iff_le (a := n) (b := 0)
  have h0 : F64.units 0 = 0 := rfl
  cases s <;> cases t <;> simp only [signed, Bool.false_eq_true, if_true, if_false] <;> omega

theorem signed_eq_iff (s t : Bool) (m n : Nat) :
    signed s m = signed t n ↔ signed s (F64.units m) = signed t (F64.units n) := by
  simp only [le_antisymm_iff, signed_le_iff s t m n, signed_le_iff t s n m]

theorem toUnits_fin (s : Bool) (m : Fin infMag) : (F64.fin s m).toUnits = signed s (F64.units m) := by
  cases s <;> rfl

theorem le_fin_iff (s t : Bool) (m n : Fin infMag) :
    F64.le (.fin s m) (.fin t n) = true ↔ (F64.fin s m).toUnits ≤ (F64.fin t n).toUnits := by
  rw [toUnits_fin, toUnits_fin, ← signed_le_iff]
  simp [F64.le, key_fin]

theorem lt_fin_iff (s t : Bool) (m n : Fin infMag) :
    F64.lt (.fin s m) (.fin t n) = true ↔ (F64.fin s m).toUnits < (F64.fin t n).toUnits := by
  rw [toUnits_fin, toUnits_fin, ← not_le, ← signed_le_iff, not_le]
  simp [F64.lt, key_fin]

theorem feq_fin_iff (s t : Bool) (m n : Fin infMag) :
    F64.feq (.fin s m) (.fin t n) = true ↔ (F64.fin s m).toUnits = (F64.fin t n).toUnits := by
  rw [toUnits_fin, toUnits_fin, ← signed_eq_iff]
  simp [F64.feq, key_fin]

/-- Every finite order number lies strictly between those of the infinities. -/
theorem signed_between (s : Bool) (m : Fin infMag) :
    signed true infMag < signed s m ∧ signed s m < signed false infMag := by
  have := m.isLt
  cases s <;> simp only [signed, Bool.false_eq_true, if_true, if_false] <;> omega

theorem finite_against_inf (s t : Bool) (m : Fin infMag) :
    F64.lt (.fin s m) (.inf t) = !t ∧ F64.le (.fin s m) (.inf t) = !t ∧ F64.feq (.fin s m) (.inf t) = false ∧
    F64.lt (.inf t) (.fin s m) = t ∧ F64.le (.inf t) (.fin s m) = t ∧ F64.feq (.inf t) (.fin s m) = false := by
  obtain ⟨hlo, hhi⟩ := signed_between s m
  cases t <;> simp only [F64.lt, F64.le, F64.feq, key_fin, key_inf, Bool.not_true, Bool.not_false,
    decide_eq_true_eq, decide_eq_false_iff_not] <;> omega

theorem inf_against_inf (s t : Bool) :
    F64.lt (.inf s) (.inf t) = (s && !t) ∧ F64.le (.inf s) (.inf t) = (s || !t) ∧
    F64.feq (.inf s) (.inf t) = (s == t) := by
  revert s t; decide

theorem compare_nan (x : F64) :
    F64.lt x .nan = false ∧ F64.lt .nan x = false ∧ F64.le x .nan = false ∧ F64.le .nan x = false ∧
    F64.feq x .nan = false ∧ F64.feq .nan x = false := by
  cases x <;> exact ⟨rfl, rfl, rfl, rfl, rfl, rfl⟩

theorem kind_iff (x : F64) :
    (x.isNaN = true ↔ x = .nan) ∧ (x.isFinite = true ↔ x ≠ .nan ∧ ∀ s, x ≠ .inf s) := by
  cases x <;> simp [F64.isNaN, F64.isFinite]

/-- Settles O59: codes are ordered as exact values are, the code of infinity is beyond the finite ones, and NaN has none. -/
theorem comparisonsAreExact : Obligations.ComparisonsAreExact := by
  refine ⟨fun s t m n => ⟨lt_fin_iff s t m n, le_fin_iff s t m n, feq_fin_iff s t m n⟩, fun s t m => ?_, compare_nan,
    kind_iff⟩
  obtain ⟨h1, h2, h3, h4, h5, h6⟩ := finite_against_inf s t m
  exact ⟨h1, h2, h3, h4, h5, h6, inf_against_inf s t⟩

/-! ### Patterns (R9) -/

theorem msb_eq_div (w : Word64) : w.msb = decide (w.toNat / 2 ^ 63 = 1) := by
  have := w.isLt
  rw [BitVec.msb_eq_decide]
  simp only [decide_eq_decide]
  omega

theorem pattern_toNat (s : Bool) {m : Nat} (hm : m < 2 ^ 63) :
    (F64.pattern s m).toNat = (if s then 2 ^ 63 else 0) + m := by
  rw [F64.pattern, BitVec.toNat_ofNat]
  cases s <;> simp only [Bool.false_eq_true, if_true, if_false] <;> omega

theorem msb_pattern (s : Bool) {m : Nat} (hm : m < 2 ^ 63) : (F64.pattern s m).msb = s := by
  rw [msb_eq_div, pattern_toNat s hm]
  cases s <;> simp only [Bool.false_eq_true, if_true, if_false, decide_eq_true_eq, decide_eq_false_iff_not] <;> omega

theorem mod_pattern (s : Bool) {m : Nat} (hm : m < 2 ^ 63) : (F64.pattern s m).toNat % 2 ^ 63 = m := by
  rw [pattern_toNat s hm]
  cases s <;> simp only [Bool.false_eq_true, if_true, if_false] <;> omega

/-- A word is the pattern of its sign bit and its other 63 bits. -/
theorem pattern_of_word (w : Word64) : F64.pattern w.msb (w.toNat % 2 ^ 63) = w := by
  have := w.isLt
  apply BitVec.eq_of_toNat_eq
  rw [pattern_toNat _ (Nat.mod_lt _ (by decide)), msb_eq_div]
  rcases (by omega : w.toNat / 2 ^ 63 = 0 ∨ w.toNat / 2 ^ 63 = 1) with h | h
  · rw [h, decide_eq_false (by decide), if_neg (by decide)]; omega
  · rw [h, decide_eq_true rfl, if_pos rfl]; omega

/-- The real of sign `s` and magnitude code `m`, where a code beyond that of infinity is a NaN. -/
def ofCode (s : Bool) (m : Nat) : F64 :=
  if h : m < infMag then .fin s ⟨m, h⟩ else if m = infMag then .inf s else .nan

theorem ofBits_eq (w : Word64) : F64.ofBits w = ofCode w.msb (w.toNat % 2 ^ 63) := rfl

theorem ofBits_pattern (s : Bool) {m : Nat} (hm : m < 2 ^ 63) : F64.ofBits (F64.pattern s m) = ofCode s m := by
  rw [ofBits_eq, msb_pattern s hm, mod_pattern s hm]

@[simp] theorem ofCode_fin (s : Bool) (m : Fin infMag) : ofCode s m = .fin s m := by simp [ofCode]

@[simp] theorem ofCode_inf (s : Bool) : ofCode s infMag = .inf s := by simp [ofCode]

theorem ofCode_nan (s : Bool) {m : Nat} (h : infMag < m) : ofCode s m = .nan := by
  rw [ofCode, dif_neg (by omega), if_neg (by omega)]

theorem ofCode_eq_fin {s s' : Bool} {m : Nat} {m' : Fin infMag} (h : ofCode s m = .fin s' m') : s = s' ∧ m = m' := by
  unfold ofCode at h
  split at h
  · cases h; exact ⟨rfl, rfl⟩
  · split at h <;> cases h

theorem ofCode_eq_inf {s s' : Bool} {m : Nat} (h : ofCode s m = .inf s') : s = s' ∧ m = infMag := by
  unfold ofCode at h
  split at h
  · cases h
  · split at h
    · cases h; exact ⟨rfl, by assumption⟩
    · cases h

theorem abs_ofCode (s : Bool) (m : Nat) : (ofCode s m).abs = ofCode false m := by
  unfold ofCode
  split
  · rfl
  · split <;> rfl

theorem neg_ofCode (s : Bool) (m : Nat) : (ofCode s m).neg = ofCode (!s) m := by
  unfold ofCode
  split
  · rfl
  · split <;> rfl

/-- A pattern that reads as a finite real is the only one that does. -/
theorem word_of_ofBits_fin {w : Word64} {s : Bool} {m : Fin infMag} (h : F64.ofBits w = .fin s m) :
    w = F64.pattern s m := by
  obtain ⟨hs, hm⟩ := ofCode_eq_fin h
  rw [← hs, ← hm, pattern_of_word]

/-- A pattern that reads as an infinity is the only one that does. -/
theorem word_of_ofBits_inf {w : Word64} {s : Bool} (h : F64.ofBits w = .inf s) : w = F64.pattern s infMag := by
  obtain ⟨hs, hm⟩ := ofCode_eq_inf h
  rw [← hs, ← hm, pattern_of_word]

/-- Every word the block may put on DOUT for a NaN reads as NaN. -/
theorem ofBits_nanWord (n : Nat) : F64.ofBits (nanWord n) = .nan := by
  have := (Config.freeNan n).2.isLt
  have : infMag + 2 ^ 52 ≤ 2 ^ 63 := by decide
  rw [nanWord, ofBits_pattern _ (by omega), ofCode_nan _ (by omega)]

/-- What a real leaves on DOUT. -/
theorem doutReal_reads_back (s : State) (v : F64) : ∃ w n,
    s.doutReal v = { s with dout := s.dout ++ [w], nanCount := n } ∧ F64.ofBits w = v ∧ (v ≠ .nan → n = s.nanCount ∧ ∀ w', F64.ofBits w' = v → w' = w) := by
  cases v with
  | nan => exact ⟨nanWord s.nanCount, s.nanCount + 1, rfl, ofBits_nanWord _, fun h => absurd rfl h⟩
  | inf t =>
    refine ⟨F64.pattern t infMag, s.nanCount, rfl, ?_, fun _ => ⟨rfl, fun _ => word_of_ofBits_inf⟩⟩
    rw [ofBits_pattern t (by decide), ofCode_inf]
  | fin t m =>
    refine ⟨F64.pattern t m, s.nanCount, rfl, ?_, fun _ => ⟨rfl, fun _ => word_of_ofBits_fin⟩⟩
    rw [ofBits_pattern t (m.isLt.trans (by decide)), ofCode_fin]

/-- The low half of a zero-extended int32 is that int32 and the high half is zero. -/
theorem halves_zeroExtend (v : BitVec 32) :
    (v.zeroExtend 64).extractLsb' 0 32 = v ∧ (v.zeroExtend 64).extractLsb' 32 32 = 0 := by
  have := v.isLt
  constructor <;> apply BitVec.eq_of_toNat_eq <;> simp [BitVec.extractLsb'_toNat, Nat.shiftRight_eq_div_pow] <;> omega

/-- Settles O58: a word is the pattern of its sign and code, and only NaN has more than one. -/
theorem resultWordsReadBack : Obligations.ResultWordsReadBack :=
  ⟨doutReal_reads_back, fun _ _ => rfl, fun _ v => ⟨v.zeroExtend 64, rfl, halves_zeroExtend v⟩, fun _ _ => rfl⟩

/-- `abs` clears the sign bit. -/
theorem abs_ofBits (w : Word64) : (F64.ofBits w).abs = .ofBits (w &&& 0x7FFFFFFFFFFFFFFF) := by
  have hn : (w &&& 0x7FFFFFFFFFFFFFFF).toNat = w.toNat % 2 ^ 63 := by
    rw [BitVec.toNat_and]; exact Nat.and_two_pow_sub_one_eq_mod w.toNat 63
  have hb : (w &&& 0x7FFFFFFFFFFFFFFF).msb = false := by
    rw [BitVec.msb_and, show (0x7FFFFFFFFFFFFFFF : Word64).msb = false by decide, Bool.and_false]
  rw [ofBits_eq, ofBits_eq, hb, hn, Nat.mod_mod, abs_ofCode]

/-- Negation inverts the sign bit. -/
theorem neg_ofBits (w : Word64) : (F64.ofBits w).neg = .ofBits (w ^^^ 0x8000000000000000) := by
  have hn : (w ^^^ 0x8000000000000000).toNat % 2 ^ 63 = w.toNat % 2 ^ 63 := by
    rw [BitVec.toNat_xor, Nat.xor_mod_two_pow]; simp
  have hb : (w ^^^ 0x8000000000000000).msb = !w.msb := by
    rw [BitVec.msb_xor, show (0x8000000000000000 : Word64).msb = true by decide, Bool.xor_true]
  rw [ofBits_eq, ofBits_eq, hb, hn, neg_ofCode]

end Sys2Proof.Machine
end

section
/-! Every arithmetic operation rounds its exact result once, to nearest, ties to even (spec/00_scope.md R10): which code a
rounding answers, and the exact result each operation hands to it. -/

namespace Sys2Proof.Machine

open Sys2Proof

/-! ### The nearest magnitude code -/

/-- The value of the code `c` is nearest to `v` units, and `c` is even where another code is as near. -/
def NearestCode (c : Nat) (v : ℝ) : Prop :=
  ∀ c' : Nat, |(F64.units c : ℝ) - v| ≤ |(F64.units c' : ℝ) - v| ∧
    (|(F64.units c : ℝ) - v| = |(F64.units c' : ℝ) - v| → c' ≠ c → c % 2 = 0)

theorem units_cast_le {c c' : Nat} (h : c ≤ c') : (F64.units c : ℝ) ≤ F64.units c' := by
  exact_mod_cast units_mono h

theorem units_cast_lt {c c' : Nat} (h : c < c') : (F64.units c : ℝ) < F64.units c' := by
  exact_mod_cast units_strictMono h

/-- Between a code and the next, the lower one is nearest up to the midpoint. -/
theorem nearestCode_lower {c : Nat} {v : ℝ} (hlo : (F64.units c : ℝ) ≤ v)
    (hmid : 2 * v ≤ F64.units c + F64.units (c + 1)) (htie : 2 * v = F64.units c + F64.units (c + 1) → c % 2 = 0) :
    NearestCode c v := by
  intro c'
  have hstep := units_cast_lt (Nat.lt_succ_self c)
  rcases lt_trichotomy c' c with h | rfl | h
  · have := units_cast_lt h
    rw [abs_of_nonpos (by linarith), abs_of_nonpos (by linarith)]
    exact ⟨by linarith, fun _ _ => by linarith⟩
  · exact ⟨le_rfl, fun _ hne => absurd rfl hne⟩
  · have := units_cast_le (Nat.succ_le_of_lt h)
    rw [abs_of_nonpos (by linarith), abs_of_nonneg (by linarith)]
    exact ⟨by linarith, fun _ _ => htie (by linarith)⟩

/-- Between a code and the next, the upper one is nearest from the midpoint on. -/
theorem nearestCode_upper {c : Nat} {v : ℝ} (hhi : v ≤ F64.units (c + 1))
    (hmid : (F64.units c : ℝ) + F64.units (c + 1) ≤ 2 * v)
    (htie : 2 * v = F64.units c + F64.units (c + 1) → (c + 1) % 2 = 0) : NearestCode (c + 1) v := by
  intro c'
  have hstep := units_cast_lt (Nat.lt_succ_self c)
  rcases lt_trichotomy c' (c + 1) with h | rfl | h
  · have := units_cast_le (Nat.le_of_lt_succ h)
    rw [abs_of_nonneg (by linarith), abs_of_nonpos (by linarith)]
    exact ⟨by linarith, fun _ _ => htie (by linarith)⟩
  · exact ⟨le_rfl, fun _ hne => absurd rfl hne⟩
  · have := units_cast_lt h
    rw [abs_of_nonneg (by linarith), abs_of_nonneg (by linarith)]
    exact ⟨by linarith, fun _ _ => by linarith⟩

/-- Going up by `up` from a code as the position of `v` against the midpoint says, to the even code from the midpoint. -/
theorem nearestCode_add {c up : Nat} {v : ℝ} (hlo : (F64.units c : ℝ) ≤ v) (hhi : v ≤ F64.units (c + 1))
    (hdown : 2 * v < F64.units c + F64.units (c + 1) → up = 0) (hup : F64.units c + F64.units (c + 1) < 2 * v → up = 1)
    (htie : 2 * v = F64.units c + F64.units (c + 1) → up = c % 2) : NearestCode (c + up) v := by
  rcases lt_trichotomy (2 * v) (F64.units c + F64.units (c + 1)) with h | h | h
  · rw [hdown h]
    exact nearestCode_lower hlo h.le fun h' => absurd h' h.ne
  · rw [htie h]
    rcases Nat.mod_two_eq_zero_or_one c with h2 | h2 <;> rw [h2]
    · exact nearestCode_lower hlo h.le fun _ => h2
    · exact nearestCode_upper hhi h.ge fun _ => by omega
  · rw [hup h]
    exact nearestCode_upper hhi h.le fun h' => absurd h' h.ne'

/-- A significand `n` at the spacing `2^e`, gone up by `up` as the position of `v` against the midpoint says. -/
theorem nearestCode_of_parts {e n up : Nat} {v : ℝ} (hn : n < 2 ^ 53) (hen : e = 0 ∨ 2 ^ 52 ≤ n)
    (hlo : (n : ℝ) * 2 ^ e ≤ v) (hhi : v < (n + 1) * 2 ^ e) (hdown : 2 * v < (2 * n + 1) * 2 ^ e → up = 0)
    (hup : (2 * n + 1) * 2 ^ e < 2 * v → up = 1) (htie : 2 * v = (2 * n + 1) * 2 ^ e → up = n % 2) :
    NearestCode (e * 2 ^ 52 + (n + up)) v := by
  have hu : (F64.units (e * 2 ^ 52 + n) : ℝ) = n * 2 ^ e := by exact_mod_cast units_code hn.le hen
  have hu' : (F64.units (e * 2 ^ 52 + n + 1) : ℝ) = (n + 1) * 2 ^ e := by
    rw [Nat.add_assoc, units_code (by omega) (by omega)]
    push_cast
    rfl
  have hsum : (F64.units (e * 2 ^ 52 + n) : ℝ) + F64.units (e * 2 ^ 52 + n + 1) = (2 * n + 1) * 2 ^ e := by
    rw [hu, hu']; ring
  have hpar : (e * 2 ^ 52 + n) % 2 = n % 2 := by omega
  rw [← hu] at hlo
  rw [← hu'] at hhi
  rw [← hsum] at hdown hup htie
  rw [← hpar] at htie
  rw [← Nat.add_assoc (e * 2 ^ 52) n up]
  exact nearestCode_add hlo hhi.le hdown hup htie

/-- The parts of a rounding (`roundMag_parts`) as bounds on the exact quotient. -/
theorem roundMag_bounds {num den : Nat} (hd : 0 < den) : ∃ e n up : Nat, n < 2 ^ 53 ∧ (e = 0 ∨ 2 ^ 52 ≤ n) ∧
    F64.roundMag num den = e * 2 ^ 52 + (n + up) ∧ (n : ℝ) * 2 ^ e ≤ num / den ∧ (num : ℝ) / den < (n + 1) * 2 ^ e ∧
    (2 * ((num : ℝ) / den) < (2 * n + 1) * 2 ^ e → up = 0) ∧ ((2 * n + 1) * 2 ^ e < 2 * ((num : ℝ) / den) → up = 1) ∧
    (2 * ((num : ℝ) / den) = (2 * n + 1) * 2 ^ e → up = n % 2) := by
  obtain ⟨e, n, r, up, hnum, hr, hn, hen, hc, hdown, hup, htie⟩ := roundMag_parts (num := num) hd
  have hd' : (0 : ℝ) < den := by exact_mod_cast hd
  have hq : (num : ℝ) / den = n * 2 ^ e + r / den := by
    rw [hnum]; push_cast; field_simp
  have hr0 : (0 : ℝ) ≤ r / den := by positivity
  have hr' : (r : ℝ) / den < 2 ^ e := by
    rw [div_lt_iff₀ hd', mul_comm]; exact_mod_cast hr
  have hmul : ((2 * r : Nat) : ℝ) = 2 * (r / den) * den := by field_simp; push_cast; ring
  have hmul' : ((den * 2 ^ e : Nat) : ℝ) = 2 ^ e * den := by push_cast; ring
  refine ⟨e, n, up, hn, hen, hc, by linarith, by linarith, fun h => hdown ?_, fun h => hup ?_, fun h => htie ?_⟩
  · have h' : 2 * ((r : ℝ) / den) < 2 ^ e := by linarith
    rw [← Nat.cast_lt (α := ℝ), hmul, hmul']
    exact mul_lt_mul_of_pos_right h' hd'
  · have h' : (2 : ℝ) ^ e < 2 * (r / den) := by linarith
    rw [← Nat.cast_lt (α := ℝ), hmul, hmul']
    exact mul_lt_mul_of_pos_right h' hd'
  · have h' : 2 * ((r : ℝ) / den) = 2 ^ e := by linarith
    rw [← Nat.cast_inj (R := ℝ), hmul, hmul', h']

/-- The code a rounding answers is the nearest one. -/
theorem roundMag_nearest (num : Nat) {den : Nat} (hd : 0 < den) : NearestCode (F64.roundMag num den) (num / den) := by
  obtain ⟨e, n, up, hn, hen, hc, hlo, hhi, hdown, hup, htie⟩ := roundMag_bounds (num := num) hd
  rw [hc]
  exact nearestCode_of_parts hn hen hlo hhi hdown hup htie

/-- Against every multiple of `2^t`, `v` stands as the quotient does. -/
def SameSide (t : Nat) (q v : ℝ) : Prop :=
  ∀ j : Nat, (v < j * 2 ^ t ↔ q < j * 2 ^ t) ∧ (j * 2 ^ t < v ↔ j * 2 ^ t < q)

/-- A quotient that stands as `v` does against the multiples of a spacing finer than that of its codes rounds as `v`. -/
theorem roundMag_nearest_of_sameSide {num den t : Nat} {v : ℝ} (hd : 0 < den) (hbig : (2 : ℝ) ^ 53 * 2 ^ t ≤ num / den)
    (hside : SameSide t (num / den) v) : NearestCode (F64.roundMag num den) v := by
  obtain ⟨e, n, up, hn, hen, hc, hlo, hhi, hdown, hup, htie⟩ := roundMag_bounds (num := num) hd
  have hte : t < e := by
    have h1 : ((n : ℝ) + 1) * 2 ^ e ≤ 2 ^ 53 * 2 ^ e := mul_le_mul_of_nonneg_right (by exact_mod_cast hn) (by positivity)
    have h2 : (2 : ℝ) ^ t < 2 ^ e := lt_of_mul_lt_mul_left (hbig.trans_lt (hhi.trans_le h1)) (by positivity)
    exact (pow_lt_pow_iff_right₀ (by norm_num)).1 h2
  obtain ⟨k, rfl⟩ : ∃ k, e = k + 1 + t := ⟨e - t - 1, by omega⟩
  have grid (a : Nat) : (a : ℝ) * 2 ^ (k + 1 + t) = 2 * (((a * 2 ^ k : Nat) : ℝ) * 2 ^ t) := by push_cast; ring
  obtain ⟨hlo', -⟩ := hside (n * 2 ^ k * 2)
  obtain ⟨hhi', -⟩ := hside ((n + 1) * 2 ^ k * 2)
  obtain ⟨hlt, hgt⟩ := hside ((2 * n + 1) * 2 ^ k)
  have hg0 := grid n
  have hg1 := grid (n + 1)
  have hgm := grid (2 * n + 1)
  push_cast at hg0 hg1 hgm hlo' hhi' hlt hgt
  rw [hc]
  refine nearestCode_of_parts hn hen ?_ ?_ (fun h => hdown ?_) (fun h => hup ?_) (fun h => htie ?_)
  · rw [← not_lt] at hlo ⊢
    exact fun h => hlo (by linarith [hlo'.1 (by linarith)])
  · linarith [hhi'.2 (by linarith)]
  · linarith [hlt.1 (by linarith)]
  · linarith [hgt.1 (by linarith)]
  · rcases lt_trichotomy ((num : ℝ) / den) ((2 * n + 1) * 2 ^ k * 2 ^ t) with h' | h' | h'
    · linarith [hlt.2 h']
    · linarith
    · linarith [hgt.2 h']

/-! ### The root -/

/-- A marked integer root stands against every integer as the root itself: below or above with the squares. -/
theorem isqrt_marked {r h : Nat} (hlo : r * r ≤ h) (hhi : h < (r + 1) * (r + 1)) (j : Nat) :
    (h < j * j ↔ 2 * r + (if r * r = h then 0 else 1) < 2 * j) ∧
    (j * j < h ↔ 2 * j < 2 * r + (if r * r = h then 0 else 1)) := by
  rcases Nat.lt_trichotomy j r with hj | rfl | hj
  · have : j * j < r * r := Nat.mul_self_lt_mul_self hj
    split <;> omega
  · split <;> omega
  · have : (r + 1) * (r + 1) ≤ j * j := Nat.mul_self_le_mul_self hj
    split <;> omega

/-- The marked integer root, halved and scaled, stands as the scaled root does. -/
theorem isqrt_sameSide {r h : Nat} (t : Nat) (hlo : r * r ≤ h) (hhi : h < (r + 1) * (r + 1)) :
    SameSide t ((((2 * r + (if r * r = h then 0 else 1)) * 2 ^ t : Nat) : ℝ) / (2 : Nat)) (√h * 2 ^ t) := by
  intro j
  obtain ⟨hlt, hgt⟩ := isqrt_marked hlo hhi j
  generalize 2 * r + (if r * r = h then 0 else 1) = q at hlt hgt ⊢
  have ht : (0 : ℝ) < 2 ^ t := by positivity
  have hj : (0 : ℝ) ≤ j := j.cast_nonneg
  have hq : ((q * 2 ^ t : Nat) : ℝ) / (2 : Nat) = q / 2 * 2 ^ t := by push_cast; ring
  have hsq : (j : ℝ) = √((j * j : Nat) : ℝ) := by rw [Nat.cast_mul, Real.sqrt_mul_self hj]
  have hq2 : ∀ a b : Nat, (a : ℝ) / 2 < b ↔ a < 2 * b := fun a b => by
    rw [div_lt_iff₀ two_pos, mul_comm]; norm_cast
  have hq2' : ∀ a b : Nat, (b : ℝ) < a / 2 ↔ 2 * b < a := fun a b => by
    rw [lt_div_iff₀ two_pos, mul_comm]; norm_cast
  rw [hq, mul_lt_mul_iff_left₀ ht, mul_lt_mul_iff_left₀ ht, mul_lt_mul_iff_left₀ ht, mul_lt_mul_iff_left₀ ht, hq2, hq2',
    hsq, Real.sqrt_lt_sqrt_iff h.cast_nonneg, Real.sqrt_lt_sqrt_iff (j * j).cast_nonneg, Nat.cast_lt, Nat.cast_lt]
  exact ⟨hlt, hgt⟩

/-- The code of a root is the one nearest to the root. -/
theorem sqrtMag_nearest {m : Nat} (h0 : 0 < m) :
    NearestCode (F64.sqrtMag (F64.units m)) √((F64.units m : ℝ) * 2 ^ 1074) := by
  obtain ⟨t, h, ht, hh, hscale, hbig, hfuel⟩ := sqrt_scale h0
  have hv : √((F64.units m : ℝ) * 2 ^ 1074) = √h * 2 ^ t := by
    have hs : (F64.units m : ℝ) * 2 ^ 1074 = h * 2 ^ (2 * t) := by exact_mod_cast hscale
    rw [hs, pow_mul', Real.sqrt_mul h.cast_nonneg, Real.sqrt_sq (by positivity)]
  obtain ⟨hlo, hhi⟩ := isqrt_spec 60 h (hfuel.trans (by norm_num))
  rw [F64.sqrtMag, ← ht, ← hh, hv]
  generalize F64.isqrt 60 h = r at hlo hhi ⊢
  refine roundMag_nearest_of_sameSide two_pos ?_ (isqrt_sameSide t hlo hhi)
  have hr : 2 ^ 55 ≤ r := by
    by_contra hc
    have h1 : (r + 1) * (r + 1) ≤ 2 ^ 55 * 2 ^ 55 := Nat.mul_self_le_mul_self (by omega)
    omega
  have hn : 2 ^ 53 * 2 ^ t * 2 ≤ (2 * r + (if r * r = h then 0 else 1)) * 2 ^ t := by
    rw [Nat.mul_right_comm]
    exact Nat.mul_le_mul_right _ (by omega)
  rw [le_div_iff₀ (by norm_num)]
  exact_mod_cast hn

/-! ### One rounding of an exact result (R10) -/

/-- The nearest code to an exact size is what that size rounds to. -/
theorem roundsTo_ofMag (neg : Bool) {c : Nat} {v : ℝ} (h : NearestCode c (v * 2 ^ 1074)) :
    RoundsTo neg v (F64.ofMag neg c) := by
  have hp : (0 : ℝ) < 2 ^ 1074 := by positivity
  have hscale (c : Nat) : |(F64.units c : ℝ) / 2 ^ 1074 - v| = |(F64.units c : ℝ) - v * 2 ^ 1074| / 2 ^ 1074 := by
    rw [div_sub' hp.ne', abs_div, abs_of_pos hp, mul_comm v]
  refine ⟨c, fun hc => by rw [F64.ofMag, dif_pos hc], fun hc => by rw [F64.ofMag, dif_neg (by omega)], fun c' => ?_⟩
  obtain ⟨hle, htie⟩ := h c'
  rw [hscale, hscale, div_le_div_iff_of_pos_right hp, div_left_inj' hp.ne']
  exact ⟨hle, htie⟩

/-- A rounding of `num / den` units is that of the exact size they are. -/
theorem roundsTo_roundUnits (neg : Bool) {num den : Nat} {v : ℝ} (hd : 0 < den) (hv : v * 2 ^ 1074 = num / den) :
    RoundsTo neg v (F64.roundUnits neg num den) := by
  rw [F64.roundUnits]
  exact roundsTo_ofMag neg (hv ▸ roundMag_nearest num hd)

/-- A decimal literal (R10). -/
theorem lit_rounds (num : Nat) {den : Nat} (hd : 0 < den) : RoundsTo false ((num : ℝ) / den) (.lit num den) :=
  roundsTo_roundUnits false hd (by push_cast; ring)

/-- `real(n)` (R12). -/
theorem ofInt_rounds (n : Int) : RoundsTo (decide (n < 0)) |(n : ℝ)| (.ofInt n) :=
  roundsTo_roundUnits _ one_pos (by push_cast [Nat.cast_natAbs]; ring)

/-- A whole number of units, with its sign. -/
theorem units_rounds (v : Int) :
    RoundsTo (decide (v < 0)) |(v : ℝ) / 2 ^ 1074| (F64.roundUnits (decide (v < 0)) v.natAbs 1) :=
  roundsTo_roundUnits _ one_pos (by
    rw [abs_div, abs_of_pos (show (0 : ℝ) < 2 ^ 1074 by positivity), div_mul_cancel₀ _ (by positivity)]
    push_cast [Nat.cast_natAbs]
    ring)

/-! ### The exact operands and results -/

theorem value_cast (a : F64) : ((value a : ℚ) : ℝ) = (a.toUnits : ℝ) / 2 ^ 1074 := by
  simp only [value]; push_cast; rfl

theorem value_eq_zero_iff (s : Bool) (m : Fin infMag) : ((value (.fin s m) : ℚ) : ℝ) = 0 ↔ m.val = 0 := by
  have hu : F64.units m.val = 0 ↔ m.val = 0 := units_strictMono.injective.eq_iff' rfl
  rw [← abs_eq_zero, abs_value, div_eq_zero_iff, or_iff_left (by positivity), Nat.cast_eq_zero, hu]

/-- A real of positive value has the positive sign, one of negative value the negative sign. -/
theorem sign_of_value (s : Bool) (m : Fin infMag) :
    (0 < ((value (.fin s m) : ℚ) : ℝ) → s = false) ∧ (((value (.fin s m) : ℚ) : ℝ) < 0 → s = true) := by
  have h0 : (0 : ℝ) ≤ (F64.units m : ℝ) / 2 ^ 1074 := by positivity
  rw [value_fin]
  cases s with
  | false => exact ⟨fun _ => rfl, fun h => absurd h (not_lt.2 h0)⟩
  | true => exact ⟨fun h => absurd h (not_lt.2 (neg_nonpos.2 h0)), fun _ => rfl⟩

/-- A sum: a zero one has the sign both operands have, any other is rounded. -/
theorem add_rounds (s t : Bool) (m n : Fin infMag) {z : ℝ}
    (hz : ((value (.fin s m) : ℚ) : ℝ) + ((value (.fin t n) : ℚ) : ℝ) = z) :
    (0 < z → RoundsTo false z ((F64.fin s m).add (.fin t n))) ∧
    (z < 0 → RoundsTo true (-z) ((F64.fin s m).add (.fin t n))) ∧
    (z = 0 → (F64.fin s m).add (.fin t n) = .fin (s && t) 0) := by
  have hp : (0 : ℝ) < 2 ^ 1074 := by positivity
  have hadd : (F64.fin s m).add (.fin t n) =
      if (F64.fin s m).toUnits + (F64.fin t n).toUnits = 0 then .fin (s && t) 0
      else F64.roundUnits (decide ((F64.fin s m).toUnits + (F64.fin t n).toUnits < 0))
        ((F64.fin s m).toUnits + (F64.fin t n).toUnits).natAbs 1 := rfl
  rw [value_cast, value_cast, ← add_div, ← Int.cast_add] at hz
  rw [hadd]
  generalize (F64.fin s m).toUnits + (F64.fin t n).toUnits = v at hz ⊢
  have hr := units_rounds v
  rw [hz] at hr
  have hsign : (0 < z ↔ 0 < v) ∧ (z < 0 ↔ v < 0) ∧ (z = 0 ↔ v = 0) := by
    rw [← hz, div_pos_iff_of_pos_right hp, div_lt_iff₀ hp, zero_mul, div_eq_zero_iff, or_iff_left hp.ne']
    norm_cast
  obtain ⟨hpos, hneg, hzero⟩ := hsign
  refine ⟨fun h => ?_, fun h => ?_, fun h => if_pos (hzero.1 h)⟩
  · have := hpos.1 h
    rw [decide_eq_false (by omega), abs_of_pos h] at hr
    rw [if_neg (by omega), decide_eq_false (by omega)]
    exact hr
  · have := hneg.1 h
    rw [decide_eq_true this, abs_of_neg h] at hr
    rw [if_neg (by omega), decide_eq_true this]
    exact hr

/-- A difference: a zero one has the sign of the sum with the negated operand. -/
theorem sub_rounds (s t : Bool) (m n : Fin infMag) {z : ℝ}
    (hz : ((value (.fin s m) : ℚ) : ℝ) - ((value (.fin t n) : ℚ) : ℝ) = z) :
    (0 < z → RoundsTo false z ((F64.fin s m).sub (.fin t n))) ∧
    (z < 0 → RoundsTo true (-z) ((F64.fin s m).sub (.fin t n))) ∧
    (z = 0 → (F64.fin s m).sub (.fin t n) = .fin (s && !t) 0) :=
  add_rounds s (!t) m n (by rw [← hz, sub_eq_add_neg, ← value_neg]; rfl)

theorem mul_rounds (s t : Bool) (m n : Fin infMag) :
    RoundsTo (s != t) |((value (.fin s m) : ℚ) : ℝ) * ((value (.fin t n) : ℚ) : ℝ)| ((F64.fin s m).mul (.fin t n)) :=
  roundsTo_roundUnits _ (Nat.two_pow_pos 1074) (by
    rw [abs_mul, abs_value, abs_value]
    push_cast
    field_simp)

theorem div_by_zero (s t : Bool) (m : Fin infMag) {n : Fin infMag} (h : n.val = 0) :
    (F64.fin s m).div (.fin t n) = if m.val = 0 then .nan else .inf (s != t) := by
  rw [F64.div, if_pos h]

theorem div_rounds (s t : Bool) (m : Fin infMag) {n : Fin infMag} (h : n.val ≠ 0) :
    RoundsTo (s != t) |((value (.fin s m) : ℚ) : ℝ) / ((value (.fin t n) : ℚ) : ℝ)| ((F64.fin s m).div (.fin t n)) := by
  have hu := units_pos (Nat.pos_of_ne_zero h)
  have hu' : (F64.units n : ℝ) ≠ 0 := by exact_mod_cast hu.ne'
  rw [F64.div, if_neg h]
  refine roundsTo_roundUnits _ hu ?_
  rw [abs_div, abs_value, abs_value]
  push_cast
  field_simp

/-- The root of a zero is that zero, of a positive real its root rounded; a negative real has none. -/
theorem sqrt_rounds (s : Bool) (m : Fin infMag) {x : ℝ} (hx : ((value (.fin s m) : ℚ) : ℝ) = x) :
    (0 < x → RoundsTo false √x (F64.fin s m).sqrt) ∧ (x < 0 → (F64.fin s m).sqrt = .nan) ∧
    (x = 0 → (F64.fin s m).sqrt = .fin s m) := by
  have hzero := value_eq_zero_iff s m
  obtain ⟨hpos, hneg⟩ := sign_of_value s m
  rw [hx] at hzero hpos hneg
  refine ⟨fun h => ?_, fun h => ?_, fun h => ?_⟩
  · have hs := hpos h
    subst hs
    have hm : m.val ≠ 0 := fun h0 => h.ne' (hzero.2 h0)
    rw [F64.sqrt, if_neg hm, if_neg (by decide)]
    refine roundsTo_ofMag false ?_
    have hv : √x * 2 ^ 1074 = √((F64.units m : ℝ) * 2 ^ 1074) := by
      have hp : (0 : ℝ) < 2 ^ 1074 := by positivity
      have hu : (F64.units m : ℝ) = x * 2 ^ 1074 := by
        rw [← hx, value_fin, if_neg (by decide), div_mul_cancel₀ _ hp.ne']
      rw [hu, mul_assoc, Real.sqrt_mul h.le, Real.sqrt_mul_self hp.le]
    rw [hv]
    exact sqrtMag_nearest (Nat.pos_of_ne_zero hm)
  · have hs := hneg h
    have hm : m.val ≠ 0 := fun h0 => h.ne (hzero.2 h0)
    rw [F64.sqrt, if_neg hm, if_pos hs]
  · rw [F64.sqrt, if_pos (hzero.1 h)]

/-- The nearest code in exact integers, both distances multiplied by `den`. -/
theorem roundMag_nearest_int (num : Nat) {den : Nat} (c : Nat) (hd : 0 < den) :
    |(F64.units (F64.roundMag num den) * den : Int) - num| ≤ |(F64.units c * den : Int) - num| ∧
    (|(F64.units (F64.roundMag num den) * den : Int) - num| = |(F64.units c * den : Int) - num| →
      c ≠ F64.roundMag num den → F64.roundMag num den % 2 = 0) := by
  have hd' : (0 : ℝ) < den := by exact_mod_cast hd
  have hscale (c : Nat) :
      ((|(F64.units c * den : Int) - num| : Int) : ℝ) = |(F64.units c : ℝ) - num / den| * den := by
    rw [← abs_of_pos hd', ← abs_mul, abs_of_pos hd', sub_mul, div_mul_cancel₀ _ hd'.ne']
    push_cast
    rfl
  obtain ⟨hle, htie⟩ := roundMag_nearest num hd c
  rw [← Int.cast_le (R := ℝ), ← Int.cast_inj (α := ℝ), hscale, hscale, mul_le_mul_iff_left₀ hd', mul_left_inj' hd'.ne']
  exact ⟨hle, htie⟩

/-! ### NaN and the infinities (R10) -/

theorem nan_operand (x : F64) : x.add .nan = .nan ∧ F64.nan.add x = .nan ∧ x.sub .nan = .nan ∧ F64.nan.sub x = .nan ∧
    x.mul .nan = .nan ∧ F64.nan.mul x = .nan ∧ x.div .nan = .nan ∧ F64.nan.div x = .nan ∧ F64.nan.sqrt = .nan := by
  cases x <;> exact ⟨rfl, rfl, rfl, rfl, rfl, rfl, rfl, rfl, rfl⟩

theorem inf_inf (s t : Bool) :
    (F64.inf s).add (.inf t) = (if s = t then .inf s else .nan) ∧
    (F64.inf s).sub (.inf t) = (if s = t then .nan else .inf s) ∧
    (F64.inf s).mul (.inf t) = .inf (s != t) ∧ (F64.inf s).div (.inf t) = .nan ∧
    (F64.inf s).sqrt = (if s = true then .nan else .inf s) := by
  cases s <;> cases t <;> exact ⟨rfl, rfl, rfl, rfl, rfl⟩

theorem inf_fin (s t : Bool) (m : Fin infMag) :
    (F64.inf s).add (.fin t m) = .inf s ∧ (F64.fin t m).add (.inf s) = .inf s ∧
    (F64.inf s).sub (.fin t m) = .inf s ∧ (F64.fin t m).sub (.inf s) = .inf !s ∧
    (m.val = 0 → (F64.inf s).mul (.fin t m) = .nan ∧ (F64.fin t m).mul (.inf s) = .nan) ∧
    (m.val ≠ 0 → (F64.inf s).mul (.fin t m) = .inf (s != t) ∧ (F64.fin t m).mul (.inf s) = .inf (s != t)) ∧
    (F64.inf s).div (.fin t m) = .inf (s != t) ∧ (F64.fin t m).div (.inf s) = .fin (s != t) 0 := by
  have hst : (t != s) = (s != t) := bne_comm
  refine ⟨rfl, rfl, rfl, rfl, fun h => ?_, fun h => ?_, rfl, ?_⟩
  · rw [F64.mul, F64.mul, if_pos h, if_pos h]; exact ⟨rfl, rfl⟩
  · rw [F64.mul, F64.mul, if_neg h, if_neg h, hst]; exact ⟨rfl, rfl⟩
  · rw [F64.div, hst]

theorem fmax_fmin (a b : F64) : (F64.lt b a = true → F64.fmax a b = a) ∧ (F64.lt b a = false → F64.fmax a b = b) ∧
    (F64.lt a b = true → F64.fmin a b = a) ∧ (F64.lt a b = false → F64.fmin a b = b) := by
  unfold F64.fmax F64.fmin
  exact ⟨fun h => if_pos h, fun h => if_neg (by rw [h]; decide), fun h => if_pos h, fun h => if_neg (by rw [h]; decide)⟩

/-- Settles O57: each operation hands its exact result to one rounding, and a rounding answers the nearest code. -/
theorem roundingIsNearestTiesToEven : Obligations.RoundingIsNearestTiesToEven := by
  refine ⟨fun num den c => roundMag_nearest_int num c, ?_, fun num den => lit_rounds num, ofInt_rounds, nan_operand,
    inf_inf, inf_fin, fun w => ⟨abs_ofBits w, neg_ofBits w⟩, fmax_fmin⟩
  intro s t m n a b x y
  obtain ⟨hadd, hadd', hadd0⟩ := add_rounds s t m n rfl
  obtain ⟨hsub, hsub', hsub0⟩ := sub_rounds s t m n rfl
  obtain ⟨hsqrt, hsqrt', hsqrt0⟩ := sqrt_rounds s m rfl
  have hx : x = 0 ↔ m.val = 0 := value_eq_zero_iff s m
  have hy : y = 0 ↔ n.val = 0 := value_eq_zero_iff t n
  refine ⟨hadd, hadd', hadd0, hsub, fun h => neg_sub x y ▸ hsub' h, hsub0, mul_rounds s t m n,
    fun h => div_rounds s t m (mt hy.2 h), fun h h' => ?_, fun h h' => ?_, hsqrt, hsqrt', hsqrt0⟩
  · exact (div_by_zero s t m (hy.1 h)).trans (if_neg (mt hx.2 h'))
  · exact (div_by_zero s t m (hy.1 h)).trans (if_pos (hx.1 h'))

end Sys2Proof.Machine
end

section
/-! `floor` and `toIndex` (spec/00_scope.md R12): which reals stand for integers, and the largest integer not above a real. -/

namespace Sys2Proof.Machine

open Sys2Proof

/-! ### Integers as reals -/

/-- A quotient that is a code's value exactly rounds to that code. -/
theorem roundMag_of_eq {num den c : Nat} (hd : 0 < den) (h : num = F64.units c * den) : F64.roundMag num den = c := by
  obtain ⟨hle, -⟩ := roundMag_nearest_int num c hd
  have h0 : (F64.units c * den : Int) - num = 0 := by rw [h]; push_cast; ring
  rw [h0, abs_zero] at hle
  have heq : (F64.units (F64.roundMag num den) * den : Int) = (F64.units c * den : Int) := by
    have := abs_nonpos_iff.1 hle
    omega
  exact units_strictMono.injective (Nat.eq_of_mul_eq_mul_right hd (by exact_mod_cast heq))

/-- An integer whose size is a finite code's value is the real of that code. -/
theorem ofInt_of_units {n : Int} {c : Fin infMag} (h : F64.units c = n.natAbs * 2 ^ 1074) :
    F64.ofInt n = .fin (decide (n < 0)) c ∧ (F64.fin (decide (n < 0)) c).toUnits = n * 2 ^ 1074 := by
  constructor
  · rw [F64.ofInt, F64.roundUnits, roundMag_of_eq one_pos (by rw [← h, mul_one]), F64.ofMag, dif_pos c.isLt]
  · rw [toUnits_fin, h]
    rcases lt_or_ge n 0 with hn | hn
    · rw [decide_eq_true hn, signed, if_pos rfl, Nat.cast_mul, Int.ofNat_natAbs_of_nonpos hn.le, neg_mul, neg_neg]
      norm_cast
    · rw [decide_eq_false (not_lt.2 hn), signed, if_neg (by decide), Nat.cast_mul, Int.natAbs_of_nonneg hn]
      norm_cast

/-- The whole numbers below 2^53 are values of finite codes. -/
theorem units_eq_of_lt {n : Nat} (hn : n < 2 ^ 53) : ∃ c : Fin infMag, F64.units c = n * 2 ^ 1074 := by
  suffices ∃ c, F64.units c = n * 2 ^ 1074 by
    obtain ⟨c, hc⟩ := this
    refine ⟨⟨c, units_strictMono.lt_iff_lt.1 ?_⟩, hc⟩
    rw [hc, show F64.units infMag = 2 ^ (1024 + 1074) by decide +kernel, pow_add]
    exact Nat.mul_lt_mul_of_pos_right
      (hn.trans_le (Nat.pow_le_pow_right (by norm_num) (by norm_num))) (Nat.two_pow_pos _)
  rcases Nat.eq_zero_or_pos n with rfl | h0
  · exact ⟨0, by rw [zero_mul]; rfl⟩
  · have hlo := Nat.log2_self_le h0.ne'
    have hhi := Nat.lt_log2_self (n := n)
    have hL : n.log2 < 53 := (Nat.log2_lt h0.ne').2 hn
    generalize n.log2 = L at hlo hhi hL
    have hsplit : 2 ^ L * 2 ^ (52 - L) = 2 ^ 52 := by rw [← pow_add]; congr 1; omega
    refine ⟨(1074 - (52 - L)) * 2 ^ 52 + n * 2 ^ (52 - L), ?_⟩
    rw [units_code, mul_assoc, ← pow_add]
    · congr 2; omega
    · have := Nat.mul_le_mul_right (2 ^ (52 - L)) hhi.le
      rw [pow_succ, Nat.mul_right_comm, hsplit] at this
      omega
    · right
      rw [← hsplit]
      exact Nat.mul_le_mul_right _ hlo

/-- An integer of size below 2^53 is a real exactly (R12). -/
theorem ofInt_exact {n : Int} (h : |n| < 2 ^ 53) :
    ∃ s c, F64.ofInt n = .fin s c ∧ (F64.fin s c).toUnits = n * 2 ^ 1074 := by
  obtain ⟨c, hc⟩ := units_eq_of_lt (n := n.natAbs) (by rw [Int.abs_eq_natAbs] at h; exact_mod_cast h)
  exact ⟨_, c, ofInt_of_units hc⟩

/-! ### `floor` -/

theorem natAbs_toUnits (s : Bool) (m : Fin infMag) : (F64.fin s m).toUnits.natAbs = F64.units m := by
  rw [toUnits_fin]
  cases s <;> simp [signed]

/-- The floor of a finite real is the real of an integer: a real that is not whole is below 2^52 in size. -/
theorem floor_fin (s : Bool) (m : Fin infMag) : ∃ s' c, (F64.fin s m).floor = .fin s' c ∧
    (F64.fin s' c).toUnits = F64.floorInt (.fin s m) * 2 ^ 1074 := by
  by_cases h0 : m.val = 0
  · refine ⟨s, m, by rw [F64.floor, if_pos h0], ?_⟩
    have hzero : (F64.fin s m).toUnits = 0 := by
      rw [toUnits_fin, h0]
      cases s <;> rfl
    rw [F64.floorInt, hzero, Int.zero_ediv, zero_mul]
  · rw [F64.floor, if_neg h0]
    have hP : (0 : Int) < 2 ^ 1074 := by positivity
    have habs := natAbs_toUnits s m
    rcases units_dvd_or_lt 1074 m with hdvd | hlt
    · have hdvd' : (2 ^ 1074 : Int) ∣ (F64.fin s m).toUnits := by
        rw [← Int.natAbs_dvd_natAbs, habs]
        simpa [Int.natAbs_pow] using hdvd
      refine ⟨_, m, ofInt_of_units ?_⟩
      have h := congrArg Int.natAbs (Int.ediv_mul_cancel hdvd')
      rw [Int.natAbs_mul, Int.natAbs_pow, habs] at h
      exact h.symm
    · refine ofInt_exact ?_
      have hlo : -(2 ^ 52 * 2 ^ 1074) < (F64.fin s m).toUnits ∧ (F64.fin s m).toUnits < 2 ^ 52 * 2 ^ 1074 := by
        rw [← abs_lt, Int.abs_eq_natAbs, habs]
        exact_mod_cast hlt
      obtain ⟨hlo, hhi⟩ := hlo
      rw [F64.floorInt, abs_lt]
      have h1 : -(2 ^ 52) ≤ (F64.fin s m).toUnits / 2 ^ 1074 := (Int.le_ediv_iff_mul_le hP).2 (by linarith)
      have h2 : (F64.fin s m).toUnits / 2 ^ 1074 < 2 ^ 52 := (Int.ediv_lt_iff_lt_mul hP).2 hhi
      exact ⟨by linarith, by linarith⟩

theorem floorInt_eq (a : F64) : F64.floorInt a = ⌊value a⌋ := by
  rw [value, F64.floorInt]
  exact_mod_cast (Rat.floor_intCast_div_natCast a.toUnits (2 ^ 1074)).symm

/-- The floor's exact value is the largest integer not above the operand's. -/
theorem value_floor (s : Bool) (m : Fin infMag) :
    (F64.fin s m).floor.isFinite = true ∧ value (F64.fin s m).floor = (⌊value (.fin s m)⌋ : ℤ) := by
  obtain ⟨s', c, hfloor, hunits⟩ := floor_fin s m
  rw [hfloor]
  refine ⟨rfl, ?_⟩
  rw [← floorInt_eq, value, hunits, Int.cast_mul, Int.cast_pow, Int.cast_ofNat,
    mul_div_cancel_right₀ _ (by positivity)]

/-! ### `toIndex` -/

theorem toIndex_negInf {lo : Int} (hlo : |lo| < 2 ^ 53) (hi : Int) : F64.toIndex (.inf true) lo hi = lo := by
  obtain ⟨s, c, hc, -⟩ := ofInt_exact hlo
  obtain ⟨-, -, -, -, hle, -⟩ := finite_against_inf s true c
  rw [F64.toIndex, if_neg (by decide), if_pos (hc ▸ hle)]

theorem toIndex_posInf {lo hi : Int} (hlo : |lo| < 2 ^ 53) (hhi : |hi| < 2 ^ 53) :
    F64.toIndex (.inf false) lo hi = hi := by
  obtain ⟨s, c, hc, -⟩ := ofInt_exact hlo
  obtain ⟨s', c', hc', -⟩ := ofInt_exact hhi
  obtain ⟨-, -, -, -, hnot, -⟩ := finite_against_inf s false c
  obtain ⟨-, hle, -⟩ := finite_against_inf s' false c'
  rw [F64.toIndex, if_neg (by decide), hc, hnot, if_neg (by decide), hc', hle, if_pos (by decide)]

/-- `toIndex` of a finite real, by its exact value. -/
theorem toIndex_fin {lo hi : Int} (hlo : |lo| < 2 ^ 53) (hhi : |hi| < 2 ^ 53) (s : Bool)
    (m : Fin infMag) : F64.toIndex (.fin s m) lo hi =
    if (F64.fin s m).toUnits ≤ lo * 2 ^ 1074 then lo
    else if hi * 2 ^ 1074 ≤ (F64.fin s m).toUnits then hi
    else (F64.fin s m).toUnits / 2 ^ 1074 := by
  obtain ⟨s', c, hc, hcu⟩ := ofInt_exact hlo
  obtain ⟨s'', c', hc', hcu'⟩ := ofInt_exact hhi
  rw [F64.toIndex, if_neg (show ¬(F64.fin s m).isNaN = true from Bool.false_ne_true), hc, hc', ← hcu, ← hcu']
  simp only [le_fin_iff]
  rfl

/-- A saturated quotient lies between its bounds, and is the bound reached. -/
theorem saturate_spec {lo hi u P : Int} (hP : 0 < P) (hle : lo ≤ hi) {r : Int}
    (hr : r = if u ≤ lo * P then lo else if hi * P ≤ u then hi else u / P) :
    lo ≤ r ∧ r ≤ hi ∧ (u ≤ lo * P → r = lo) ∧ (hi * P ≤ u → r = hi) ∧ (lo * P < u → u < hi * P → r = u / P) := by
  by_cases h1 : u ≤ lo * P
  · rw [if_pos h1] at hr
    subst hr
    refine ⟨le_rfl, hle, fun _ => rfl, fun h => ?_, fun h => absurd h1 (not_le.2 h)⟩
    exact le_antisymm hle (le_of_mul_le_mul_right (h.trans h1) hP)
  · rw [if_neg h1] at hr
    by_cases h2 : hi * P ≤ u
    · rw [if_pos h2] at hr
      subst hr
      exact ⟨hle, le_rfl, fun h => absurd h h1, fun _ => rfl, fun _ h => absurd h2 (not_le.2 h)⟩
    · rw [if_neg h2] at hr
      subst hr
      exact ⟨(Int.le_ediv_iff_mul_le hP).2 (not_le.1 h1).le, ((Int.ediv_lt_iff_lt_mul hP).2 (not_le.1 h2)).le,
        fun h => absurd h h1, fun h => absurd h h2, fun _ _ => rfl⟩

/-- Settles O60: a whole real is its own floor and any other is below 2^52, where integers are exact, as the bounds are. -/
theorem toIndexSaturates : Obligations.ToIndexSaturates := by
  refine ⟨fun s m => ?_, rfl, fun _ => rfl, fun a lo hi hle hlo hhi => ?_⟩
  · obtain ⟨hfin, hval⟩ := value_floor s m
    exact ⟨hfin, hval, fun h => by rw [F64.floor, if_pos h]⟩
  · cases a with
    | nan => exact ⟨le_rfl, hle, fun _ => rfl, nofun, nofun, nofun⟩
    | inf s =>
      cases s with
      | true =>
        rw [toIndex_negInf hlo hi]
        exact ⟨le_rfl, hle, nofun, fun _ => rfl, nofun, nofun⟩
      | false =>
        rw [toIndex_posInf hlo hhi]
        exact ⟨hle, le_rfl, nofun, nofun, fun _ => rfl, nofun⟩
    | fin s m =>
      obtain ⟨hlow, hhigh, hsat⟩ := saturate_spec (by positivity) hle (toIndex_fin hlo hhi s m)
      exact ⟨hlow, hhigh, nofun, nofun, nofun, fun _ _ _ => hsat⟩

end Sys2Proof.Machine
end

section
/-! What an operation may change (spec/10_state.md R30, R33; spec/20_memory.md R70), said once for all operations: which
word it takes from its port, and what its transition may then write. -/

namespace Sys2Proof.Machine

open Sys2Proof

/-! ### The moves of the status register -/

/-- The operations that can set `NONFINITE` (R33), `SYN.STEP` apart, which has a move of its own. -/
def MayNote (i : Instr) : Prop := i.unit = 2 ∨ i = .iqcStep ∨ i = .agcStep ∨ i = .rsmPush ∨ i = .rsmPushc

/-- What operation `i` can do to the stored flags: the rows of R33. -/
inductive StatusMove : Instr → Status → Status → Prop where
  | kept (i : Instr) (a : Status) : StatusMove i a a
  | faulted (i : Instr) (a : Status) (h : a.fault = false) : StatusMove i a { a with fault := true }
  | noted {i : Instr} (h : MayNote i) (a : Status) (b : Bool) :
      StatusMove i a { a with nonfinite := a.nonfinite || b }
  | stepped (a : Status) (b : Bool) :
      StatusMove .synStep a { a with resetPending := false, nonfinite := a.nonfinite || b }
  | requested (a : Status) : StatusMove .synEndbuf a { a with reqOutstanding := true }
  | notified {i : Instr} (h : i = .synAck ∨ i = .synRate) (a : Status) :
      StatusMove i a { a with resetPending := true, reqOutstanding := false }
  | unitReset (a : Status) : StatusMove (.rstu 10) a { a with resetPending := false, reqOutstanding := false }
  | restarted (a : Status) : StatusMove .rstall a ⟨false, false, false, false⟩

/-- Fault entry sets `FAULT`, or finds it set and changes nothing (R233). -/
theorem StatusMove.raised (i : Instr) (a : Status) : StatusMove i a { a with fault := true } := by
  obtain ⟨f, r, o, n⟩ := a
  cases f with
  | false => exact .faulted i _ rfl
  | true => exact .kept i _

/-! ### The word an operation takes -/

/-- The state in which the transition of `i` begins: `s` itself where `i` holds or there is nothing to deliver, else `s`
without the word at the head of the port of `i` and, of a command that runs, without its operands. -/
inductive Taken : Instr → State → State → Prop where
  | held (i : Instr) (s : State) : Taken i s s
  | retired {i : Instr} (h : i.port = .cmd) (s : State) : Taken i s s.retire
  | consumed {i : Instr} (h : i.port = .cmd) (s : State) : Taken i s (s.consume (dinWords i))
  | dropped {i : Instr} (h : i.port = .ntf) (s : State) : Taken i s s.dropNtf

/-! ### The transition -/

/-- What the transition of operation `i`, its words taken, may change from `s` to `t` (`RSTALL` apart): the registers of
its unit and the others that the last column of R30 names, the fault registers by fault entry, the flags of its rows of
R33; it takes no further word and puts words only behind. -/
structure Effect (i : Instr) (s t : State) : Prop where
  params : t.params = s.params ∨ ∃ k, i = .wrp k
  dcf : t.dcf = s.dcf ∨ i = .dcfStep ∨ i = .dcfStepc ∨ i = .rstu 2
  avgQ : t.dcf.avgQ = s.dcf.avgQ ∨ i = .dcfStepc ∨ i = .rstu 2
  iqc : t.iqc = s.iqc ∨ i = .iqcStep ∨ i = .rstu 3
  fmd : t.fmd = s.fmd ∨ i = .fmdStep ∨ i = .rstu 4
  agc : t.agc = s.agc ∨ i = .agcStep ∨ i = .rstu 6 ∨ i = .wrp 5 ∨ i = .wrp 6
  dgc : t.dgc = s.dgc ∨ i = .dgcInc ∨ i = .dgcDec ∨ i = .synStep ∨ i = .rstu 7
  rsm : t.rsm = s.rsm ∨ i = .rsmPush ∨ i = .rsmPushc ∨ i = .rstu 9
  wQ : t.rsm.wQ = s.rsm.wQ ∨ i = .rsmPushc ∨ i = .rstu 9
  syn : t.syn = s.syn ∨ i = .synStep ∨ i = .synEndbuf ∨ i = .synAck ∨ i = .synRate ∨ i = .rstu 10
  acked : t.syn.acked = s.syn.acked ∨ i = .synAck ∨ i = .rstu 10
  faultRegs : (t.faultCode = s.faultCode ∧ t.faultCmd = s.faultCmd) ∨ (s.status.fault = false ∧ t.status.fault = true)
  status : StatusMove i s.status t.status
  cmd : t.cmd = s.cmd
  din : t.din = s.din
  ntf : t.ntf = s.ntf
  dout : s.dout <+: t.dout
  evt : s.evt <+: t.evt

namespace Effect

variable {i : Instr} {s t : State}

theorem refl (i : Instr) (s : State) : Effect i s s := by
  constructor <;> simp [StatusMove.kept]

theorem raiseFault (i : Instr) (s : State) (c : FaultCode) (w : Word32) : Effect i s (s.raiseFault c w) := by
  constructor <;> simp [StatusMove.raised]
  cases s.status.fault <;> simp

/-- Words put on DOUT after it change nothing else. -/
theorem append (h : Effect i s t) (ws : List Word64) (n : Nat) :
    Effect i s { t with dout := t.dout ++ ws, nanCount := n } :=
  { h with dout := h.dout.trans (List.prefix_append _ _) }

theorem doutReals (h : Effect i s t) (vs : List F64) : Effect i s (t.doutReals vs) := by
  obtain ⟨ws, n, e⟩ := t.doutReals_frame vs
  exact e ▸ h.append ws n

theorem doutReal (h : Effect i s t) (v : F64) : Effect i s (t.doutReal v) := h.doutReals [v]

theorem doutReg (h : Effect i s t) (v : RegValue) : Effect i s (t.doutReg v) := by
  obtain ⟨w, n, e⟩ := t.doutReg_frame v
  exact e ▸ h.append [w] n

/-- A note of a non-finite sample after a transition that left the status. -/
theorem note (h : Effect i s t) (hs : t.status = s.status) (hi : MayNote i) (b : Bool) :
    Effect i s (t.noteNonfinite b) :=
  { h with status := by rw [State.noteNonfinite_status, hs]; exact .noted hi _ b }

/-! ### The transitions that write a register, unit by unit -/

/-- `RSTU u` resets the registers of unit `u`, each one of the numbers that the last column of R30 names. -/
theorem resetUnit (s : State) (u : Arg) : Effect (.rstu u) s (s.resetUnit u.toNat) := by
  have hu {n : Nat} (h : u.toNat = n) : u = BitVec.ofNat 16 n := by rw [← h, BitVec.ofNat_toNat, BitVec.setWidth_eq]
  unfold State.resetUnit
  split
  case h_1 h => rw [hu h]; exact { refl _ s with dcf := by simp, avgQ := by simp }
  case h_2 h => rw [hu h]; exact { refl _ s with iqc := by simp }
  case h_3 h => rw [hu h]; exact { refl _ s with fmd := by simp }
  case h_4 h => rw [hu h]; exact { refl _ s with agc := by simp }
  case h_5 h => rw [hu h]; exact { refl _ s with dgc := by simp }
  case h_6 h => rw [hu h]; exact { refl _ s with rsm := by simp, wQ := by simp }
  case h_7 h => rw [hu h]; exact { refl _ s with syn := by simp, acked := by simp, status := .unitReset _ }
  case h_8 => exact .refl _ s

/-- A legal `WRP` writes a parameter, and AGC where that is one of its two. -/
theorem write (s : State) (k : Arg) (p : Params) :
    Effect (.wrp k) s ({ s with params := p }.afterWrite k.toNat) := by
  have hw : Effect (.wrp k) s { s with params := p } := { refl _ s with params := .inr ⟨k, rfl⟩ }
  unfold State.afterWrite
  split
  · next h =>
    have hk : k = 5 ∨ k = 6 := h.imp BitVec.eq_of_toNat_eq BitVec.eq_of_toNat_eq
    exact { hw with agc := by simpa using .inr hk }
  · exact hw

/-- `DCF.BLOCK` and `DCF.BLOCKC` write no average. -/
theorem dcfBlock (hi : i.unit = 2) (s : State) (b : Bool) : Effect i s (s.noteNonfinite b) :=
  (refl i s).note rfl (.inl hi) b

/-- `DCF.STEP` writes the average of I. -/
theorem dcfStep (s : State) (a : F64) (b : Bool) :
    Effect .dcfStep s ({ s with dcf := { s.dcf with avgI := a } }.noteNonfinite b) :=
  have h : Effect .dcfStep s { s with dcf := { s.dcf with avgI := a } } := { refl _ s with dcf := by simp }
  h.note rfl (.inl rfl) b

/-- `DCF.STEPC` writes both averages. -/
theorem dcfStepc (s : State) (u : Dcf) (b : Bool) : Effect .dcfStepc s ({ s with dcf := u }.noteNonfinite b) :=
  have h : Effect .dcfStepc s { s with dcf := u } := { refl _ s with dcf := by simp, avgQ := by simp }
  h.note rfl (.inl rfl) b

theorem iqcStep (s : State) (u : Iqc) (b : Bool) : Effect .iqcStep s ({ s with iqc := u }.noteNonfinite b) :=
  have h : Effect .iqcStep s { s with iqc := u } := { refl _ s with iqc := by simp }
  h.note rfl (by simp [MayNote]) b

theorem fmdStep (s : State) (u : Fmd) : Effect .fmdStep s { s with fmd := u } :=
  { refl _ s with fmd := by simp }

theorem agcStep (s : State) (u : Agc) (b : Bool) : Effect .agcStep s ({ s with agc := u }.noteNonfinite b) :=
  have h : Effect .agcStep s { s with agc := u } := { refl _ s with agc := by simp }
  h.note rfl (by simp [MayNote]) b

/-- The output loop of a push writes the position, and only where the push could. -/
theorem resample {tp : Taps} {s₁ : State} {ws : List (Vector F64 8)} (hs : Effect i s s₁)
    (hi : i = .rsmPush ∨ i = .rsmPushc) (hwQ : s₁.rsm.wQ = s.rsm.wQ ∨ i = .rsmPushc)
    (h : Machine.resample tp s₁ ws = .next t) : Effect i s t := by
  rcases resample_cases tp s₁ ws with ⟨-, e⟩ | ⟨out, pos, -, e⟩ <;> rw [e] at h <;> cases h
  have h : Effect i s { s₁ with rsm := { s₁.rsm with pos := pos.sub .one } } :=
    { hs with rsm := by tauto, wQ := by tauto }
  exact h.doutReals out

/-- `RSM.PUSH` writes the position and the window of I. -/
theorem rsmPush {tp : Taps} {x : F64} (h : rsmPushWith tp s x = .next t) : Effect .rsmPush s t := by
  have hw : Effect .rsmPush s { s with rsm := { s.rsm with wI := shiftIn s.rsm.wI (cleanSample x) } } :=
    { refl _ s with rsm := by simp }
  exact (hw.note rfl (by simp [MayNote]) _).resample (.inl rfl) (.inl rfl) h

/-- `RSM.PUSHC` writes the position and both windows. -/
theorem rsmPushc {tp : Taps} {x y : F64} (h : rsmPushcWith tp s x y = .next t) : Effect .rsmPushc s t := by
  have hw : Effect .rsmPushc s { s with rsm := { s.rsm with
      wI := shiftIn s.rsm.wI (cleanSample x), wQ := shiftIn s.rsm.wQ (cleanSample y) } } :=
    { refl _ s with rsm := by simp, wQ := by simp }
  exact (hw.note rfl (by simp [MayNote]) _).resample (.inr rfl) (.inr rfl) h

/-- Steps 1 to 3 of `SYN.STEP` write SYN but for the tuner's total, and its flags, and may put an event (R192 to R195). -/
theorem synIntake (s : State) (x : F64) : Effect .synStep s (Machine.synIntake s x) := by
  cases hr : s.status.resetPending with
  | true =>
    simp only [Machine.synIntake, synTrackerReset, State.noteNonfinite_status, hr, if_true]
    exact { refl _ s with
      syn := by simp, acked := .inl rfl, status := .stepped _ _, evt := List.prefix_append _ _ }
  | false =>
    simp only [Machine.synIntake, synTrackerReset, State.noteNonfinite_status, hr, Bool.false_eq_true, if_false]
    exact { refl _ s with syn := by simp, acked := .inl rfl, status := .stepped _ _ }

/-- `SYN.STEP` writes SYN but for the tuner's total, its flags and the direct gain. -/
theorem synStep (tp : Taps) (s : State) (x : F64) : Effect .synStep s (synStepWith tp s x) := by
  have h := synIntake s x
  unfold synStepWith
  split
  · refine doutReal ?_ _
    exact { h with dgc := by simp, syn := by simp }
  · exact h

/-- `SYN.ENDBUF` drops the latch, and may put an event and set `REQ_OUTSTANDING`. -/
theorem synEndbuf (s : State) : Effect .synEndbuf s (Machine.synEndbuf s) := by
  have h : Effect .synEndbuf s { s with syn := { s.syn with pending := 0 } } :=
    { refl _ s with syn := by simp, acked := .inl rfl }
  unfold Machine.synEndbuf
  split
  · exact .refl _ s
  · dsimp only
    split
    · exact { h with status := .requested _, evt := List.prefix_append _ _ }
    · exact h

/-- Both notifications drop the latch and write the two flags of SYN (R241, R242). -/
theorem trackerNotified (h : Effect i s t) (hi : i = .synAck ∨ i = .synRate) (hs : t.status = s.status) :
    Effect i s t.trackerNotified :=
  { h with
    syn := by tauto, status := by rw [State.trackerNotified_status, hs]; exact .notified hi _ }

/-- `SYN.ACK` also takes the tuner's total. -/
theorem synAck (s : State) (w : Word64) :
    Effect .synAck s { s with syn := { s.syn with acked := w.extractLsb' 0 32 } }.trackerNotified :=
  have h : Effect .synAck s { s with syn := { s.syn with acked := w.extractLsb' 0 32 } } :=
    { refl _ s with syn := by simp, acked := by simp }
  h.trackerNotified (.inl rfl) rfl

end Effect

/-! ### Every operation -/

theorem command_effect {i : Instr} {s t : State} {body : State → List Word64 → Result} (hp : i.port = .cmd)
    (h : command i s body = .next t) (hb : ∀ s₁ d, body s₁ d = .next t → Effect i s₁ t) :
    ∃ s₁, Taken i s s₁ ∧ Effect i s₁ t := by
  rcases command_next h with rfl | ⟨c, -, rfl⟩ | rfl | ⟨-, hrun⟩
  · exact ⟨_, .retired hp s, .refl ..⟩
  · exact ⟨_, .retired hp s, .raiseFault ..⟩
  · exact ⟨_, .held i _, .refl ..⟩
  · exact ⟨_, .consumed hp s, hb _ _ hrun⟩

theorem readOut_effect {i : Instr} {v : Option RegValue} {s t : State} (hp : i.port = .cmd)
    (h : readOut i v s = .next t) : ∃ s₁, Taken i s s₁ ∧ Effect i s₁ t := by
  rcases readOut_cases i v s with ⟨-, e⟩ | ⟨x, -, e⟩ <;> rw [e] at h <;> cases h
  · exact ⟨_, .retired hp s, .raiseFault ..⟩
  · exact ⟨_, .retired hp s, .doutReg (.refl ..) x⟩

theorem notification_effect {i : Instr} {s t : State} {body : State → Word64 → State} (hp : i.port = .ntf)
    (h : notification s body = .next t) (hb : ∀ s₁ w, Effect i s₁ (body s₁ w)) : ∃ s₁, Taken i s s₁ ∧ Effect i s₁ t := by
  rcases notification_cases s body with ⟨-, e⟩ | ⟨-, -, -, -, e⟩ | ⟨n, -, -, -, e⟩ <;> rw [e] at h <;> cases h
  · exact ⟨_, .held i s, .refl ..⟩
  · exact ⟨_, .dropped hp s, .refl ..⟩
  · exact ⟨_, .dropped hp s, hb ..⟩

/-- Every operation but `RSTALL` takes its words and makes its transition. -/
theorem exec_effect {i : Instr} {s t : State} (h : exec i s = .next t) (hi : i ≠ .rstall) :
    ∃ s₁, Taken i s s₁ ∧ Effect i s₁ t := by
  cases i <;> unfold exec at h
  case nop => cases h; exact ⟨_, .retired rfl s, .refl ..⟩
  case rstall => exact absurd rfl hi
  case rstu u => exact command_effect rfl h fun s₁ d hb => by cases hb; exact .resetUnit s₁ u
  case wrp k =>
    refine command_effect rfl h fun s₁ d hb => ?_
    split at hb <;> cases hb
    · exact .raiseFault ..
    · exact .write ..
  case rdp => exact readOut_effect rfl h
  case rds => exact readOut_effect rfl h
  case pcmLd | amdStep | dgcCorrect | intFir =>
    exact command_effect rfl h fun s₁ d hb => by cases hb; exact .doutReal (.refl ..) _
  case pcmLdc | intFirc => exact command_effect rfl h fun s₁ d hb => by cases hb; exact .doutReals (.refl ..) _
  case pcmSt => exact command_effect rfl h fun s₁ d hb => by cases hb; exact .doutReg (.refl ..) (.word _)
  case dcfStep => exact command_effect rfl h fun s₁ d hb => by cases hb; exact .doutReal (.dcfStep ..) _
  case dcfStepc => exact command_effect rfl h fun s₁ d hb => by cases hb; exact .doutReals (.dcfStepc ..) _
  case dcfBlock | dcfBlockc =>
    exact command_effect rfl h fun s₁ d hb => by cases hb; exact .doutReals (.dcfBlock rfl ..) _
  case iqcStep => exact command_effect rfl h fun s₁ d hb => by cases hb; exact .doutReals (.iqcStep ..) _
  case fmdStep => exact command_effect rfl h fun s₁ d hb => by cases hb; exact .doutReal (.fmdStep ..) _
  case agcStep => exact command_effect rfl h fun s₁ d hb => by cases hb; exact .doutReals (.agcStep ..) _
  case dgcInc | dgcDec =>
    exact command_effect rfl h fun s₁ d hb => by cases hb; exact { Effect.refl _ s₁ with dgc := by simp }
  case intFirmu =>
    refine command_effect rfl h fun s₁ d hb => ?_
    dsimp only at hb
    split at hb <;> cases hb
    · exact .doutReal (.refl ..) _
    · exact .raiseFault ..
  case intFirmuc =>
    refine command_effect rfl h fun s₁ d hb => ?_
    dsimp only at hb
    split at hb <;> cases hb
    · exact .doutReals (.refl ..) _
    · exact .raiseFault ..
  case rsmPush => exact command_effect rfl h fun s₁ d hb => .rsmPush hb
  case rsmPushc => exact command_effect rfl h fun s₁ d hb => .rsmPushc hb
  case synStep => exact command_effect rfl h fun s₁ d hb => by cases hb; exact .synStep ..
  case synEndbuf => exact command_effect rfl h fun s₁ d hb => by cases hb; exact .synEndbuf ..
  case synAck => exact notification_effect rfl h .synAck
  case synRate => exact notification_effect rfl h fun s₁ _ => .trackerNotified (.refl ..) (.inr rfl) rfl

end Sys2Proof.Machine
end

section
/-! What every operation keeps, derived from the one inversion `exec_effect`: the registers of the other units, the flags
of the other rows, the order of the queues (spec/10_state.md R30, R33, R40, R50; spec/20_memory.md R70). -/

namespace Sys2Proof.Machine

open Sys2Proof

/-- Taking words touches the three queues they are taken from. -/
theorem Taken.frame {i : Instr} {s s₁ : State} (h : Taken i s s₁) :
    s₁ = { s with cmd := s₁.cmd, din := s₁.din, ntf := s₁.ntf } := by
  cases h <;> rfl

/-- The operations that a move of the status names. -/
theorem StatusMove.op {i : Instr} {a b : Status} (h : StatusMove i a b) (hi : i ≠ .rstall) :
    b = a ∨ (a.fault = false ∧ b = { a with fault := true }) ∨ i.unit = 2 ∨ i = .iqcStep ∨ i = .agcStep ∨
      i = .rsmPush ∨ i = .rsmPushc ∨ i = .synStep ∨ i = .synEndbuf ∨ i = .synAck ∨ i = .synRate ∨ i = .rstu 10 := by
  cases h with
  | kept => exact .inl rfl
  | faulted _ _ h => exact .inr (.inl ⟨h, rfl⟩)
  | noted h => unfold MayNote at h; tauto
  | stepped => simp
  | requested => simp
  | notified h => tauto
  | unitReset => simp
  | restarted => exact absurd rfl hi

/-- Settles O52: the words taken are no register, and the transition writes what `Effect` says. -/
theorem stateIsWrittenOnlyByItsUnit : Obligations.StateIsWrittenOnlyByItsUnit := by
  intro i s t h hi
  obtain ⟨s₁, htaken, heff⟩ := exec_effect h hi
  rw [htaken.frame] at heff
  exact ⟨heff.params, heff.dcf, heff.avgQ, heff.iqc, heff.fmd, heff.agc, heff.dgc, heff.rsm, heff.wQ, heff.syn,
    heff.acked, heff.faultRegs, heff.status.op hi⟩

/-! ### The flags (R33) -/

/-- `RSTALL` takes its word and resets (R101). -/
theorem exec_rstall (s : State) : exec .rstall s = .next s.retire.restart := rfl

/-- Every operation moves the status as its rows of R33 say. -/
theorem exec_status {i : Instr} {s t : State} (h : exec i s = .next t) : StatusMove i s.status t.status := by
  by_cases hi : i = .rstall
  · subst hi; cases h; exact .restarted _
  · obtain ⟨s₁, htaken, heff⟩ := exec_effect h hi
    rw [htaken.frame] at heff
    exact heff.status

/-- A bit of one flag's word. -/
theorem flagBit_getLsbD (b : Bool) {n : Nat} (hn : n < 64) (k : Nat) :
    (flagBit b n).getLsbD k = (b && decide (k = n)) := by
  cases b
  · simp [flagBit]
  · rw [flagBit, if_pos rfl, BitVec.getLsbD_ofNat, Nat.testBit_two_pow, Bool.true_and]
    by_cases h : k = n
    · subst h; simp [hn]
    · simp [h, Ne.symm h]

/-- The status word, bit by bit. -/
theorem statusWord_getLsbD (s : State) (k : Nat) : s.statusWord.getLsbD k =
    (s.status.fault && decide (k = 0) || s.status.resetPending && decide (k = 1) ||
      s.status.reqOutstanding && decide (k = 2) || s.status.nonfinite && decide (k = 3) ||
      (s.syn.pending != 0) && decide (k = 4)) := by
  simp only [State.statusWord, State.reqLatched, BitVec.getLsbD_or]
  rw [flagBit_getLsbD _ (by decide), flagBit_getLsbD _ (by decide), flagBit_getLsbD _ (by decide),
    flagBit_getLsbD _ (by decide), flagBit_getLsbD _ (by decide)]

/-- Settles O21: each bit of the word is its flag, and each move of the status is one of the rows of R33. -/
theorem statusFlagsAsTabled : Obligations.StatusFlagsAsTabled := by
  constructor
  · intro s
    simp only [statusWord_getLsbD]
    refine ⟨by simp, by simp, by simp, by simp, by simp, fun k hk => ?_⟩
    have (n : Nat) (hn : n ≤ 4) : decide (k = n) = false := decide_eq_false (by omega)
    simp [this]
  · intro i s t h
    have hm := exec_status h
    generalize s.status = a at hm
    generalize t.status = b at hm
    cases hm with
    | kept => simp +contextual
    | faulted => simp +contextual
    | noted hi => unfold MayNote at hi; simp +contextual; tauto
    | stepped => simp +contextual
    | requested => simp +contextual
    | notified hi => simp +contextual; tauto
    | unitReset => simp +contextual
    | restarted => simp

/-! ### The queues (R50, R70) -/

/-- What taking words does to CMD, DIN and NTF, by the port of the operation. -/
theorem Taken.queues {i : Instr} {s s₁ : State} (h : Taken i s s₁) :
    (s₁.cmd = s.cmd ∨ s₁.cmd = s.cmd.tail) ∧ (s₁.ntf = s.ntf ∨ s₁.ntf = s.ntf.tail) ∧
      (∃ k, s₁.din = s.din.drop k ∧ (k = 0 ∨ k = dinWords i)) ∧
      (i.port = .cmd → s₁.ntf = s.ntf) ∧ (i.port = .ntf → s₁.cmd = s.cmd ∧ s₁.din = s.din) := by
  cases h with
  | held => exact ⟨.inl rfl, .inl rfl, ⟨0, rfl, .inl rfl⟩, fun _ => rfl, fun _ => ⟨rfl, rfl⟩⟩
  | retired hp =>
    exact ⟨.inr rfl, .inl rfl, ⟨0, rfl, .inl rfl⟩, fun _ => rfl, fun hp' => by rw [hp] at hp'; cases hp'⟩
  | consumed hp =>
    exact ⟨.inr rfl, .inl rfl, ⟨_, rfl, .inr rfl⟩, fun _ => rfl, fun hp' => by rw [hp] at hp'; cases hp'⟩
  | dropped hp =>
    exact ⟨.inl rfl, .inr rfl, ⟨0, rfl, .inl rfl⟩, fun hp' => (by rw [hp] at hp'; cases hp'), fun _ => ⟨rfl, rfl⟩⟩

/-- A notification whose transition leaves DOUT leaves it. -/
theorem notification_dout {s t : State} {body : State → Word64 → State} (hb : ∀ s w, (body s w).dout = s.dout)
    (h : notification s body = .next t) : t.dout = s.dout := by
  rcases notification_cases s body with ⟨-, e⟩ | ⟨-, -, -, -, e⟩ | ⟨n, -, -, -, e⟩ <;> rw [e] at h <;> cases h
  · rfl
  · rfl
  · exact hb _ _

/-- An operation of NTF puts nothing on DOUT. -/
theorem exec_ntf_dout {i : Instr} {s t : State} (hp : i.port = .ntf) (h : exec i s = .next t) : t.dout = s.dout := by
  cases i <;> try cases hp
  case synAck => exact notification_dout (by intros; rfl) (show execSynAck s = .next t from h)
  case synRate => exact notification_dout (by intros; rfl) (show execSynRate s = .next t from h)

/-- Settles O53: the words taken leave in front, and the transition puts words behind. -/
theorem queuesMoveInOrder : Obligations.QueuesMoveInOrder := by
  intro i s t h
  by_cases hi : i = .rstall
  · subst hi
    cases h
    exact ⟨.inr rfl, .inl rfl, ⟨s.din.length, by simp, fun hne => absurd rfl hne⟩, fun _ => rfl, List.prefix_rfl,
      List.prefix_rfl, fun _ => rfl, nofun⟩
  · obtain ⟨s₁, htaken, heff⟩ := exec_effect h hi
    obtain ⟨hcmd, hntf, ⟨k, hdin, hk⟩, hofCmd, hofNtf⟩ := htaken.queues
    have hdout : s.dout <+: t.dout := by have := heff.dout; rwa [htaken.frame] at this
    have hevt : s.evt <+: t.evt := by have := heff.evt; rwa [htaken.frame] at this
    rw [← heff.cmd] at hcmd hofNtf
    rw [← heff.din] at hdin hofNtf
    rw [← heff.ntf] at hntf hofCmd
    refine ⟨hcmd, hntf, ⟨k, hdin, fun _ => hk⟩, fun h' => absurd h' hi, hdout, hevt, hofCmd, fun hp => ?_⟩
    obtain ⟨hc, hd⟩ := hofNtf hp
    exact ⟨hc, hd, exec_ntf_dout hp h⟩

end Sys2Proof.Machine
end

section
/-! The parameter registers as a row of values (spec/10_state.md R40): a read takes one by its index, a legal write replaces
one. What `WRP` does with that, and which state register `RDS` shows at each index (R30, R103 to R106). -/

namespace Sys2Proof.Machine

open Sys2Proof

/-! ### The row of parameters -/

/-- The values of the parameter registers in the order of their indices (R40). -/
def Params.values (p : Params) : List RegValue :=
  [.real p.dcRatio, .real p.iqRatio, .real p.fmGain, .real p.amGain, .real p.agcObjective, .real p.agcFloor,
    .int32 p.agcWindow, .real p.dgcInit, .real p.dgcMin, .real p.dgcMax, .real p.dgcStep, .real p.rsStep,
    .real p.pcmScale, .real p.sampleRate, .real p.symbolRate, .real p.kSymbolSpread, .real p.kSymbolTiming,
    .real p.kCoarseFrequency, .real p.kFineFrequency, .real p.spreadNominal, .real p.spreadMin, .real p.spreadMax,
    .real p.coarseThreshold, .int32 p.reqStepHz, .int32 p.maxCorrectionHz, .real p.symbolStep]

/-- The operand of a write as the register with index `k` takes it: 6 and 24 are integers. -/
def writtenValue (k : Nat) (w : Word64) : RegValue :=
  if k = 6 ∨ k = 24 then .int32 (w.extractLsb' 0 32) else .real (.ofBits w)

/-- A read takes the value at its index. -/
theorem Params.read_eq (p : Params) (k : Nat) : p.read k = p.values[k]? := by
  rcases Nat.lt_or_ge k 26 with h | h
  · interval_cases k <;> rfl
  · rw [List.getElem?_eq_none (show p.values.length ≤ k from h)]
    unfold Params.read
    split <;> first | rfl | omega

/-- A legal write replaces the value at its index by the operand's. -/
theorem Params.values_write {p p' : Params} {k : Nat} {w : Word64} (h : p.write k w = some p') :
    k < 26 ∧ p'.values = p.values.set k (writtenValue k w) := by
  unfold Params.write at h
  split at h <;> simp only [Option.ite_none_right_eq_some, Option.some.injEq, reduceCtorEq] at h <;>
    obtain ⟨-, rfl⟩ := h <;> exact ⟨by decide, rfl⟩

/-- After a legal write its register reads as the operand. -/
theorem Params.read_write_same {p p' : Params} {k : Nat} {w : Word64} (h : p.write k w = some p') :
    p'.read k = some (writtenValue k w) := by
  obtain ⟨hk, hv⟩ := values_write h
  rw [read_eq, hv, List.getElem?_set_self hk]

/-- A legal write leaves every other register. -/
theorem Params.read_write_other {p p' : Params} {k q : Nat} {w : Word64} (h : p.write k w = some p') (hq : q ≠ k) :
    p'.read q = p.read q := by
  obtain ⟨-, hv⟩ := values_write h
  rw [read_eq, read_eq, hv, List.getElem?_set_ne hq.symm]

/-- Settles O17: the test of each arm of `write` is the one its row of R40 names. -/
theorem parameterLegality : Obligations.ParameterLegality := by
  intro p w v n ok ratio positive
  have hratio (q : Params) : (if legalRatio v = true then some q else none).isSome = true ↔ ratio := by
    simp [ratio, legalRatio, and_assoc]
  have hpositive (q : Params) : (if legalPositive v = true then some q else none).isSome = true ↔ positive := by
    simp [positive, legalPositive]
  have hfinite (q : Params) : (if v.isFinite = true then some q else none).isSome = true ↔ v.isFinite = true := by
    simp
  refine ⟨hratio _, hratio _, hfinite _, hfinite _, hpositive _, ?window, hpositive _, hpositive _, hpositive _,
    hpositive _, ?step, ?correction⟩
  case window => simp [ok, n, Params.write, legalWindow]
  case step => simp [ok, v, Params.write, legalRsStep, and_assoc]
  case correction => simp [ok, n, Params.write, legalMaxCorrection]

/-! ### `WRP` (R103, R104) -/

theorem exec_wrp_legal {s : State} {k : Arg} {p : Params} (h : s.Ready (.wrp k))
    (hw : s.params.write k.toNat (dinWord (s.din.take 1) 0) = some p) :
    exec (.wrp k) s = .next ({ s.consume 1 with params := p }.afterWrite k.toNat) := by
  refine (show execWrp k s = _ from command_ready h _).trans ?_
  simp only [State.consume_params, dinWords, hw]

theorem exec_wrp_illegal {s : State} {k : Arg} (h : s.Ready (.wrp k))
    (hw : s.params.write k.toNat (dinWord (s.din.take 1) 0) = none) :
    exec (.wrp k) s = .next ((s.consume 1).raiseFault .badConfig (encode (.wrp k))) := by
  refine (show execWrp k s = _ from command_ready h _).trans ?_
  simp only [State.consume_params, dinWords, hw]

/-- A read-write index passes the check on `ARG`, so `WRP` of it starts once its operand is there. -/
theorem ready_wrp {s : State} {k : Arg} {w : Word64} {rest : List Word64} (hf : s.status.fault = false)
    (hk : k.toNat ≤ 3 ∨ (5 ≤ k.toNat ∧ k.toNat ≤ 11) ∨ k.toNat = 24) (hd : s.din = w :: rest) :
    s.Ready (.wrp k) := by
  refine ⟨hf, ?_, by simp [hd, dinWords]⟩
  have hro : paramReadOnly k.toNat = false := by simp [paramReadOnly]; omega
  rw [argFault, if_neg (by omega), hro, if_neg (by decide)]

/-- Fault entry where no fault is recorded (R233). -/
theorem State.raiseFault_of_clear {s : State} (hf : s.status.fault = false) (c : FaultCode) (w : Word32) :
    s.raiseFault c w = { s with status := { s.status with fault := true }, faultCode := c, faultCmd := w } := by
  rw [State.raiseFault, if_neg (by rw [hf]; decide)]

/-- Settles O18: a legal write replaces one value of the row, an illegal one faults. -/
theorem wrpWritesOneParameter : Obligations.WrpWritesOneParameter := by
  refine ⟨fun p => rfl, fun s k w rest hf hk hd => ?_⟩
  have hready := ready_wrp hf hk hd
  have hword : dinWord (s.din.take 1) 0 = w := by rw [hd]; rfl
  have hrest : s.din.drop 1 = rest := by rw [hd]; rfl
  have hnum {n : Nat} (hn : n < 65536) : k = BitVec.ofNat 16 n ↔ k.toNat = n := by
    rw [← BitVec.toNat_inj, BitVec.toNat_ofNat, Nat.mod_eq_of_lt hn]
  have h5 : k = 5 ↔ k.toNat = 5 := hnum (by decide)
  have h6 : k = 6 ↔ k.toNat = 6 := hnum (by decide)
  have h24 : k = 24 ↔ k.toNat = 24 := hnum (by decide)
  refine ⟨fun p' hw => ⟨?_, ?_, fun q hq => Params.read_write_other hw hq⟩, fun hw => ?_⟩
  · rw [exec_wrp_legal hready (hword ▸ hw), State.afterWrite]
    simp only [State.consume, State.retire, State.resetAgc, Agc.reset, hrest, h5, h6]
    split <;> rfl
  · rw [Params.read_write_same hw, writtenValue, apply_ite some]
    simp only [h6, h24]
  · rw [exec_wrp_illegal hready (hword ▸ hw), State.raiseFault_of_clear (s := s.consume 1) hf, State.consume, hrest]
    rfl

/-! ### `RDS` (R30, R106) -/

theorem readArray_eq {n : Nat} (a : Vector F64 n) (j : Fin n) : readArray a j = .real a[j] := by
  have hj : j.val < a.toList.length := by simp
  rw [readArray, List.getD_eq_getElem _ _ hj]
  simp

/-- Above the single registers only the arrays are mapped. -/
theorem readState_above (s : State) {k : Nat} (hk : 22 < k) : s.readState k =
    if 32 ≤ k ∧ k ≤ 39 then some (readArray s.syn.hist (k - 32))
    else if 40 ≤ k ∧ k ≤ 47 then some (readArray s.rsm.wI (k - 40))
    else if 48 ≤ k ∧ k ≤ 55 then some (readArray s.rsm.wQ (k - 48))
    else if 256 ≤ k ∧ k ≤ 511 then some (readArray s.agc.ring (k - 256))
    else none := by
  unfold State.readState
  split <;> first | omega | rfl

/-- Settles O20: the single registers by their rows, the arrays by the offset of each slot, nothing elsewhere. -/
theorem stateRegisterMap : Obligations.StateRegisterMap := by
  intro s
  refine ⟨?_, fun j => ⟨?_, ?_, ?_⟩, fun j => ?_, fun k hk => ?_⟩
  · cases hc : s.faultCode <;> simp [State.readState, List.range_succ, hc, FaultCode.toNat]
  · rw [readState_above s (by omega), if_pos (by omega), Nat.add_sub_cancel_left, readArray_eq]
  · rw [readState_above s (by omega), if_neg (by omega), if_pos (by omega), Nat.add_sub_cancel_left, readArray_eq]
  · rw [readState_above s (by omega), if_neg (by omega), if_neg (by omega), if_pos (by omega),
      Nat.add_sub_cancel_left, readArray_eq]
  · rw [readState_above s (by omega), if_neg (by omega), if_neg (by omega), if_neg (by omega), if_pos (by omega),
      Nat.add_sub_cancel_left, readArray_eq]
  · rw [readState_above s (by omega), if_neg (by omega), if_neg (by omega), if_neg (by omega), if_neg (by omega)]

/-! ### Power-on reset (R260) -/

/-- Settles O13: each default is a literal whose pattern the machine's own rounding gives. -/
theorem parameterDefaults : Obligations.ParameterDefaults := by
  unfold Obligations.ParameterDefaults
  decide +kernel

theorem ofBits_zero : F64.ofBits 0 = .zero := by decide +kernel

/-- Settles O12: the four values computed from the defaults have their patterns; all else is zero or empty. -/
theorem resetValues : Obligations.ResetValues := by
  unfold Obligations.ResetValues
  rw [ofBits_zero]
  refine ⟨rfl, by decide +kernel, by decide +kernel, by decide +kernel, rfl, rfl, rfl, rfl, rfl, rfl, rfl, rfl, rfl, rfl,
    rfl, rfl, rfl, ?zeros, rfl, rfl, rfl, rfl, rfl, rfl, rfl, rfl, rfl⟩
  case zeros =>
    intro x hx
    simp only [State.reset, Agc.reset, Syn.reset, Rsm.reset, Vector.toList_replicate, List.mem_append,
      List.mem_replicate] at hx
    tauto

end Sys2Proof.Machine
end

section
/-! The AGC window (spec/43_gain.md R151, R152, R154): envelopes are finite and not negative, among such reals the maximum
of a list is one of them and only one, and an update keeps the maximum that of the window. -/

namespace Sys2Proof.Machine

open Sys2Proof

/-! ### Reals that are finite and not negative -/

theorem plain_iff {x : F64} : plain x = true ↔ ∃ m : Fin infMag, x = .fin false m := by
  cases x with
  | nan => simp [plain, F64.isFinite]
  | inf s => simp [plain, F64.isFinite]
  | fin s m => cases s <;> simp [plain, F64.isFinite, F64.sign]

theorem lt_plain (m n : Fin infMag) : F64.lt (.fin false m) (.fin false n) = decide (m < n) := by
  simp [F64.lt, F64.key]

theorem feq_plain (m n : Fin infMag) : F64.feq (.fin false m) (.fin false n) = decide (m = n) := by
  simp [F64.feq, F64.key, Fin.ext_iff]

@[simp] theorem sign_ofMag (neg : Bool) (mag : Nat) : (F64.ofMag neg mag).sign = neg := by
  unfold F64.ofMag
  split <;> rfl

@[simp] theorem sign_roundUnits (neg : Bool) (num den : Nat) : (F64.roundUnits neg num den).sign = neg := by
  rw [F64.roundUnits, sign_ofMag]

theorem sign_lit (num den : Nat) : (F64.lit num den).sign = false := sign_roundUnits ..

theorem sign_abs (a : F64) : a.abs.sign = false := by cases a <;> rfl

theorem sign_fmax {a b : F64} (ha : a.sign = false) (hb : b.sign = false) : (F64.fmax a b).sign = false := by
  unfold F64.fmax
  split <;> assumption

theorem sign_fmin {a b : F64} (ha : a.sign = false) (hb : b.sign = false) : (F64.fmin a b).sign = false := by
  unfold F64.fmin
  split <;> assumption

theorem toUnits_nonneg {a : F64} (ha : a.sign = false) : 0 ≤ a.toUnits := by
  cases a with
  | nan => exact le_rfl
  | inf s => exact le_rfl
  | fin s m => cases ha; rw [toUnits_fin]; exact Int.natCast_nonneg _

theorem sign_add {a b : F64} (ha : a.sign = false) (hb : b.sign = false) : (a.add b).sign = false := by
  cases a with
  | nan => rfl
  | inf s =>
    cases ha
    cases b with
    | nan => rfl
    | inf t => cases hb; rfl
    | fin t n => rfl
  | fin s m =>
    cases b with
    | nan => rfl
    | inf t => exact hb
    | fin t n =>
      have h0 := add_nonneg (toUnits_nonneg ha) (toUnits_nonneg hb)
      cases ha
      cases hb
      unfold F64.add
      dsimp only
      split
      · rfl
      · rw [sign_roundUnits, decide_eq_false (not_lt.2 h0)]

theorem sign_mul {a b : F64} (ha : a.sign = false) (hb : b.sign = false) : (a.mul b).sign = false := by
  cases a with
  | nan => rfl
  | inf s =>
    cases ha
    cases b with
    | nan => rfl
    | inf t => cases hb; rfl
    | fin t n => cases hb; unfold F64.mul; dsimp only; split <;> rfl
  | fin s m =>
    cases ha
    cases b with
    | nan => rfl
    | inf t => cases hb; unfold F64.mul; dsimp only; split <;> rfl
    | fin t n => cases hb; exact sign_roundUnits ..

/-- An envelope is not negative (R151). -/
theorem envelope_plain {i q : F64} (h : (envelope i q).isFinite = true) : plain (envelope i q) = true := by
  have hs : (envelope i q).sign = false :=
    sign_add (sign_fmax (sign_abs i) (sign_abs q)) (sign_mul (sign_lit 4 10) (sign_fmin (sign_abs i) (sign_abs q)))
  rw [plain, h, hs]
  rfl

/-! ### The maximum of a list -/

/-- `m` is in the list and nothing in the list is above it. -/
def IsMaximum (l : List F64) (m : F64) : Prop := m ∈ l ∧ ∀ x ∈ l, F64.lt m x = false

/-- Not below and not above is equal, among finite reals that are not negative. -/
theorem eq_of_not_lt_F64 {a b : F64} (ha : plain a = true) (hb : plain b = true) (h1 : F64.lt a b = false)
    (h2 : F64.lt b a = false) : a = b := by
  obtain ⟨m, rfl⟩ := plain_iff.1 ha
  obtain ⟨n, rfl⟩ := plain_iff.1 hb
  rw [lt_plain, decide_eq_false_iff_not, not_lt] at h1 h2
  rw [le_antisymm h2 h1]

theorem not_lt_trans_F64 {a b c : F64} (ha : plain a = true) (hb : plain b = true) (hc : plain c = true)
    (h1 : F64.lt a b = false) (h2 : F64.lt b c = false) : F64.lt a c = false := by
  obtain ⟨m, rfl⟩ := plain_iff.1 ha
  obtain ⟨n, rfl⟩ := plain_iff.1 hb
  obtain ⟨k, rfl⟩ := plain_iff.1 hc
  rw [lt_plain, decide_eq_false_iff_not, not_lt] at *
  exact h2.trans h1

theorem not_lt_of_lt_F64 {a b : F64} (ha : plain a = true) (hb : plain b = true) (h : F64.lt a b = true) :
    F64.lt b a = false := by
  obtain ⟨m, rfl⟩ := plain_iff.1 ha
  obtain ⟨n, rfl⟩ := plain_iff.1 hb
  rw [lt_plain, decide_eq_true_eq] at h
  rw [lt_plain, decide_eq_false (not_lt.2 h.le)]

theorem not_lt_self_F64 {a : F64} (ha : plain a = true) : F64.lt a a = false := by
  obtain ⟨m, rfl⟩ := plain_iff.1 ha
  rw [lt_plain, decide_eq_false (lt_irrefl m)]

theorem feq_self_F64 {a : F64} (ha : plain a = true) : F64.feq a a = true := by
  obtain ⟨m, rfl⟩ := plain_iff.1 ha
  rw [feq_plain, decide_eq_true rfl]

theorem IsMaximum.unique {l : List F64} {m m' : F64} (hl : ∀ x ∈ l, plain x = true) (h : IsMaximum l m)
    (h' : IsMaximum l m') : m = m' :=
  eq_of_not_lt_F64 (hl _ h.1) (hl _ h'.1) (h.2 _ h'.1) (h'.2 _ h.1)

/-- The rescan of R152 over a non-empty list. -/
theorem isMaximum_foldl {x : F64} {l : List F64} (hl : ∀ y ∈ x :: l, plain y = true) :
    IsMaximum (x :: l) (l.foldl F64.fmax x) := by
  induction l generalizing x with
  | nil =>
    refine ⟨List.mem_singleton_self x, fun y hy => ?_⟩
    rw [List.mem_singleton.1 hy]
    exact not_lt_self_F64 (hl x (List.mem_singleton_self x))
  | cons y l ih =>
    have hx : plain x = true := hl x (by simp)
    have hy : plain y = true := hl y (by simp)
    obtain ⟨hmem, hx', hy'⟩ : (F64.fmax x y = x ∨ F64.fmax x y = y) ∧ F64.lt (F64.fmax x y) x = false ∧
        F64.lt (F64.fmax x y) y = false := by
      unfold F64.fmax
      cases h : F64.lt y x with
      | true => exact ⟨.inl rfl, not_lt_self_F64 hx, not_lt_of_lt_F64 hy hx h⟩
      | false => exact ⟨.inr rfl, h, not_lt_self_F64 hy⟩
    have hm : plain (F64.fmax x y) = true := by rcases hmem with h | h <;> rw [h] <;> assumption
    have hl' : ∀ z ∈ F64.fmax x y :: l, plain z = true := by
      intro z hz
      rcases List.mem_cons.1 hz with rfl | hz
      · exact hm
      · exact hl z (by simp [hz])
    obtain ⟨hin, hge⟩ := ih hl'
    have habove := hge _ List.mem_cons_self
    refine ⟨?_, fun z hz => ?_⟩
    · rcases List.mem_cons.1 hin with h | h
      · rw [List.foldl_cons, h]
        rcases hmem with h | h <;> simp [h]
      · simp [h]
    · rcases List.mem_cons.1 hz with rfl | hz
      · exact not_lt_trans_F64 (hl' _ hin) hm hx habove hx'
      · rcases List.mem_cons.1 hz with rfl | hz
        · exact not_lt_trans_F64 (hl' _ hin) hm hy habove hy'
        · exact hge z (List.mem_cons_of_mem _ hz)

/-- The maximum over a window of at least one entry. -/
theorem ringMax_isMaximum {ring : Vector F64 256} {n : Nat} (hring : ∀ x ∈ ring.toList, plain x = true) (hn : 0 < n) :
    IsMaximum (ring.toList.take n) (ringMax ring n) := by
  have hw : ∀ x ∈ ring.toList.take n, plain x = true := fun x hx => hring x (List.mem_of_mem_take hx)
  unfold ringMax
  cases hl : ring.toList.take n with
  | nil =>
    have := congrArg List.length hl
    simp at this
    omega
  | cons x rest => exact isMaximum_foldl (hl ▸ hw)

/-! ### Replacing one entry -/

/-- An entry above the maximum is the new one. -/
theorem IsMaximum.set_above {l : List F64} {m e : F64} {i : Nat} (hl : ∀ x ∈ l, plain x = true)
    (he : plain e = true) (h : IsMaximum l m) (hi : i < l.length) (hlt : F64.lt m e = true) : IsMaximum (l.set i e) e := by
  have hm := hl m h.1
  refine ⟨List.mem_set hi e, fun x hx => ?_⟩
  rcases List.mem_or_eq_of_mem_set hx with hx | rfl
  · exact not_lt_trans_F64 he hm (hl x hx) (not_lt_of_lt_F64 hm he hlt) (h.2 x hx)
  · exact not_lt_self_F64 he

/-- An entry not above the maximum, in the place of one that was not the maximum, leaves it. -/
theorem IsMaximum.set_below {l : List F64} {m e : F64} {i : Nat} (h : IsMaximum l m) (hi : i < l.length)
    (hold : l[i] ≠ m) (hlt : F64.lt m e = false) : IsMaximum (l.set i e) m := by
  obtain ⟨j, hj, hjm⟩ := List.mem_iff_getElem.1 h.1
  have hij : i ≠ j := fun hij => hold (by subst hij; exact hjm)
  refine ⟨List.mem_iff_getElem.2 ⟨j, by simpa using hj, by rw [List.getElem_set_ne hij, hjm]⟩, fun x hx => ?_⟩
  rcases List.mem_or_eq_of_mem_set hx with hx | rfl
  · exact h.2 x hx
  · exact hlt

/-! ### The update (R152) -/

theorem agcUpdate_raised {p : Params} {u : Agc} {e : F64} (h : F64.lt u.max e = true) :
    agcUpdate p u e = ⟨agcGain p e, e, (u.idx + 1) % p.agcWindow.toNat, ringSet u.ring u.idx e⟩ := by
  simp [agcUpdate, h]

theorem agcUpdate_rescanned {p : Params} {u : Agc} {e : F64} (h : F64.lt u.max e = false)
    (hold : F64.feq (u.ring.toList.getD u.idx .zero) u.max = true) :
    agcUpdate p u e = ⟨agcGain p (ringMax (ringSet u.ring u.idx e) p.agcWindow.toNat),
      ringMax (ringSet u.ring u.idx e) p.agcWindow.toNat, (u.idx + 1) % p.agcWindow.toNat, ringSet u.ring u.idx e⟩ := by
  simp only [agcUpdate, h, hold, Bool.false_eq_true, if_false, Bool.not_false, Bool.and_self, if_true]

theorem agcUpdate_kept {p : Params} {u : Agc} {e : F64} (h : F64.lt u.max e = false)
    (hold : F64.feq (u.ring.toList.getD u.idx .zero) u.max = false) :
    agcUpdate p u e = ⟨u.gain, u.max, (u.idx + 1) % p.agcWindow.toNat, ringSet u.ring u.idx e⟩ := by
  simp only [agcUpdate, h, hold, Bool.false_eq_true, if_false, Bool.and_false]

theorem ringSet_toList (ring : Vector F64 256) (i : Nat) (e : F64) : (ringSet ring i e).toList = ring.toList.set i e := by
  simp [ringSet]

/-- A legal window is not empty and inside the ring. -/
theorem legalWindow_toNat {n : BitVec 32} (h : legalWindow n = true) : 0 < n.toNat ∧ n.toNat ≤ 256 := by
  simp only [legalWindow, Bool.and_eq_true, decide_eq_true_eq] at h
  have := n.isLt
  rw [BitVec.toInt_eq_toNat_cond] at h
  split at h <;> omega

/-- An update keeps the AGC invariant (R154 (a)). -/
theorem agcUpdate_keeps {p : Params} {u : Agc} {e : F64} (hp : p.Legal) (hu : AgcInv p u) (he : plain e = true) :
    AgcInv p (agcUpdate p u e) := by
  obtain ⟨hindex, hentries, hmax, hgain⟩ := hu
  obtain ⟨hn, hn256⟩ := legalWindow_toNat hp.agcWindow
  have hentries' : ∀ x ∈ (ringSet u.ring u.idx e).toList, plain x = true := by
    intro x hx
    rw [ringSet_toList] at hx
    rcases List.mem_or_eq_of_mem_set hx with hx | rfl
    · exact hentries x hx
    · exact he
  have hindex' : (u.idx + 1) % p.agcWindow.toNat < p.agcWindow.toNat := Nat.mod_lt _ hn
  have hwindow : ∀ x ∈ u.ring.toList.take p.agcWindow.toNat, plain x = true :=
    fun x hx => hentries x (List.mem_of_mem_take hx)
  have hold := ringMax_isMaximum hentries hn
  rw [← hmax] at hold
  have hlen : u.idx < (u.ring.toList.take p.agcWindow.toNat).length := by simp; omega
  have hnew {m : F64} (h : IsMaximum ((u.ring.toList.take p.agcWindow.toNat).set u.idx e) m) :
      m = ringMax (ringSet u.ring u.idx e) p.agcWindow.toNat := by
    rw [← List.take_set, ← ringSet_toList] at h
    exact h.unique (fun x hx => hentries' x (List.mem_of_mem_take hx)) (ringMax_isMaximum hentries' hn)
  cases hlt : F64.lt u.max e with
  | true =>
    rw [agcUpdate_raised hlt]
    exact ⟨hindex', hentries', hnew (hold.set_above hwindow he hlen hlt), rfl⟩
  | false =>
    cases hfeq : F64.feq (u.ring.toList.getD u.idx .zero) u.max with
    | true =>
      rw [agcUpdate_rescanned hlt hfeq]
      exact ⟨hindex', hentries', rfl, rfl⟩
    | false =>
      rw [agcUpdate_kept hlt hfeq]
      have hne : (u.ring.toList.take p.agcWindow.toNat)[u.idx] ≠ u.max := by
        intro heq
        rw [List.getElem_take] at heq
        rw [List.getD_eq_getElem _ _ (by simp; omega), heq, feq_self_F64 (hwindow _ hold.1)] at hfeq
        cases hfeq
      exact ⟨hindex', hentries', hnew (hold.set_below hlen hne hlt), hgain⟩

/-- A sample enters the window only where its envelope is finite, so every sample keeps the invariant (R152, R153). -/
theorem agcSample_keeps {p : Params} {u : Agc} (hp : p.Legal) (hu : AgcInv p u) (i q : F64) :
    AgcInv p (if agcAccepts i q then agcUpdate p u (envelope i q) else u) := by
  split
  · next hacc =>
    simp only [agcAccepts, Bool.and_eq_true] at hacc
    obtain ⟨-, henv⟩ := hacc
    exact agcUpdate_keeps hp hu (envelope_plain henv)
  · exact hu

/-- Settles O37: `AGC.STEP` puts its sample into the window, or leaves AGC. -/
theorem agcStepKeepsWindowMaximum : Obligations.AgcStepKeepsWindowMaximum := by
  intro s t hp hu h
  rcases command_next (show execAgcStep s = .next t from h) with rfl | ⟨c, -, rfl⟩ | rfl | ⟨-, hrun⟩
  · exact hu
  · simpa using hu
  · exact hu
  · cases hrun
    simp only [State.doutReals_params, State.doutReals_agc]
    exact agcSample_keeps hp hu _ _

end Sys2Proof.Machine
end

section
/-! The invariants of spec/10_state.md R32 (with spec/43_gain.md R154, R159 and spec/44_interp.md R181): what each unit's
formulas keep, the values after a reset, and every operation and step from a state that meets them. -/

namespace Sys2Proof.Machine

open Sys2Proof

/-! ### Order -/

theorem lt_of_lt_of_le_F64 {a b c : F64} (h1 : F64.lt a b = true) (h2 : F64.le b c = true) : F64.lt a c = true := by
  unfold F64.lt F64.le at *
  cases ha : a.key <;> cases hb : b.key <;> cases hc : c.key <;> simp_all
  omega

theorem key_eq_none_iff {a : F64} : a.key = none ↔ a = .nan := by cases a <;> simp [F64.key]

/-- Of two reals that are not NaN, one is below the other or not above it. -/
theorem le_of_not_lt_F64 {a b : F64} (ha : a ≠ .nan) (hb : b ≠ .nan) (h : F64.lt a b = false) : F64.le b a = true := by
  unfold F64.lt at h
  unfold F64.le
  cases hka : a.key with
  | none => exact absurd (key_eq_none_iff.1 hka) ha
  | some x =>
    cases hkb : b.key with
    | none => exact absurd (key_eq_none_iff.1 hkb) hb
    | some y => simpa [hka, hkb] using h

theorem ne_nan_of_le {a b : F64} (h : F64.le a b = true) : a ≠ .nan ∧ b ≠ .nan := by
  obtain ⟨-, -, hb, -, -, -⟩ := compare_nan a
  obtain ⟨-, -, -, ha, -, -⟩ := compare_nan b
  constructor <;> rintro rfl
  · rw [ha] at h; cases h
  · rw [hb] at h; cases h

theorem le_zero_of_sign {a : F64} (hs : a.sign = false) (hn : a ≠ .nan) : F64.le .zero a = true := by
  cases a with
  | nan => exact absurd rfl hn
  | inf s => cases hs; rfl
  | fin s m => cases hs; simp [F64.le, F64.key, F64.zero]

theorem le_zero_fin_iff (s : Bool) (m : Fin infMag) :
    F64.le .zero (.fin s m) = true ↔ 0 ≤ (F64.fin s m).toUnits :=
  le_fin_iff false s 0 m

/-- A rounding to the positive side is not negative. -/
theorem le_zero_roundUnits (num den : Nat) : F64.le .zero (.roundUnits false num den) = true := by
  refine le_zero_of_sign (sign_roundUnits ..) ?_
  rw [F64.roundUnits, F64.ofMag]
  split <;> simp

/-- A sum whose exact value is not negative is not negative. -/
theorem le_zero_add_fin {s t : Bool} {m n : Fin infMag} (h : 0 ≤ (F64.fin s m).toUnits + (F64.fin t n).toUnits) :
    F64.le .zero ((F64.fin s m).add (.fin t n)) = true := by
  unfold F64.add
  dsimp only
  split
  · exact (le_zero_fin_iff _ 0).2 (by rw [toUnits_fin]; cases (s && t) <;> exact le_rfl)
  · rw [decide_eq_false (not_lt.2 h)]
    exact le_zero_roundUnits _ _

theorem le_zero_add {a b : F64} (ha : F64.le .zero a = true) (hb : F64.le .zero b = true) :
    F64.le .zero (a.add b) = true := by
  cases a with
  | nan => exact ha
  | inf s =>
    cases s with
    | true => cases ha
    | false =>
      cases b with
      | nan => exact hb
      | inf t =>
        cases t with
        | true => cases hb
        | false => rfl
      | fin t n => rfl
  | fin s m =>
    cases b with
    | nan => exact hb
    | inf t => exact hb
    | fin t n => exact le_zero_add_fin (add_nonneg ((le_zero_fin_iff s m).1 ha) ((le_zero_fin_iff t n).1 hb))

theorem toUnits_neg (a : F64) : a.neg.toUnits = -a.toUnits := by
  cases a with
  | nan => rfl
  | inf s => rfl
  | fin s m => cases s <;> simp [F64.neg, F64.toUnits]

/-- A difference from a finite real not above is not negative. -/
theorem le_zero_sub {a : F64} {t : Bool} {n : Fin infMag} (h : F64.le (.fin t n) a = true) :
    F64.le .zero (a.sub (.fin t n)) = true := by
  cases a with
  | nan => exact absurd rfl (ne_nan_of_le h).2
  | inf s =>
    cases s with
    | true =>
      obtain ⟨-, hle, -⟩ := finite_against_inf t true n
      rw [hle] at h
      cases h
    | false => rfl
  | fin s m =>
    have hle := (le_fin_iff t s n m).1 h
    have hneg := toUnits_neg (.fin t n)
    rw [F64.sub, F64.neg] at *
    exact le_zero_add_fin (by rw [hneg]; omega)

theorem one_eq_fin : F64.one = .fin false 0x3FF0000000000000 := by decide +kernel

/-! ### The formulas of the units -/

/-- A leaky average stays finite: a candidate that is not is left (R120). -/
theorem dcStep_finite (r x : F64) {avg : F64} (h : avg.isFinite = true) : (dcStep r x avg).avg.isFinite = true := by
  unfold dcStep
  dsimp only
  split
  · next hok => simp only [Bool.and_eq_true] at hok; exact hok.2
  · exact h

/-- The three estimates of IQC are finite. -/
def Iqc.Finite (u : Iqc) : Prop := u.pii.isFinite = true ∧ u.pqq.isFinite = true ∧ u.piq.isFinite = true

/-- The estimates of IQC stay finite: candidates that are not are left (R130). -/
theorem iqcUpdate_finite (r i q : F64) {u : Iqc} (h : u.Finite) : (iqcUpdate r i q u).1.Finite := by
  unfold iqcUpdate
  dsimp only
  split
  · next hok =>
    simp only [Bool.and_eq_true] at hok
    obtain ⟨⟨⟨-, ha⟩, hb⟩, hc⟩ := hok
    exact ⟨ha, hb, hc⟩
  · exact h

/-- A real between two legal positive ones is one. -/
theorem legalPositive_between {a b x : F64} (ha : legalPositive a = true) (hb : legalPositive b = true)
    (h1 : F64.le a x = true) (h2 : F64.le x b = true) : legalPositive x = true := by
  have hzero : F64.lt .zero x = true := by
    simp only [legalPositive, Bool.and_eq_true] at ha
    exact lt_of_lt_of_le_F64 ha.2 h1
  obtain ⟨n, rfl⟩ := legalPositive_fin hb
  have hfin : x.isFinite = true := by
    cases x with
    | nan => cases hzero
    | inf s =>
      cases s with
      | true => cases hzero
      | false =>
        obtain ⟨-, -, -, -, hle, -⟩ := finite_against_inf false false n
        rw [hle] at h2
        cases h2
    | fin s m => rfl
  rw [legalPositive, hfin, hzero]
  rfl

/-- `increase()` keeps the gain positive and finite (R157, R159). -/
theorem dgcIncrease_legalPositive {p : Params} (hp : p.Legal) {u : Dgc} (hu : legalPositive u.gain = true) :
    legalPositive (dgcIncrease p u).gain = true := by
  unfold dgcIncrease F64.fmin
  dsimp only
  split
  · next h => exact legalPositive_between hu hp.dgcMax (le_add_of_legalPositive hu hp.dgcStep) (le_of_lt_F64 h)
  · exact hp.dgcMax

/-- `decrease()` keeps the gain positive and finite (R158, R159). -/
theorem dgcDecrease_legalPositive {p : Params} (hp : p.Legal) {u : Dgc} (hu : legalPositive u.gain = true) :
    legalPositive (dgcDecrease p u).gain = true := by
  unfold dgcDecrease F64.fmax
  dsimp only
  split
  · next h => exact legalPositive_between hp.dgcMin hu (le_of_lt_F64 h) (sub_le_of_legalPositive hu hp.dgcStep)
  · exact hp.dgcMin

theorem synGainStep_legalPositive {p : Params} (hp : p.Legal) {u : Dgc} (hu : legalPositive u.gain = true) (sp : F64) :
    legalPositive (synGainStep p sp u).gain = true := by
  unfold synGainStep
  split
  · exact dgcIncrease_legalPositive hp hu
  · split
    · exact dgcDecrease_legalPositive hp hu
    · exact hu

theorem cleanSample_finite (x : F64) : (cleanSample x).isFinite = true := by
  unfold cleanSample
  split
  · assumption
  · rfl

/-- A push of a finite sample keeps a window finite (R181). -/
theorem shiftIn_finite {w : Vector F64 8} {x : F64} (hw : finiteWindow w) (hx : x.isFinite = true) :
    finiteWindow (shiftIn w x) := by
  intro j
  simp only [shiftIn, Fin.getElem_fin, Vector.getElem_ofFn]
  split
  · next h => exact hw ⟨j.val + 1, h⟩
  · exact hx

/-- Step 3 of `SYN.STEP` keeps the history finite (R195). -/
theorem synAdvance_finite (p : Params) {u : Syn} {v : F64} (hu : finiteWindow u.hist) (hv : v.isFinite = true) :
    finiteWindow (synAdvance p u v).hist := by
  intro j
  simp only [synAdvance, Fin.getElem_fin, Vector.getElem_set]
  split
  · exact hv
  · exact hu j

/-- The output loop ends at a position that is at least 1.0 (R181 (b)). -/
theorem resampleLoop_position {t : Taps} {ws : List (Vector F64 8)} {step : F64} (hstep : F64.le .zero step = true)
    {fuel : Nat} {pos pos' : F64} {out : List F64} (hpos : F64.le .zero pos = true)
    (h : resampleLoop t ws step fuel pos = some (out, pos')) : F64.le .one pos' = true := by
  have hdone {q : F64} (hq : F64.le .zero q = true) (hlt : F64.lt q .one = false) : F64.le .one q = true :=
    le_of_not_lt_F64 (ne_nan_of_le hq).2 (by rw [one_eq_fin]; simp) hlt
  induction fuel generalizing pos out with
  | zero =>
    rw [resampleLoop] at h
    cases hlt : F64.lt pos .one with
    | true => simp [hlt] at h
    | false =>
      simp only [hlt, Bool.false_eq_true, if_false, Option.some.injEq, Prod.mk.injEq] at h
      exact h.2 ▸ hdone hpos hlt
  | succ n ih =>
    rw [resampleLoop] at h
    cases hlt : F64.lt pos .one with
    | true =>
      simp only [hlt, if_true] at h
      cases hrest : resampleLoop t ws step n (pos.add step) with
      | none => simp [hrest] at h
      | some r =>
        simp only [hrest, Option.some.injEq, Prod.mk.injEq] at h
        exact ih (le_zero_add hpos hstep) (hrest.trans (by rw [← h.2]))
    | false =>
      simp only [hlt, Bool.false_eq_true, if_false, Option.some.injEq, Prod.mk.injEq] at h
      exact h.2 ▸ hdone hpos hlt

end Sys2Proof.Machine
end

section
/-! Every step keeps the invariants (spec/10_state.md R32): legal parameters stay legal and pin the read-only ones, resets
meet the invariants, each operation's transition keeps them, and so does each turn. -/

namespace Sys2Proof.Machine

open Sys2Proof

/-! ### Parameters (R40) -/

theorem Params.default_legal : Params.default.Legal where
  dcRatio := by decide +kernel
  iqRatio := by decide +kernel
  fmGain := by decide +kernel
  amGain := by decide +kernel
  agcFloor := by decide +kernel
  agcWindow := by decide +kernel
  dgcInit := by decide +kernel
  dgcMin := by decide +kernel
  dgcMax := by decide +kernel
  dgcStep := by decide +kernel
  rsStep := by decide +kernel
  maxCorrectionHz := by decide +kernel
  readOnly := fun _ _ => rfl

/-- A read-only index has no legal value. -/
theorem Params.write_readOnly (p : Params) {k : Nat} (w : Word64) (h : paramReadOnly k = true) : p.write k w = none := by
  have hk : k = 4 ∨ (12 ≤ k ∧ k ≤ 23) ∨ k = 25 := by simpa [paramReadOnly, or_assoc] using h
  unfold Params.write
  dsimp only
  split <;> first | omega | rfl

/-- A legal write keeps the parameters legal. -/
theorem Params.Legal.write {p p' : Params} {k : Nat} {w : Word64} (hp : p.Legal) (h : p.write k w = some p') :
    p'.Legal := by
  have hread : ∀ q, paramReadOnly q = true → p'.read q = Params.default.read q := by
    intro q hq
    have hqk : q ≠ k := by
      rintro rfl
      rw [Params.write_readOnly p w hq] at h
      cases h
    rw [Params.read_write_other h hqk, hp.readOnly q hq]
  unfold Params.write at h
  split at h <;> simp only [Option.ite_none_right_eq_some, Option.some.injEq, reduceCtorEq] at h <;>
    obtain ⟨hv, rfl⟩ := h
  case h_1 => exact { hp with dcRatio := hv, readOnly := hread }
  case h_2 => exact { hp with iqRatio := hv, readOnly := hread }
  case h_3 => exact { hp with fmGain := hv, readOnly := hread }
  case h_4 => exact { hp with amGain := hv, readOnly := hread }
  case h_5 => exact { hp with agcFloor := hv, readOnly := hread }
  case h_6 => exact { hp with agcWindow := hv, readOnly := hread }
  case h_7 => exact { hp with dgcInit := hv, readOnly := hread }
  case h_8 => exact { hp with dgcMin := hv, readOnly := hread }
  case h_9 => exact { hp with dgcMax := hv, readOnly := hread }
  case h_10 => exact { hp with dgcStep := hv, readOnly := hread }
  case h_11 => exact { hp with rsStep := hv, readOnly := hread }
  case h_12 => exact { hp with maxCorrectionHz := hv, readOnly := hread }

/-- The read-only parameters that the invariants name stand at their defaults. -/
theorem Params.Legal.constants {p : Params} (hp : p.Legal) :
    p.agcObjective = Params.default.agcObjective ∧ p.spreadNominal = Params.default.spreadNominal ∧
      p.spreadMin = Params.default.spreadMin ∧ p.spreadMax = Params.default.spreadMax ∧
      p.reqStepHz = Params.default.reqStepHz := by
  have h4 := hp.readOnly 4 rfl
  have h19 := hp.readOnly 19 rfl
  have h20 := hp.readOnly 20 rfl
  have h21 := hp.readOnly 21 rfl
  have h23 := hp.readOnly 23 rfl
  simp only [Params.read, Option.some.injEq, RegValue.real.injEq, RegValue.int32.injEq] at h4 h19 h20 h21 h23
  exact ⟨h4, h19, h20, h21, h23⟩

/-- The spread's bounds are in order, with the nominal spread between them. -/
theorem Params.Legal.spreadBounds {p : Params} (hp : p.Legal) :
    F64.le p.spreadMin p.spreadMin = true ∧ F64.le p.spreadMin p.spreadMax = true ∧
      F64.le p.spreadMax p.spreadMax = true ∧ F64.le p.spreadMin p.spreadNominal = true ∧
      F64.le p.spreadNominal p.spreadMax = true := by
  obtain ⟨-, hnominal, hmin, hmax, -⟩ := hp.constants
  rw [hnominal, hmin, hmax]
  decide +kernel

/-! ### Resets (R260 to R262) -/

/-- The reset AGC: a window of zeros (R62). -/
theorem agcInv_reset {p : Params} (hp : p.Legal) : AgcInv p (.reset p) := by
  obtain ⟨hn, -⟩ := legalWindow_toNat hp.agcWindow
  have hentries : ∀ x ∈ (Agc.reset p).ring.toList, x = .zero := by
    intro x hx
    simp only [Agc.reset, Vector.toList_replicate] at hx
    exact List.eq_of_mem_replicate hx
  have hplain : ∀ x ∈ (Agc.reset p).ring.toList, plain x = true := fun x hx => by rw [hentries x hx]; rfl
  obtain ⟨hmem, -⟩ := ringMax_isMaximum hplain hn
  refine ⟨hn, hplain, (hentries _ (List.mem_of_mem_take hmem)).symm, ?_⟩
  obtain ⟨m, hm⟩ := legalPositive_fin hp.agcFloor
  have hmax : F64.fmax .zero p.agcFloor = p.agcFloor := by
    rw [F64.fmax, if_neg]
    rw [hm, F64.zero, lt_plain, decide_eq_true_eq]
    exact not_lt.2 (Fin.zero_le m)
  simp only [Agc.reset, agcGain, hmax]

theorem replicate_zero_finite : finiteWindow (Vector.replicate 8 .zero) := by
  intro j
  simp [F64.isFinite, F64.zero]

/-- With legal parameters and every unit at its reset value the invariants hold. -/
theorem inv_of_unitsReset {s : State} (hp : s.params.Legal) (hdcf : s.dcf = .reset) (hiqc : s.iqc = .reset)
    (hagc : s.agc = .reset s.params) (hdgc : s.dgc = .reset s.params) (hrsm : s.rsm = .reset)
    (hsyn : s.syn = .reset s.params) : Inv s where
  params := hp
  agc := hagc ▸ agcInv_reset hp
  pending := by rw [hsyn]; exact .inl rfl
  spread := by
    obtain ⟨-, -, -, hmin, hmax⟩ := hp.spreadBounds
    rw [hsyn]
    exact .inr ⟨hmin, hmax⟩
  dcAverages := by rw [hdcf]; exact ⟨rfl, rfl⟩
  iqAverages := by rw [hiqc]; exact ⟨rfl, rfl, rfl⟩
  position := by rw [hrsm]; rfl
  windows j := by
    rw [hsyn, hrsm]
    exact ⟨replicate_zero_finite j, replicate_zero_finite j, replicate_zero_finite j⟩
  directGain := by rw [hdgc]; exact hp.dgcInit

/-- Settles O54: power-on leaves every unit reset under the default parameters, which are legal. -/
theorem resetMeetsTheInvariants : Obligations.ResetMeetsTheInvariants :=
  inv_of_unitsReset (s := .reset) Params.default_legal rfl rfl rfl rfl rfl rfl

/-! ### The clamp and the latch of `SYN.STEP` -/

/-- The clamp puts the spread between its bounds, unless it is a NaN (R200). -/
theorem synClamp_bounds {p : Params} (hp : p.Legal) (sp : F64) : synClamp p sp = .nan ∨
    (F64.le p.spreadMin (synClamp p sp) = true ∧ F64.le (synClamp p sp) p.spreadMax = true) := by
  obtain ⟨hmin, hle, hmax, -⟩ := hp.spreadBounds
  unfold synClamp
  cases hlo : F64.lt sp p.spreadMin with
  | true => exact .inr ⟨hmin, hle⟩
  | false =>
    cases hhi : F64.lt p.spreadMax sp with
    | true => exact .inr ⟨hle, hmax⟩
    | false =>
      by_cases hn : sp = .nan
      · exact .inl hn
      · exact .inr ⟨le_of_not_lt_F64 hn (ne_nan_of_le hmin).1 hlo, le_of_not_lt_F64 (ne_nan_of_le hmax).1 hn hhi⟩

/-- The latch stays, or is the step with either sign (R203). -/
theorem synLatch_cases (p : Params) (outstanding : Bool) (coarse : F64) (pending : BitVec 32) :
    synLatch p outstanding coarse pending = pending ∨ synLatch p outstanding coarse pending = p.reqStepHz ∨
      synLatch p outstanding coarse pending = -p.reqStepHz := by
  unfold synLatch
  repeat' split
  all_goals simp

/-! ### Each transition keeps the invariants -/

namespace Inv

variable {s t : State}

/-- Queues and counters do not matter. -/
theorem dout (h : Inv s) (ws : List Word64) (n : Nat) : Inv { s with dout := ws, nanCount := n } := { h with }

theorem doutReals (h : Inv s) (vs : List F64) : Inv (s.doutReals vs) := by
  obtain ⟨ws, n, e⟩ := s.doutReals_frame vs
  exact e ▸ h.dout _ n

theorem doutReal (h : Inv s) (v : F64) : Inv (s.doutReal v) := h.doutReals [v]

theorem doutReg (h : Inv s) (v : RegValue) : Inv (s.doutReg v) := by
  obtain ⟨w, n, e⟩ := s.doutReg_frame v
  exact e ▸ h.dout _ n

/-- The status does not matter. -/
theorem note (h : Inv s) (b : Bool) : Inv (s.noteNonfinite b) := { h with }

theorem raiseFault (h : Inv s) (c : FaultCode) (w : Word32) : Inv (s.raiseFault c w) := by
  unfold State.raiseFault
  split
  · exact h
  · exact { h with }

theorem retire (h : Inv s) : Inv s.retire := { h with }

theorem dropNtf (h : Inv s) : Inv s.dropNtf := { h with }

theorem consume (h : Inv s) (n : Nat) : Inv (s.consume n) := { h with }

theorem restart (h : Inv s) : Inv s.restart := inv_of_unitsReset h.params rfl rfl rfl rfl rfl rfl

theorem resetUnit (h : Inv s) (u : Nat) : Inv (s.resetUnit u) := by
  have hreset := h.restart
  unfold State.resetUnit
  split
  · exact { h with dcAverages := hreset.dcAverages }
  · exact { h with iqAverages := hreset.iqAverages }
  · exact { h with }
  · exact { h with agc := hreset.agc }
  · exact { h with directGain := hreset.directGain }
  · exact { h with
      position := hreset.position
      windows := fun j => ⟨(h.windows j).1, replicate_zero_finite j, replicate_zero_finite j⟩ }
  · exact { h with
      pending := hreset.pending, spread := hreset.spread
      windows := fun j => ⟨replicate_zero_finite j, (h.windows j).2⟩ }
  · exact h

/-- The AGC parameters of a legal write, which resets AGC where it changes one. -/
theorem agc_write {p : Params} {k : Nat} {w : Word64} (h : Inv s) (hw : s.params.write k w = some p) :
    AgcInv p (if k = 5 ∨ k = 6 then .reset p else s.agc) := by
  have hp := h.params.write hw
  split
  · exact agcInv_reset hp
  · next hk =>
    have hfloor := Params.read_write_other hw (q := 5) (by omega)
    have hwindow := Params.read_write_other hw (q := 6) (by omega)
    simp only [Params.read, Option.some.injEq, RegValue.real.injEq, RegValue.int32.injEq] at hfloor hwindow
    obtain ⟨hobjective, -⟩ := hp.constants
    obtain ⟨hobjective', -⟩ := h.params.constants
    obtain ⟨hindex, hentries, hmax, hgain⟩ := h.agc
    refine ⟨hwindow ▸ hindex, hentries, hwindow ▸ hmax, ?_⟩
    rw [hgain, agcGain, agcGain, hfloor, hobjective, hobjective']

theorem write {p : Params} {k : Nat} {w : Word64} (h : Inv s) (hw : s.params.write k w = some p) :
    Inv ({ s with params := p }.afterWrite k) := by
  have hp := h.params.write hw
  obtain ⟨-, -, hmin, hmax, hstep⟩ := hp.constants
  obtain ⟨-, -, hmin', hmax', hstep'⟩ := h.params.constants
  have hagc := h.agc_write hw
  have hpending := h.pending
  have hspread := h.spread
  rw [hstep', ← hstep] at hpending
  rw [hmin', hmax', ← hmin, ← hmax] at hspread
  unfold State.afterWrite
  split
  · next hk =>
    rw [if_pos hk] at hagc
    exact { h with params := hp, agc := hagc, pending := hpending, spread := hspread }
  · next hk =>
    rw [if_neg hk] at hagc
    exact { h with params := hp, agc := hagc, pending := hpending, spread := hspread }

theorem resample {tp : Taps} {ws : List (Vector F64 8)} (h : Inv s) (he : Machine.resample tp s ws = .next t) :
    Inv t := by
  rcases resample_cases tp s ws with ⟨-, e⟩ | ⟨out, pos, hloop, e⟩ <;> rw [e] at he <;> cases he
  have hstep : F64.le .zero s.params.rsStep = true := by
    have hlegal := h.params.rsStep
    simp only [legalRsStep, Bool.and_eq_true] at hlegal
    obtain ⟨⟨-, hlow⟩, -⟩ := hlegal
    exact le_trans_F64 (le_zero_roundUnits _ _) hlow
  have hpos := resampleLoop_position hstep h.position hloop
  have h' : Inv { s with rsm := { s.rsm with pos := pos.sub .one } } :=
    { h with position := by rw [one_eq_fin] at hpos ⊢; exact le_zero_sub hpos }
  exact h'.doutReals out

theorem rsmPush {tp : Taps} {x : F64} (h : Inv s) (he : rsmPushWith tp s x = .next t) : Inv t := by
  have hwI := shiftIn_finite (fun j => (h.windows j).2.1) (cleanSample_finite x)
  have h' : Inv { s with rsm := { s.rsm with wI := shiftIn s.rsm.wI (cleanSample x) } } :=
    { h with windows := fun j => ⟨(h.windows j).1, hwI j, (h.windows j).2.2⟩ }
  exact (h'.note _).resample he

theorem rsmPushc {tp : Taps} {x y : F64} (h : Inv s) (he : rsmPushcWith tp s x y = .next t) : Inv t := by
  have hwI := shiftIn_finite (fun j => (h.windows j).2.1) (cleanSample_finite x)
  have hwQ := shiftIn_finite (fun j => (h.windows j).2.2) (cleanSample_finite y)
  have h' : Inv { s with rsm := { s.rsm with
      wI := shiftIn s.rsm.wI (cleanSample x), wQ := shiftIn s.rsm.wQ (cleanSample y) } } :=
    { h with windows := fun j => ⟨(h.windows j).1, hwI j, hwQ j⟩ }
  exact (h'.note _).resample he

theorem dcfStep (h : Inv s) (r x : F64) :
    Inv { s with dcf := { s.dcf with avgI := (dcStep r x s.dcf.avgI).avg } } :=
  { h with dcAverages := ⟨dcStep_finite r x h.dcAverages.1, h.dcAverages.2⟩ }

theorem dcfStepc (h : Inv s) (r x y : F64) :
    Inv { s with dcf := ⟨(dcStep r x s.dcf.avgI).avg, (dcStep r y s.dcf.avgQ).avg⟩ } :=
  { h with dcAverages := ⟨dcStep_finite r x h.dcAverages.1, dcStep_finite r y h.dcAverages.2⟩ }

theorem iqcStep (h : Inv s) (r i q : F64) : Inv { s with iqc := (iqcUpdate r i q s.iqc).1 } :=
  { h with iqAverages := iqcUpdate_finite r i q h.iqAverages }

theorem agcStep (h : Inv s) (i q : F64) :
    Inv { s with agc := if agcAccepts i q then agcUpdate s.params s.agc (envelope i q) else s.agc } :=
  { h with agc := agcSample_keeps h.params h.agc i q }

/-- The tracker reset of step 2 writes nothing that the invariants name (R194). -/
theorem synTrackerReset (h : Inv s) : Inv (Machine.synTrackerReset s) := by
  unfold Machine.synTrackerReset
  split
  · exact { h with }
  · exact h

theorem synIntake (h : Inv s) (x : F64) : Inv (Machine.synIntake s x) := by
  have h' := (h.note (synReplaced s x)).synTrackerReset
  have hhist := synAdvance_finite s.params (fun j => (h'.windows j).1) (cleanSample_finite (dgcCorrect s.dgc x))
  exact { h' with windows := fun j => ⟨hhist j, (h'.windows j).2⟩ }

theorem synSymbolStep (tp : Taps) (h : Inv s) : Inv (Machine.synSymbolStep tp s) := by
  refine doutReal ?_ _
  exact { h with
    directGain := synGainStep_legalPositive h.params h.directGain _
    spread := synClamp_bounds h.params _
    pending := by
      rcases synLatch_cases s.params s.status.reqOutstanding (synCoarse s.params s.syn) s.syn.pending with e | e | e
      · exact e.symm ▸ h.pending
      · exact .inr (.inl e)
      · exact .inr (.inr e) }

theorem synStep (tp : Taps) (h : Inv s) (x : F64) : Inv (synStepWith tp s x) := by
  unfold synStepWith
  split
  · exact (h.synIntake x).synSymbolStep tp
  · exact h.synIntake x

theorem synEndbuf (h : Inv s) : Inv (Machine.synEndbuf s) := by
  unfold Machine.synEndbuf
  split
  · exact h
  · dsimp only
    split <;> exact { h with pending := .inl rfl }

theorem trackerNotified (h : Inv s) : Inv s.trackerNotified := { h with pending := .inl rfl }

/-! ### Every operation and every step -/

theorem command {i : Instr} {body : State → List Word64 → Result} (h : Inv s) (he : Machine.command i s body = .next t)
    (hb : ∀ s₁ d, Inv s₁ → body s₁ d = .next t → Inv t) : Inv t := by
  rcases command_next he with rfl | ⟨c, -, rfl⟩ | rfl | ⟨-, hrun⟩
  · exact h.retire
  · exact h.retire.raiseFault _ _
  · exact h
  · exact hb _ _ (h.consume _) hrun

theorem readOut {i : Instr} {v : Option RegValue} (h : Inv s) (he : Machine.readOut i v s = .next t) : Inv t := by
  rcases readOut_cases i v s with ⟨-, e⟩ | ⟨x, -, e⟩ <;> rw [e] at he <;> cases he
  · exact h.retire.raiseFault _ _
  · exact h.retire.doutReg x

theorem notification {body : State → Word64 → State} (h : Inv s) (he : Machine.notification s body = .next t)
    (hb : ∀ s₁ w, Inv s₁ → Inv (body s₁ w)) : Inv t := by
  rcases notification_cases s body with ⟨-, e⟩ | ⟨-, -, -, -, e⟩ | ⟨n, -, -, -, e⟩ <;> rw [e] at he <;> cases he
  · exact h
  · exact h.dropNtf
  · exact hb _ _ h.dropNtf

/-- Every operation keeps the invariants. -/
theorem exec {i : Instr} (h : Inv s) (he : Machine.exec i s = .next t) : Inv t := by
  cases i <;> unfold Machine.exec at he
  case nop => cases he; exact h.retire
  case rstall => cases he; exact h.retire.restart
  case rstu u => exact h.command he fun s₁ d h₁ hb => by cases hb; exact h₁.resetUnit _
  case wrp k =>
    refine h.command he fun s₁ d h₁ hb => ?_
    split at hb <;> cases hb
    · exact h₁.raiseFault _ _
    · next hw => exact h₁.write hw
  case rdp => exact h.readOut he
  case rds => exact h.readOut he
  case pcmLd | amdStep | dgcCorrect | intFir => exact h.command he fun s₁ d h₁ hb => by cases hb; exact h₁.doutReal _
  case pcmLdc | intFirc => exact h.command he fun s₁ d h₁ hb => by cases hb; exact h₁.doutReals _
  case pcmSt => exact h.command he fun s₁ d h₁ hb => by cases hb; exact h₁.doutReg (.word _)
  case dcfStep => exact h.command he fun s₁ d h₁ hb => by cases hb; exact ((h₁.dcfStep ..).note _).doutReal _
  case dcfStepc => exact h.command he fun s₁ d h₁ hb => by cases hb; exact ((h₁.dcfStepc ..).note _).doutReals _
  case dcfBlock | dcfBlockc => exact h.command he fun s₁ d h₁ hb => by cases hb; exact (h₁.note _).doutReals _
  case iqcStep => exact h.command he fun s₁ d h₁ hb => by cases hb; exact ((h₁.iqcStep ..).note _).doutReals _
  case fmdStep =>
    refine h.command he fun s₁ d h₁ hb => ?_
    cases hb
    refine doutReal ?_ _
    exact { h₁ with }
  case agcStep => exact h.command he fun s₁ d h₁ hb => by cases hb; exact ((h₁.agcStep ..).note _).doutReals _
  case dgcInc =>
    exact h.command he fun s₁ d h₁ hb => by
      cases hb; exact { h₁ with directGain := dgcIncrease_legalPositive h₁.params h₁.directGain }
  case dgcDec =>
    exact h.command he fun s₁ d h₁ hb => by
      cases hb; exact { h₁ with directGain := dgcDecrease_legalPositive h₁.params h₁.directGain }
  case intFirmu =>
    refine h.command he fun s₁ d h₁ hb => ?_
    dsimp only at hb
    split at hb <;> cases hb
    · exact h₁.doutReal _
    · exact h₁.raiseFault _ _
  case intFirmuc =>
    refine h.command he fun s₁ d h₁ hb => ?_
    dsimp only at hb
    split at hb <;> cases hb
    · exact h₁.doutReals _
    · exact h₁.raiseFault _ _
  case rsmPush => exact h.command he fun s₁ d h₁ hb => h₁.rsmPush hb
  case rsmPushc => exact h.command he fun s₁ d h₁ hb => h₁.rsmPushc hb
  case synStep => exact h.command he fun s₁ d h₁ hb => by cases hb; exact h₁.synStep taps _
  case synEndbuf => exact h.command he fun s₁ d h₁ hb => by cases hb; exact h₁.synEndbuf
  case synAck =>
    refine h.notification he fun s₁ w h₁ => ?_
    have h' : Inv { s₁ with syn := { s₁.syn with acked := w.extractLsb' 0 32 } } := { h₁ with }
    exact h'.trackerNotified
  case synRate => exact h.notification he fun s₁ _ h₁ => h₁.trackerNotified

theorem stepCommand (h : Inv s) (he : Machine.stepCommand s = .next t) : Inv t := by
  unfold Machine.stepCommand at he
  split at he
  · cases he; exact h
  · split at he
    · exact h.exec he
    · cases he; exact h.retire.raiseFault _ _

theorem stepNotification (h : Inv s) (he : Machine.stepNotification s = .next t) : Inv t := by
  unfold Machine.stepNotification at he
  split at he
  · cases he; exact h
  · split at he
    · exact h.exec he
    · cases he; exact h.dropNtf.raiseFault _ _

end Inv

/-- Settles O55: a step is the turn of one agent, which runs an operation or records an illegal word. -/
theorem stepKeepsTheInvariants : Obligations.StepKeepsTheInvariants := by
  intro s t h he
  rcases step_cases s with e | e | ⟨-, -, e⟩ <;> rw [e] at he
  · exact h.stepCommand he
  · exact h.stepNotification he
  · have h' : Inv { s with boundary := s.boundary + 1 } := { h with }
    generalize Config.arbiter s.boundary = a at he
    cases a with
    | command => exact h'.stepCommand he
    | notification => exact h'.stepNotification he

end Sys2Proof.Machine
end

section
/-! The internal memories and the wire (spec/20_memory.md R61, R64): row indices are saturated conversions, and a PCM
sample is the two low bytes of its DIN word. -/

namespace Sys2Proof.Machine

open Sys2Proof

/-! ### Row indices (R61) -/

/-- A conversion with lower bound 0 gives a natural number within its upper bound. -/
theorem toNat_toIndex_le (a : F64) {n : Nat} (hn : n < 2 ^ 53) : (F64.toIndex a 0 n).toNat ≤ n := by
  obtain ⟨-, -, -, hsaturates⟩ := toIndexSaturates
  have hhi : |(n : Int)| < 2 ^ 53 := by
    rw [Nat.abs_cast]
    exact_mod_cast hn
  obtain ⟨-, hle, -⟩ := hsaturates a 0 n n.cast_nonneg (by decide) hhi
  exact Int.toNat_le.2 hle

/-- Settles O42: both indices are conversions that saturate inside the table. -/
theorem rowIndicesStayInTable : Obligations.RowIndicesStayInTable :=
  ⟨fun _ => toNat_toIndex_le _ (n := 128) (by decide), fun _ _ => toNat_toIndex_le _ (n := 127) (by decide)⟩

/-! ### Bytes of a PCM sample (R64) -/

theorem pcmWord_first (upper : BitVec 48) (a b : BitVec 8) : (pcmWord upper a b).extractLsb' 0 8 = a :=
  BitVec.extractLsb'_append_eq_right

theorem pcmWord_second (upper : BitVec 48) (a b : BitVec 8) : (pcmWord upper a b).extractLsb' 8 8 = b := by
  rw [pcmWord, BitVec.extractLsb'_append_eq_of_le (le_refl 8)]
  exact BitVec.extractLsb'_append_eq_right

theorem pcmWord_upper (upper : BitVec 48) (a b : BitVec 8) : (pcmWord upper a b).extractLsb' 16 48 = upper := by
  rw [pcmWord, BitVec.extractLsb'_append_eq_of_le (by decide)]
  exact BitVec.extractLsb'_append_eq_left

/-- The low half of a word is its two low bytes. -/
theorem pcmWord_sample (upper : BitVec 48) (a b : BitVec 8) : (pcmWord upper a b).extractLsb' 0 16 = b ++ a := by
  rw [pcmWord, BitVec.append_assoc, BitVec.cast_eq]
  exact BitVec.extractLsb'_append_eq_right

/-- Settles O25: the bytes and the upper bits are slices of the word, and the sample is read from the low slice. -/
theorem pcmWireBytesLittleEndian : Obligations.PcmWireBytesLittleEndian := fun upper a b =>
  ⟨pcmWord_first upper a b, pcmWord_second upper a b, pcmWord_upper upper a b,
    congrArg BitVec.toInt (pcmWord_sample upper a b)⟩

end Sys2Proof.Machine
end

section
/-! The decoder against the encoder (spec/30_encoding.md R81 to R85, R88): the operation map has one row for each `UNIT` and
`OP` of an operation, and the words the decoder accepts are the ones composed of an operation's fields. -/

namespace Sys2Proof

/-! ### The operation map (R84) -/

/-- Formats Z and N have no immediate (R82). -/
theorem Instr.arg_of_format_ne {i : Instr} (h : i.format ≠ .a) : i.arg = 0 := by
  cases i
  case rstu | wrp | rdp | rds | dcfBlock | dcfBlockc | intFir | intFirc => exact absurd rfl h
  all_goals rfl

/-- There are eleven units (R83). -/
theorem Instr.unit_lt (i : Instr) : i.unit.toNat < 11 := by
  cases i <;> simp [Instr.unit]

theorem operation_arg (i : Instr) : operation i.unit i.op i.arg = some i := by
  cases i <;> rfl

/-- In formats Z and N the operation does not depend on the bits of `ARG`. -/
theorem operation_of_format_ne {i : Instr} (h : i.format ≠ .a) (a : Arg) : operation i.unit i.op a = some i := by
  cases i
  case rstu | wrp | rdp | rds | dcfBlock | dcfBlockc | intFir | intFirc => exact absurd rfl h
  all_goals rfl

/-- The row of an operation has its format whatever the bits of `ARG` are. -/
theorem operation_row (i : Instr) (a : Arg) : ∃ j, operation i.unit i.op a = some j ∧ j.format = i.format := by
  cases i <;> exact ⟨_, rfl, rfl⟩

/-- The map answers an operation exactly where it has that `UNIT` and `OP` and, in format A, carries that `ARG`. -/
theorem operation_eq_some_iff {u o : BitVec 4} {a : Arg} {i : Instr} : operation u o a = some i ↔
    i.unit = u ∧ i.op = o ∧ i.arg = if i.format = .a then a else 0 := by
  constructor
  · intro h
    unfold operation at h
    split at h
    all_goals cases h
    all_goals
      next hu ho => exact ⟨BitVec.eq_of_toNat_eq hu.symm, BitVec.eq_of_toNat_eq ho.symm, rfl⟩
  · rintro ⟨rfl, rfl, ha⟩
    by_cases hf : i.format = .a
    · rw [if_pos hf] at ha
      rw [← ha]
      exact operation_arg i
    · exact operation_of_format_ne hf a

theorem operation_eq_none {u o : BitVec 4} (h : ∀ i : Instr, ¬(i.unit = u ∧ i.op = o)) (a : Arg) :
    operation u o a = none := by
  refine Option.eq_none_iff_forall_ne_some.2 fun i hi => ?_
  obtain ⟨hu, ho, -⟩ := operation_eq_some_iff.1 hi
  exact h i ⟨hu, ho⟩

/-! ### Decoder and encoder (R85) -/

theorem decode_of_rsvField_ne {w : Word32} (h : rsvField w ≠ 0) (p : Port) : decode p w = .error .reservedBits := by
  rw [decode, if_pos h]

/-- Past the test of `RSV`, a word of no row is illegal. -/
theorem decode_of_operation_none {w : Word32} (hr : rsvField w = 0)
    (ho : operation (unitField w) (opField w) (argField w) = none) (p : Port) :
    decode p w = .error .noSuchOperation := by
  simp [decode, hr, ho]

/-- Past the test of `RSV`, a word of a row is judged by its port, then by its `ARG`. -/
theorem decode_of_operation_some {w : Word32} {j : Instr} (hr : rsvField w = 0)
    (ho : operation (unitField w) (opField w) (argField w) = some j) (p : Port) :
    decode p w = if j.port ≠ p then .error .wrongPort
      else if j.format ≠ .a ∧ argField w ≠ 0 then .error .nonzeroArgument else .ok j := by
  simp [decode, hr, ho]

/-- What an accepted word has passed: the four tests of R85. -/
theorem decode_eq_ok_iff {p : Port} {w : Word32} {i : Instr} : decode p w = .ok i ↔
    rsvField w = 0 ∧ operation (unitField w) (opField w) (argField w) = some i ∧ i.port = p ∧
      (i.format ≠ .a → argField w = 0) := by
  constructor
  · intro h
    by_cases hr : rsvField w = 0
    · cases ho : operation (unitField w) (opField w) (argField w) with
      | none => rw [decode_of_operation_none hr ho] at h; cases h
      | some j =>
        rw [decode_of_operation_some hr ho] at h
        split_ifs at h with hp ha
        cases h
        exact ⟨hr, rfl, not_not.1 hp, fun hf => not_not.1 fun h0 => ha ⟨hf, h0⟩⟩
    · rw [decode_of_rsvField_ne hr] at h; cases h
  · rintro ⟨hr, ho, hp, ha⟩
    rw [decode_of_operation_some hr ho, if_neg (not_not.2 hp), if_neg fun h => h.2 (ha h.1)]

/-- A word is an operation's own where its fields are the operation's (R81). -/
theorem encode_eq_iff {i : Instr} {w : Word32} : encode i = w ↔
    rsvField w = 0 ∧ i.unit = unitField w ∧ i.op = opField w ∧ i.arg = argField w := by
  constructor
  · rintro rfl
    simp [encode]
  · rintro ⟨hr, hu, ho, ha⟩
    rw [encode, hu, ho, ha, wordOf_fields w hr]

/-- An operation's `ARG` is a word's where the map gives it that `ARG` and the test of R85 (3) passes. -/
theorem arg_eq_iff {i : Instr} {a : Arg} :
    i.arg = a ↔ (i.arg = if i.format = .a then a else 0) ∧ (i.format ≠ .a → a = 0) := by
  by_cases hf : i.format = .a
  · simp [hf]
  · simp only [hf, Instr.arg_of_format_ne hf, if_false, ne_eq, not_false_eq_true, true_and, forall_const]
    exact eq_comm

/-- Settles O1: the four tests of R85 together say that the word's fields are the operation's own. -/
theorem decodeAcceptsExactlyTheEncodings : Obligations.DecodeAcceptsExactlyTheEncodings := by
  intro p w i
  rw [decode_eq_ok_iff, operation_eq_some_iff, encode_eq_iff, arg_eq_iff (a := argField w)]
  tauto

/-- Settles O2: each word of the table is the encoding of its row's operation. -/
theorem tabledWordsDecode : Obligations.TabledWordsDecode := by
  have row {p : Port} {w : Word32} {i : Instr} (hp : i.port = p) (hw : encode i = w) : decode p w = .ok i :=
    (decodeAcceptsExactlyTheEncodings p w i).2 ⟨hp, hw⟩
  unfold Obligations.TabledWordsDecode
  and_intros
  all_goals exact row rfl (by decide)

/-- Settles O3: each class fails its own test, and passes the tests before it. -/
theorem illegalWordClassesRefused : Obligations.IllegalWordClassesRefused := by
  intro p w
  have noRow (hr : rsvField w = 0) (h : ∀ i : Instr, ¬(i.unit = unitField w ∧ i.op = opField w)) :
      decode p w = .error .noSuchOperation := decode_of_operation_none hr (operation_eq_none h _) p
  have row {i : Instr} (hu : i.unit = unitField w) (ho : i.op = opField w) :
      ∃ j, operation (unitField w) (opField w) (argField w) = some j ∧ j.format = i.format :=
    hu ▸ ho ▸ operation_row i _
  refine ⟨fun hr => decode_of_rsvField_ne hr p, fun hr hu => noRow hr fun i ⟨hi, _⟩ => ?unit, noRow, ?port, ?argument⟩
  case unit =>
    have := i.unit_lt
    rw [hi] at this
    omega
  case port =>
    intro i hr hu ho hp
    obtain ⟨j, hj, hf⟩ := row hu ho
    have hjp : j.port = i.port := by simp only [Instr.port, hf]
    rw [decode_of_operation_some hr hj, if_pos (hjp ▸ hp)]
  case argument =>
    intro i hr hu ho hp hf ha
    rw [← hp]
    have hj := operation_of_format_ne hf (argField w)
    rw [hu, ho] at hj
    rw [decode_of_operation_some hr hj, if_neg (not_not.2 rfl), if_pos ⟨hf, ha⟩]

end Sys2Proof
end

section
/-! What becomes of a word that does not run: it waits for its operands (spec/30_encoding.md R87;
spec/70_reset_and_hazards.md R276), or it is illegal and faults (spec/60_exceptions.md R231, R233). -/

namespace Sys2Proof.Machine

open Sys2Proof

/-! ### Waiting for operands (R276) -/

theorem State.holds_iff {s : State} {i : Instr} :
    s.holds i = true ↔ s.status.fault = false ∧ argFault i = none ∧ s.din.length < dinWords i := by
  simp [State.holds, and_assoc]

/-- An operation that takes no word of DIN never holds. -/
theorem dinWords_ne_zero_of_holds {s : State} {i : Instr} (h : s.holds i = true) : dinWords i ≠ 0 := by
  obtain ⟨-, -, hshort⟩ := State.holds_iff.1 h
  omega

/-- Every operation that holds changes nothing: those outside the common order of checks take no operand. -/
theorem exec_holds {i : Instr} {s : State} (h : s.holds i = true) : exec i s = .next s := by
  cases i <;> unfold exec
  case nop | rstall | rdp | rds | synAck | synRate => exact absurd rfl (dinWords_ne_zero_of_holds h)
  all_goals exact command_holds h _

/-- Settles O9: an operation whose operands are missing holds. -/
theorem holdsUntilOperandsArrive : Obligations.HoldsUntilOperandsArrive :=
  fun _ _ hf ha hd => exec_holds (State.holds_iff.2 ⟨hf, ha, hd⟩)

/-! ### Illegal words (R85) -/

/-- An illegal word never holds. -/
theorem commandReady_of_illegal {s : State} {w : Word32} {ws : List Word32} {e : DecodeError} (hc : s.cmd = w :: ws)
    (hd : decode .cmd w = .error e) : s.commandReady = true := by
  simp [State.commandReady, hc, hd]

theorem stepCommand_of_illegal {s : State} {w : Word32} {ws : List Word32} {e : DecodeError}
    (hf : s.status.fault = false) (hc : s.cmd = w :: ws) (hd : decode .cmd w = .error e) :
    stepCommand s = .next { s with
      cmd := ws, status := { s.status with fault := true }, faultCode := .illegalOp, faultCmd := w } := by
  have hrun : stepCommand s = .next (s.retire.raiseFault .illegalOp w) := by simp [stepCommand, hc, hd]
  rw [hrun, State.raiseFault_of_clear (s := s.retire) hf, State.retire, hc, List.tail_cons]

theorem stepNotification_of_illegal {s : State} {n : NtfEntry} {ns : List NtfEntry} {e : DecodeError}
    (hf : s.status.fault = false) (hn : s.ntf = n :: ns) (hd : decode .ntf n.word = .error e) :
    stepNotification s = .next { s with
      ntf := ns, status := { s.status with fault := true }, faultCode := .illegalOp, faultCmd := n.word } := by
  have hrun : stepNotification s = .next (s.dropNtf.raiseFault .illegalOp n.word) := by
    simp [stepNotification, hn, hd]
  rw [hrun, State.raiseFault_of_clear (s := s.dropNtf) hf, State.dropNtf, hn, List.tail_cons]

/-- Settles O5: the agent whose turn it is takes the illegal word at the head of its port and records it. -/
theorem illegalWordFaults : Obligations.IllegalWordFaults := by
  unfold Obligations.IllegalWordFaults
  intro onCmd onNtf
  refine ⟨?command, ?notification, ?contested⟩
  case command =>
    intro s w rest e hf hc hn hd
    rw [step_of_ntf_empty hn, stepCommand_of_illegal hf hc hd]
  case notification =>
    intro s n rest e hf hn hd hidle
    have hready : s.commandReady = false := by
      rcases hidle with hc | ⟨w, ws, i, hc, hdc, hh⟩
      · exact commandReady_of_empty hc
      · rw [commandReady_of_decode hc hdc, hh]; rfl
    rw [step_of_not_commandReady (by simp [hn]) hready, stepNotification_of_illegal hf hn hd]
  case contested =>
    intro s w ws n ns hf hc hn b
    have turn (hready : s.commandReady = true) : step s = stepCommand b ∨ step s = stepNotification b :=
      step_of_contested (by simp [hn]) hready
    have onCmd_of {e} (hd : decode .cmd w = .error e) : stepCommand b = .next (onCmd b w ws) :=
      stepCommand_of_illegal (s := b) hf hc hd
    have onNtf_of {e} (hd : decode .ntf n.word = .error e) : stepNotification b = .next (onNtf b n.word ns) :=
      stepNotification_of_illegal (s := b) hf hn hd
    refine ⟨fun e e' hd hd' => ?_, fun e j hd hd' => ?_, fun i e' hd hh hd' => ?_⟩
    · exact onCmd_of hd ▸ onNtf_of hd' ▸ turn (commandReady_of_illegal hc hd)
    · have hrun : stepNotification b = exec j b := stepNotification_of_decode (s := b) hn hd'
      exact onCmd_of hd ▸ hrun ▸ turn (commandReady_of_illegal hc hd)
    · have hrun : stepCommand b = exec i b := stepCommand_of_decode (s := b) hc hd
      exact hrun ▸ onNtf_of hd' ▸ turn (by rw [commandReady_of_decode hc hd, hh]; rfl)

end Sys2Proof.Machine
end

section
/-! The events of the block (spec/30_encoding.md R93; spec/45_sync.md R194, R205): only `SYN.STEP` and `SYN.ENDBUF` put
words on EVT. -/

namespace Sys2Proof.Machine

open Sys2Proof

/-! ### EVT through the shared operations -/

@[simp] theorem State.doutReg_evt (s : State) (v : RegValue) : (s.doutReg v).evt = s.evt := by
  obtain ⟨w, n, h⟩ := s.doutReg_frame v
  rw [h]

@[simp] theorem State.resetUnit_evt (s : State) (u : Nat) : (s.resetUnit u).evt = s.evt := by
  unfold State.resetUnit
  split <;> rfl

/-- A command whose transition keeps EVT keeps it. -/
theorem command_evt {i : Instr} {s t : State} {body : State → List Word64 → Result} (h : command i s body = .next t)
    (hb : ∀ s₁ d, body s₁ d = .next t → t.evt = s₁.evt) : t.evt = s.evt := by
  rcases command_next h with rfl | ⟨c, -, rfl⟩ | rfl | ⟨-, hrun⟩
  · rfl
  · simp
  · rfl
  · exact (hb _ _ hrun).trans (State.consume_evt ..)

theorem readOut_evt {i : Instr} {v : Option RegValue} {s t : State} (h : readOut i v s = .next t) : t.evt = s.evt := by
  rcases readOut_cases i v s with ⟨-, e⟩ | ⟨x, -, e⟩ <;> rw [e] at h <;> cases h <;> simp

/-- A notification whose transition keeps EVT keeps it. -/
theorem notification_evt {s t : State} {body : State → Word64 → State} (h : notification s body = .next t)
    (hb : ∀ s₁ w, (body s₁ w).evt = s₁.evt) : t.evt = s.evt := by
  rcases notification_cases s body with ⟨-, e⟩ | ⟨-, -, -, -, e⟩ | ⟨n, -, -, -, e⟩ <;> rw [e] at h <;> cases h
  · rfl
  · rfl
  · exact hb _ _

theorem resample_evt {tp : Taps} {s t : State} {ws : List (Vector F64 8)} (h : resample tp s ws = .next t) :
    t.evt = s.evt := by
  rcases resample_cases tp s ws with ⟨-, e⟩ | ⟨out, pos, -, e⟩ <;> rw [e] at h <;> cases h
  simp

/-- `SYN.STEP` and `SYN.ENDBUF` apart, no operation emits. -/
theorem exec_evt {i : Instr} {s t : State} (h : exec i s = .next t) (hstep : i ≠ .synStep) (hend : i ≠ .synEndbuf) :
    t.evt = s.evt := by
  cases i <;> unfold exec at h
  case synStep => exact absurd rfl hstep
  case synEndbuf => exact absurd rfl hend
  case nop | rstall => cases h; rfl
  case rdp | rds => exact readOut_evt h
  case synAck | synRate => exact notification_evt h fun s₁ w => by simp
  case rsmPush | rsmPushc => exact command_evt h fun s₁ d hb => (resample_evt hb).trans (by simp)
  case wrp =>
    refine command_evt h fun s₁ d hb => ?_
    split at hb <;> cases hb <;> simp
  case intFirmu | intFirmuc =>
    refine command_evt h fun s₁ d hb => ?_
    dsimp only at hb
    split at hb <;> cases hb <;> simp
  all_goals exact command_evt h fun s₁ d hb => by cases hb; simp

/-! ### The events of the synchronizer -/

/-- Steps 1 to 3 of `SYN.STEP` answer a pending tracker reset with one `ZERO_CORRECTION` (R194). -/
theorem synIntake_evt (s : State) (x : F64) :
    (synIntake s x).evt = if s.status.resetPending = true then s.evt ++ [0] else s.evt := by
  cases hr : s.status.resetPending <;> simp [synIntake, synTrackerReset, hr, evtZeroCorrection]

/-- No tracker reset is pending after steps 1 to 3 of `SYN.STEP`. -/
theorem synIntake_resetPending (s : State) (x : F64) : (synIntake s x).status.resetPending = false := by
  cases hr : s.status.resetPending <;> simp [synIntake, synTrackerReset, hr]

/-- Steps 4 to 11 of `SYN.STEP` emit nothing and leave the flags. -/
theorem synSymbolStep_evt_status (tp : Taps) (s : State) :
    (synSymbolStep tp s).evt = s.evt ∧ (synSymbolStep tp s).status = s.status := by
  simp [synSymbolStep]

theorem synStepWith_evt_status (tp : Taps) (s : State) (x : F64) :
    (synStepWith tp s x).evt = (synIntake s x).evt ∧ (synStepWith tp s x).status = (synIntake s x).status := by
  unfold synStepWith
  split
  · exact synSymbolStep_evt_status tp _
  · exact ⟨rfl, rfl⟩

/-- `SYN.ENDBUF` emits at most one `CORRECTION_REQUEST` (R205). -/
theorem synEndbuf_evt (s : State) :
    (synEndbuf s).evt = s.evt ∨ ∃ d : BitVec 32, (synEndbuf s).evt = s.evt ++ [(1#32 ++ d : Word64)] := by
  unfold synEndbuf
  split
  · exact .inl rfl
  · dsimp only
    split
    · exact .inr ⟨_, rfl⟩
    · exact .inl rfl

theorem exec_synStep {s : State} (hf : s.status.fault = false) (hd : s.din ≠ []) :
    exec .synStep s = .next (synStepWith taps (s.consume 1) (dinReal (s.din.take 1) 0)) :=
  have hready : s.Ready .synStep := ⟨hf, rfl, List.length_pos_iff.2 hd⟩
  show execSynStep s = _ from command_ready hready _

theorem exec_synEndbuf {s : State} (hf : s.status.fault = false) :
    exec .synEndbuf s = .next (synEndbuf (s.consume 0)) :=
  have hready : s.Ready .synEndbuf := ⟨hf, rfl, Nat.zero_le _⟩
  show execSynEndbuf s = _ from command_ready hready _

/-- Settles O50: the tracker reset and the request are the only transitions that emit. -/
theorem eventsOnlyFromTheSynchronizer : Obligations.EventsOnlyFromTheSynchronizer := by
  intro i s t hf h
  refine ⟨?step, ?endbuf, exec_evt h⟩
  case step =>
    rintro rfl hd
    rw [exec_synStep hf hd] at h
    cases h
    obtain ⟨hevt, hstatus⟩ := synStepWith_evt_status taps (s.consume 1) (dinReal (s.din.take 1) 0)
    rw [hevt, hstatus]
    exact ⟨synIntake_resetPending _ _, synIntake_evt _ _⟩
  case endbuf =>
    rintro rfl
    rw [exec_synEndbuf hf] at h
    cases h
    exact synEndbuf_evt (s.consume 0)

end Sys2Proof.Machine
end

section
/-! The order of checks and the fault mechanism, outcome by outcome (spec/40_sys_pcm.md R99; spec/60_exceptions.md R231 to
R235): a command whose operands stand on DIN runs, a bad `ARG` faults, and while a fault is recorded all but four
operations are discarded. -/

namespace Sys2Proof.Machine

open Sys2Proof

/-! ### The common order of checks (R99) -/

/-- A command whose operand words stand first on DIN takes exactly these and makes its transition. -/
theorem command_runs (i : Instr) {s : State} {ws rest : List Word64} (hf : s.status.fault = false)
    (ha : argFault i = none) (hd : s.din = ws ++ rest) (hn : ws.length = dinWords i)
    (body : State → List Word64 → Result) :
    command i s body = body { s with cmd := s.cmd.tail, din := rest } ws := by
  have hready : s.Ready i := ⟨hf, ha, by rw [hd, List.length_append]; omega⟩
  rw [command_ready hready, State.consume, State.retire, hd, ← hn, List.drop_left, List.take_left]

/-- A bad `ARG` faults before any operand is consumed (R99 (3)). -/
theorem command_badArg (i : Instr) {s : State} {c : FaultCode} (hf : s.status.fault = false)
    (ha : argFault i = some c) (body : State → List Word64 → Result) :
    command i s body = .next { s with
      cmd := s.cmd.tail, status := { s.status with fault := true }, faultCode := c, faultCmd := encode i } := by
  simp [command, hf, ha, State.raiseFault, State.retire]

/-! ### While a fault is recorded (R234) -/

/-- The first fault is the one recorded (R233). -/
theorem State.raiseFault_of_faulted {s : State} (hf : s.status.fault = true) (c : FaultCode) (w : Word32) :
    s.raiseFault c w = s := by
  rw [State.raiseFault, if_pos hf]

theorem State.holds_of_faulted {s : State} (hf : s.status.fault = true) (i : Instr) : s.holds i = false := by
  simp [State.holds, hf]

/-- Every command outside the four that also execute while a fault is recorded goes through the common order of checks. -/
theorem exec_command_faulted {i : Instr} {s : State} (hf : s.status.fault = true) (hp : i.port = .cmd)
    (hnop : i ≠ .nop) (hrstall : i ≠ .rstall) (hrdp : ∀ p, i ≠ .rdp p) (hrds : ∀ r, i ≠ .rds r) :
    exec i s = .next { s with cmd := s.cmd.tail } := by
  cases i <;> unfold exec
  case nop => exact absurd rfl hnop
  case rstall => exact absurd rfl hrstall
  case rdp p => exact absurd rfl (hrdp p)
  case rds r => exact absurd rfl (hrds r)
  case synAck | synRate => nomatch hp
  all_goals exact command_faulted hf _

/-- A notification met while a fault is recorded only leaves NTF. -/
theorem notification_faulted {s : State} (hf : s.status.fault = true) (body : State → Word64 → State) :
    notification s body = .next { s with ntf := s.ntf.tail } := by
  rcases notification_cases s body with ⟨hn, e⟩ | ⟨-, -, -, -, e⟩ | ⟨-, -, -, hclear, -⟩
  · rw [e, hn, List.tail_nil, ← hn]
  · exact e
  · simp [hf] at hclear

theorem exec_notification_faulted {i : Instr} {s : State} (hf : s.status.fault = true) (hp : i.port = .ntf) :
    exec i s = .next { s with ntf := s.ntf.tail } := by
  cases i <;> unfold exec
  case synAck | synRate => exact notification_faulted hf _
  all_goals nomatch hp

/-- The turn of the command agent at an illegal word: the word is taken. -/
theorem stepCommand_of_illegal_faulted {s : State} {w : Word32} {ws : List Word32} {e : DecodeError}
    (hf : s.status.fault = true) (hc : s.cmd = w :: ws) (hd : decode .cmd w = .error e) :
    stepCommand s = .next { s with cmd := ws } := by
  have hrun : stepCommand s = .next (s.retire.raiseFault .illegalOp w) := by simp [stepCommand, hc, hd]
  rw [hrun, State.raiseFault_of_faulted (s := s.retire) hf, State.retire, hc, List.tail_cons]

/-- The turn of the notification agent, whatever the word: the entry is removed. -/
theorem stepNotification_faulted {s : State} {n : NtfEntry} {ns : List NtfEntry} (hf : s.status.fault = true)
    (hn : s.ntf = n :: ns) : stepNotification s = .next { s with ntf := ns } := by
  cases hd : decode .ntf n.word with
  | ok j =>
    obtain ⟨-, -, hport, -⟩ := decode_eq_ok_iff.1 hd
    rw [stepNotification_of_decode hn hd, exec_notification_faulted hf hport, hn, List.tail_cons]
  | error e =>
    have hrun : stepNotification s = .next (s.dropNtf.raiseFault .illegalOp n.word) := by
      simp [stepNotification, hn, hd]
    rw [hrun, State.raiseFault_of_faulted (s := s.dropNtf) hf, State.dropNtf, hn, List.tail_cons]

/-- Settles O7: neither agent's turn does more than take its word, and no command holds, so at a contested boundary it is
one turn or the other. -/
theorem discardedWhileFaulted : Obligations.DiscardedWhileFaulted := by
  refine ⟨fun i s => exec_command_faulted, fun i s => exec_notification_faulted, ?command, ?notification, ?contested⟩
  case command =>
    intro s w rest e hf hn hc hd
    rw [step_of_ntf_empty hn, stepCommand_of_illegal_faulted hf hc hd]
  case notification =>
    intro s n rest e hf hc hn hd
    rw [step_of_not_commandReady (by simp [hn]) (commandReady_of_empty hc), stepNotification_faulted hf hn]
  case contested =>
    intro s w ws n ns hf hc hn b
    have turn (hready : s.commandReady = true) : step s = stepCommand b ∨ step s = .next { b with ntf := ns } := by
      have hntf : stepNotification b = .next { b with ntf := ns } := stepNotification_faulted (s := b) hf hn
      exact hntf ▸ step_of_contested (by simp [hn]) hready
    refine ⟨fun e hd => ?_, fun i e hd _ => ?_⟩
    · have hcmd : stepCommand b = .next { b with cmd := ws } := stepCommand_of_illegal_faulted (s := b) hf hc hd
      exact hcmd ▸ turn (commandReady_of_illegal hc hd)
    · have hcmd : stepCommand b = exec i b := stepCommand_of_decode (s := b) hc hd
      exact hcmd ▸ turn (by rw [commandReady_of_decode hc hd, State.holds_of_faulted hf]; rfl)

/-! ### Faults on `ARG` (R231, R232) -/

/-- A read of an unmapped index faults (R105, R106). -/
theorem readOut_unmapped {i : Instr} {s : State} (hf : s.status.fault = false) : readOut i none s = .next { s with
    cmd := s.cmd.tail, status := { s.status with fault := true }, faultCode := .badOperand, faultCmd := encode i } :=
  congrArg _ (State.raiseFault_of_clear (s := s.retire) hf _ _)

/-- A read of an unmapped index while a fault is recorded is discarded (R233). -/
theorem readOut_unmapped_faulted {i : Instr} {s : State} (hf : s.status.fault = true) :
    readOut i none s = .next { s with cmd := s.cmd.tail } :=
  congrArg _ (State.raiseFault_of_faulted (s := s.retire) hf _ _)

theorem Params.read_unmapped (p : Params) {k : Nat} (hk : 25 < k) : p.read k = none := by
  rw [read_eq, List.getElem?_eq_none (show p.values.length ≤ k from hk)]

theorem State.readState_unmapped (s : State) {k : Nat} (hk : (22 < k ∧ k < 32) ∨ (55 < k ∧ k < 256) ∨ 511 < k) :
    s.readState k = none := by
  rw [readState_above s (by omega), if_neg (by omega), if_neg (by omega), if_neg (by omega), if_neg (by omega)]

/-- Settles O8: each range of `ARG` fails the check that its operation makes first. -/
theorem badArgumentFaultsBeforeOperands : Obligations.BadArgumentFaultsBeforeOperands := by
  intro s a hf trap
  refine ⟨?rstu, ?unmapped, ?readOnly, ?rdp, ?rds, ?fir, ?firc⟩
  case rstu => exact fun h => show execRstu a s = _ from command_badArg (.rstu a) hf (if_pos (by simpa using h)) _
  case unmapped => exact fun h => show execWrp a s = _ from command_badArg (.wrp a) hf (if_pos h) _
  case readOnly =>
    refine fun h => show execWrp a s = _ from command_badArg (.wrp a) hf ?_ _
    have hro : paramReadOnly a.toNat = true := by simp [paramReadOnly]; omega
    rw [argFault, if_neg (by omega), if_pos hro]
  case rdp =>
    intro h
    exact (congrArg (readOut _ · s) (s.params.read_unmapped h)).trans (readOut_unmapped hf)
  case rds =>
    intro h
    exact (congrArg (readOut _ · s) (s.readState_unmapped h)).trans (readOut_unmapped hf)
  case fir => exact fun h => show execIntFir a s = _ from command_badArg (.intFir a) hf (if_pos h) _
  case firc => exact fun h => show execIntFirc a s = _ from command_badArg (.intFirc a) hf (if_pos h) _

/-! ### Faults on an operand (R175, R176) -/

/-- A transition that asks for `mu` in range faults where it is not. -/
theorem faults_of_mu_outside {s : State} (hf : s.status.fault = false) {mu : F64}
    (hmu : ¬(F64.le .zero mu = true ∧ F64.lt mu .one = true)) (r : Result) (w : Word32) :
    (if muInRange mu then r else .next (s.raiseFault .badOperand w)) = .next { s with
      status := { s.status with fault := true }, faultCode := .badOperand, faultCmd := w } := by
  rw [if_neg (by rwa [muInRange, Bool.and_eq_true]), State.raiseFault_of_clear hf]

/-- Settles O11: the operands are taken by the common order of checks, and the transition then tests `mu`, the last. -/
theorem muOutOfRangeFaults : Obligations.MuOutOfRangeFaults := by
  refine ⟨fun s ws rest hf hd hn hmu => ?real, fun s ws rest hf hd hn hmu => ?complex⟩
  case real =>
    exact (show execIntFirmu s = _ from command_runs .intFirmu hf rfl hd hn _).trans
      (faults_of_mu_outside (s := { s with cmd := s.cmd.tail, din := rest }) hf hmu _ _)
  case complex =>
    exact (show execIntFirmuc s = _ from command_runs .intFirmuc hf rfl hd hn _).trans
      (faults_of_mu_outside (s := { s with cmd := s.cmd.tail, din := rest }) hf hmu _ _)

end Sys2Proof.Machine
end

section
/-! The system unit (spec/40_sys_pcm.md R100 to R106; spec/60_exceptions.md R235; spec/70_reset_and_hazards.md R260 to
R262): what `NOP`, the two resets and the two reads do. -/

namespace Sys2Proof.Machine

open Sys2Proof

/-- Settles O14: `NOP` has no check and no transition. -/
theorem nopDoesNothing : Obligations.NopDoesNothing := ⟨rfl, fun _ => rfl⟩

/-- Of the moves of the status register only that of `RSTALL` clears `FAULT` (R33, R235). -/
theorem StatusMove.rstall_of_recovers {i : Instr} {a b : Status} (h : StatusMove i a b) (ha : a.fault = true)
    (hb : b.fault = false) : i = .rstall := by
  cases h with
  | restarted => rfl
  | faulted => cases hb
  | kept | noted | stepped | requested | notified | unitReset => simp [ha] at hb

/-- Settles O15: `RSTALL` makes its transition without a check, and the move of every other operation keeps `FAULT`. -/
theorem rstallResetsAndRecovers : Obligations.RstallResetsAndRecovers :=
  ⟨rfl, exec_rstall, fun _ _ _ h => (exec_status h).rstall_of_recovers⟩

/-! ### `RSTU` (R102, R262) -/

theorem encode_rstu (u : Arg) : encode (.rstu u) = 0x02000000 + u.zeroExtend 32 := by
  have hu := u.isLt
  apply BitVec.eq_of_toNat_eq
  rw [encode, wordOf_toNat]
  simp [Instr.unit, Instr.op, Instr.arg]
  omega

/-- `RSTU` of a unit's number resets that unit. -/
theorem exec_rstu {s : State} {u : Arg} (hf : s.status.fault = false) (hu : 1 ≤ u.toNat ∧ u.toNat ≤ 10) :
    exec (.rstu u) s = .next (State.resetUnit { s with cmd := s.cmd.tail } u.toNat) := by
  have ha : argFault (.rstu u) = none := by simp [argFault]; omega
  exact show execRstu u s = _ from command_runs (.rstu u) (ws := []) hf ha rfl rfl _

/-- Settles O16: a unit's number selects its arm of the reset, and any other fails the check on `ARG`. -/
theorem rstuResetsOneUnit : Obligations.RstuResetsOneUnit := by
  refine fun s u => ⟨encode_rstu u, fun hf => ?_⟩
  intro s'
  refine ⟨?stateless, ?_, ?_, ?_, ?_, ?_, ?_, ?_, ?bad⟩
  case stateless => rintro (rfl | rfl | rfl) <;> exact exec_rstu hf (by decide)
  case bad =>
    intro h
    have hu : u.toNat = 0 ∨ 10 < u.toNat := h.imp_left (congrArg BitVec.toNat)
    exact show execRstu u s = _ from command_badArg (.rstu u) hf (if_pos (by simpa using hu)) _
  all_goals
    rintro rfl
    exact exec_rstu hf (by decide)

/-! ### `RDP` and `RDS` (R105, R106) -/

theorem Params.read_mapped (p : Params) {k : Nat} (hk : k ≤ 25) : ∃ v, p.read k = some v :=
  ⟨_, (p.read_eq k).trans (List.getElem?_eq_getElem (show k < p.values.length from Nat.lt_succ_of_le hk))⟩

theorem State.readState_mapped (s : State) {k : Nat} (hk : k ≤ 22 ∨ (32 ≤ k ∧ k ≤ 55) ∨ (256 ≤ k ∧ k ≤ 511)) :
    ∃ v, s.readState k = some v := by
  rcases Nat.lt_or_ge 22 k with h | h
  · rw [readState_above s h]
    split_ifs
    case neg => omega
    all_goals exact ⟨_, rfl⟩
  · interval_cases k <;> exact ⟨_, rfl⟩

/-- Settles O19: a read makes no check but that its index is mapped, so a recorded fault stops only an unmapped one. -/
theorem readsAppendOneWord : Obligations.ReadsAppendOneWord := by
  refine fun s a => ⟨fun h => ?rdp, fun h => ?rds, fun hf h => ?rdpUnmapped, fun hf h => ?rdsUnmapped⟩
  case rdp =>
    obtain ⟨v, hv⟩ := s.params.read_mapped h
    exact ⟨v, hv, congrArg (readOut _ · s) hv⟩
  case rds =>
    obtain ⟨v, hv⟩ := s.readState_mapped h
    exact ⟨v, hv, congrArg (readOut _ · s) hv⟩
  case rdpUnmapped =>
    exact (congrArg (readOut _ · s) (s.params.read_unmapped h)).trans (readOut_unmapped_faulted hf)
  case rdsUnmapped =>
    exact (congrArg (readOut _ · s) (s.readState_unmapped h)).trans (readOut_unmapped_faulted hf)

end Sys2Proof.Machine
end

section
/-! Exact results: where an operation's exact result is itself a real, that real is its result (spec/00_scope.md R10), for
the scalings and the rounding to an integer that the PCM converter makes. -/

namespace Sys2Proof.Machine

open Sys2Proof

/-! ### Scaling by powers of two -/

/-- Above the subnormals, `j` more in the exponent field is a factor of 2^j. -/
theorem units_add_exponent {c : Nat} (hc : 2 ^ 52 ≤ c) (j : Nat) :
    F64.units (c + j * 2 ^ 52) = F64.units c * 2 ^ j := by
  obtain ⟨q, hq⟩ : ∃ q, c / 2 ^ 52 = q + 1 := ⟨c / 2 ^ 52 - 1, by omega⟩
  rw [F64.units, F64.units, show (c + j * 2 ^ 52) / 2 ^ 52 = q + j + 1 by omega,
    show (c + j * 2 ^ 52) % 2 ^ 52 = c % 2 ^ 52 by omega, hq, if_neg (by omega), if_neg (by omega),
    Nat.add_sub_cancel, Nat.add_sub_cancel, pow_add, mul_assoc]

/-- A whole number below 2^53 over a power of two is the value of a finite code. -/
theorem exists_units_mul_two_pow {n j : Nat} (hn : n < 2 ^ 53) (hj : j ≤ 1022) :
    ∃ c : Fin infMag, F64.units c * 2 ^ j = n * 2 ^ 1074 := by
  obtain ⟨c, hc⟩ := units_eq_of_lt hn
  rcases Nat.eq_zero_or_pos n with rfl | h0
  · exact ⟨0, (Nat.zero_mul _).trans (Nat.zero_mul _).symm⟩
  · have hlow : F64.units (2 ^ 52 + j * 2 ^ 52) ≤ F64.units c := by
      rw [units_add_exponent le_rfl, hc, show F64.units (2 ^ 52) = 2 ^ 52 from rfl, ← pow_add]
      exact (Nat.pow_le_pow_right two_pos (by omega)).trans (Nat.le_mul_of_pos_left _ h0)
    have hle : 2 ^ 52 + j * 2 ^ 52 ≤ c.val := units_strictMono.le_iff_le.1 hlow
    refine ⟨⟨c.val - j * 2 ^ 52, by omega⟩, ?_⟩
    rw [← units_add_exponent (show 2 ^ 52 ≤ c.val - j * 2 ^ 52 by omega), Nat.sub_add_cancel (by omega), hc]

/-- A size that is a finite code's value exactly rounds to that code. -/
theorem roundUnits_of_eq (neg : Bool) {num den : Nat} {c : Fin infMag} (hd : 0 < den) (h : F64.units c * den = num) :
    F64.roundUnits neg num den = .fin neg c := by
  rw [F64.roundUnits, roundMag_of_eq hd h.symm, F64.ofMag, dif_pos c.isLt]

/-- Dividing by a power of two and multiplying by it again is exact on the integers below 2^53. -/
theorem div_mul_two_pow {n : Int} {j : Nat} (hn : n.natAbs < 2 ^ 53) (hj : j < 53) :
    ((F64.ofInt n).div (.ofInt (2 ^ j))).mul (.ofInt (2 ^ j)) = .ofInt n := by
  obtain ⟨m, hm⟩ := units_eq_of_lt hn
  obtain ⟨k, hk⟩ := units_eq_of_lt (n := ((2 : Int) ^ j).natAbs)
    (by rw [Int.natAbs_pow]; exact Nat.pow_lt_pow_right one_lt_two hj)
  obtain ⟨c, hc⟩ := exists_units_mul_two_pow hn (show j ≤ 1022 by omega)
  obtain ⟨hofn, -⟩ := ofInt_of_units hm
  obtain ⟨hofk, -⟩ := ofInt_of_units hk
  rw [Int.natAbs_pow] at hk
  have hkpos : 0 < F64.units k := by rw [hk]; positivity
  have hk0 : k.val ≠ 0 := fun h => by rw [h] at hkpos; exact absurd hkpos (by decide)
  have hprod : F64.units c * F64.units k = F64.units m * 2 ^ 1074 := by rw [hk, hm, ← hc]; exact (mul_assoc ..).symm
  have hpos : decide ((2 : Int) ^ j < 0) = false := decide_eq_false (not_lt.2 (by positivity))
  rw [hofn, hofk, hpos, F64.div, if_neg hk0, Bool.bne_false, roundUnits_of_eq _ hkpos hprod, F64.mul, Bool.bne_false,
    roundUnits_of_eq _ (Nat.two_pow_pos _) hprod.symm]

/-! ### Integers -/

/-- A whole literal is the real of its integer. -/
theorem ofInt_natCast (n : Nat) : F64.ofInt n = .lit n 1 := by
  rw [F64.ofInt, F64.lit, Int.natAbs_natCast, decide_eq_false (by omega)]

theorem neg_roundUnits (neg : Bool) (num den : Nat) :
    (F64.roundUnits neg num den).neg = .roundUnits (!neg) num den := by
  rw [F64.roundUnits, F64.roundUnits, F64.ofMag, F64.ofMag]
  split <;> rfl

theorem ofInt_neg_natCast {n : Nat} (h : 0 < n) : F64.ofInt (-n) = .neg (.lit n 1) := by
  rw [F64.ofInt, F64.lit, neg_roundUnits, Int.natAbs_neg, Int.natAbs_natCast, decide_eq_true (by omega), Bool.not_false]

/-- The reals of integers below 2^53 are ordered as the integers. -/
theorem lt_ofInt_iff {a b : Int} (ha : |a| < 2 ^ 53) (hb : |b| < 2 ^ 53) :
    F64.lt (.ofInt a) (.ofInt b) = true ↔ a < b := by
  obtain ⟨s, m, hm, hmu⟩ := ofInt_exact ha
  obtain ⟨t, n, hn, hnu⟩ := ofInt_exact hb
  rw [hm, hn, lt_fin_iff, hmu, hnu]
  exact mul_lt_mul_iff_of_pos_right (by positivity)

theorem floorInt_ofInt {n : Int} (hn : |n| < 2 ^ 53) : F64.floorInt (.ofInt n) = n := by
  obtain ⟨s, m, hm, hmu⟩ := ofInt_exact hn
  rw [hm, F64.floorInt, hmu, Int.mul_ediv_cancel _ (by positivity)]

theorem isNaN_ofInt {n : Int} (hn : |n| < 2 ^ 53) : (F64.ofInt n).isNaN = false := by
  obtain ⟨s, m, hm, -⟩ := ofInt_exact hn
  rw [hm]
  rfl

theorem signed_natAbs (v : Int) : signed (decide (v < 0)) v.natAbs = v := by
  rcases lt_or_ge v 0 with h | h
  · rw [decide_eq_true h, signed, if_pos rfl, Int.ofNat_natAbs_of_nonpos h.le, neg_neg]
  · rw [decide_eq_false (not_lt.2 h), signed, if_neg Bool.false_ne_true, Int.natAbs_of_nonneg h]

/-- A sum whose exact value is a finite code's and not zero is that code with the sum's sign. -/
theorem add_of_units {s t : Bool} {m n c : Fin infMag} {v : Int}
    (hv : (F64.fin s m).toUnits + (F64.fin t n).toUnits = v) (h0 : v ≠ 0) (hc : F64.units c = v.natAbs) :
    (F64.fin s m).add (.fin t n) = .fin (decide (v < 0)) c := by
  subst hv
  exact (if_neg h0).trans (roundUnits_of_eq _ one_pos (by rw [hc, mul_one]))

theorem floor_of_ne_zero (s : Bool) {m : Fin infMag} (h0 : F64.units m ≠ 0) :
    (F64.fin s m).floor = .ofInt (F64.floorInt (.fin s m)) :=
  if_neg fun h => h0 (by rw [h]; rfl)

/-- A half in units of 2^-1074. -/
theorem exists_half_eq : ∃ h : Fin infMag, F64.half = .fin false h ∧ F64.units h = 2 ^ 1073 := by
  obtain ⟨h, hh⟩ := exists_units_mul_two_pow (n := 1) (j := 1) (by norm_num) (by norm_num)
  rw [pow_one] at hh
  have hunits : F64.units h = 2 ^ 1073 :=
    Nat.eq_of_mul_eq_mul_right two_pos (hh.trans (by rw [one_mul, ← pow_succ]))
  exact ⟨h, roundUnits_of_eq _ two_pos (by rw [hunits, one_mul, ← pow_succ]), hunits⟩

/-- A half added to an integer is exact, and the floor takes it away again. -/
theorem floor_ofInt_add_half {n : Int} (hn : |n| < 2 ^ 51) : ((F64.ofInt n).add .half).floor = .ofInt n := by
  obtain ⟨s, m, hm, hmu⟩ := ofInt_exact (hn.trans (by norm_num))
  obtain ⟨h, hh, hhu⟩ := exists_half_eq
  obtain ⟨c, hc⟩ := exists_units_mul_two_pow (n := (2 * n + 1).natAbs) (j := 1)
    (by rw [abs_lt] at hn; omega) (by norm_num)
  rw [pow_one] at hc
  have hP : (0 : Int) < 2 ^ 1073 := by positivity
  have hP2 : (2 : Int) ^ 1074 = 2 * 2 ^ 1073 := pow_succ' 2 1073
  have hsum : (F64.fin s m).toUnits + (F64.fin false h).toUnits = (2 * n + 1) * 2 ^ 1073 := by
    rw [hmu, toUnits_fin, hhu, signed, if_neg Bool.false_ne_true, Nat.cast_pow, Nat.cast_ofNat, hP2]
    generalize (2 : Int) ^ 1073 = P
    ring
  have hsize : F64.units c = ((2 * n + 1) * 2 ^ 1073).natAbs := by
    rw [Int.natAbs_mul, Int.natAbs_pow, show Int.natAbs 2 = 2 from rfl]
    exact Nat.eq_of_mul_eq_mul_right two_pos (hc.trans (by rw [mul_assoc, ← pow_succ]))
  have hne : (2 * n + 1) * 2 ^ 1073 ≠ (0 : Int) := mul_ne_zero (by omega) hP.ne'
  rw [hm, hh, add_of_units hsum hne hsize, floor_of_ne_zero _ (by rw [hsize]; exact Int.natAbs_ne_zero.2 hne),
    F64.floorInt, toUnits_fin, hsize, signed_natAbs, hP2, Int.mul_ediv_mul_of_pos_left _ _ hP,
    show (2 * n + 1) / 2 = n by omega, hm]

end Sys2Proof.Machine
end

section
/-! The PCM converter (spec/40_sys_pcm.md R110 to R112): what its operations put on DOUT, and that a store undoes a load. -/

namespace Sys2Proof.Machine

open Sys2Proof

theorem State.doutReals_pair (s : State) (a b : F64) : s.doutReals [a, b] = (s.doutReal a).doutReal b := rfl

/-- Settles O22: the operands are taken by the common order of checks, and each is scaled. -/
theorem pcmLoadResult : Obligations.PcmLoadResult := by
  refine ⟨rfl, rfl, fun s w rest hf hd => ?real, fun s w v rest hf hd => ?complex⟩
  case real => exact show execPcmLd s = _ from command_runs .pcmLd (ws := [w]) hf rfl hd rfl _
  case complex =>
    refine (show execPcmLdc s = _ from command_runs .pcmLdc (ws := [w, v]) hf rfl hd rfl _).trans ?_
    rw [State.doutReals_pair]
    rfl

/-- A stored sample in the literals of R112. -/
theorem pcmStore_eq (p : Params) (x : F64) : pcmStore p x =
    if (x.mul p.pcmScale).isNaN = true then 0
    else if F64.lt (.lit 32767 1) ((x.mul p.pcmScale).add (.lit 1 2)).floor = true then 32767
    else if F64.lt ((x.mul p.pcmScale).add (.lit 1 2)).floor (.neg (.lit 32768 1)) = true then -32768
    else ((x.mul p.pcmScale).add (.lit 1 2)).floor.floorInt := by
  rw [← ofInt_natCast, ← ofInt_neg_natCast (by norm_num)]
  rfl

/-- Settles O23: the operand is taken by the common order of checks and its sample appended. -/
theorem pcmStoreResult : Obligations.PcmStoreResult := by
  refine ⟨rfl, fun s w rest hf hd => ?_⟩
  intro t r
  refine (show execPcmSt s = _ from command_runs .pcmSt (ws := [w]) hf rfl hd rfl _).trans ?_
  rw [pcmStore_eq]
  rfl

/-- A product that is a 16-bit integer is stored as that integer. -/
theorem pcmStore_of_mul_eq {p : Params} {x : F64} {n : Int} (hx : x.mul p.pcmScale = .ofInt n) (hlo : -32768 ≤ n)
    (hhi : n ≤ 32767) : pcmStore p x = n := by
  have hn : |n| < 2 ^ 51 := abs_lt.2 ⟨by omega, by omega⟩
  have hn' : |n| < 2 ^ 53 := hn.trans (by norm_num)
  have habove : ¬F64.lt (.ofInt 32767) (.ofInt n) = true := by rw [lt_ofInt_iff (by norm_num) hn']; omega
  have hbelow : ¬F64.lt (.ofInt n) (.ofInt (-32768)) = true := by rw [lt_ofInt_iff hn' (by norm_num)]; omega
  simp only [pcmStore, hx, isNaN_ofInt hn', floor_ofInt_add_half hn, Bool.false_eq_true, if_false, if_neg habove,
    if_neg hbelow, floorInt_ofInt hn']

/-- Settles O24: a sample over 2^15 is a real exactly, so multiplying by 2^15 again and rounding both give the sample. -/
theorem pcmRoundTrip : Obligations.PcmRoundTrip := by
  intro p x hp
  have hlo := x.le_toInt
  have hhi := x.toInt_lt
  have hscale : p.pcmScale = .ofInt (2 ^ 15) := hp.trans (ofInt_natCast 32768).symm
  have hproduct : (pcmLoad p x.toInt).mul p.pcmScale = .ofInt x.toInt := by
    rw [pcmLoad, hscale]
    exact div_mul_two_pow (by omega) (by norm_num)
  exact pcmStore_of_mul_eq hproduct (by omega) (by omega)

end Sys2Proof.Machine
end

section
/-! The correction filters (spec/41_correction.md R120 to R130): what `DCF.STEP`, `DCF.STEPC`, `DCF.BLOCK`, `DCF.BLOCKC`
and `IQC.STEP` compute, in the spec's formulas. -/

namespace Sys2Proof.Machine

open Sys2Proof

/-- An operation word is its row's word plus its `ARG` (R81). -/
theorem encode_eq_add {i : Instr} {row : Word32} (hrow : wordOf i.unit i.op 0 = row) :
    encode i = row + i.arg.zeroExtend 32 := by
  subst hrow
  have hu := i.unit.isLt
  have ho := i.op.isLt
  have ha := i.arg.isLt
  apply BitVec.eq_of_toNat_eq
  rw [encode, BitVec.toNat_add, wordOf_toNat, wordOf_toNat, BitVec.toNat_setWidth,
    show (0 : Arg).toNat = 0 from rfl]
  omega

/-! ### The sticky flag (R33) -/

theorem State.noteNonfinite_false (s : State) : s.noteNonfinite false = s := by
  rw [State.noteNonfinite, Bool.or_false]

theorem State.noteNonfinite_true (s : State) :
    s.noteNonfinite true = { s with status := { s.status with nonfinite := true } } := by
  rw [State.noteNonfinite, Bool.or_true]

/-! ### The leaky average (R120 to R122) -/

/-- Where the sample and the candidate are finite, the average moves and the output uses the new one. -/
theorem dcStep_of_finite {r x avg : F64} (hx : x.isFinite = true)
    (ha : (avg.add (r.mul (x.sub avg))).isFinite = true) :
    dcStep r x avg = ⟨avg.add (r.mul (x.sub avg)), x.sub (avg.add (r.mul (x.sub avg))), false⟩ := by
  simp [dcStep, hx, ha]

/-- Else the sample is excluded: the average stays and the output uses it. -/
theorem dcStep_of_not_finite {r x avg : F64}
    (h : ¬(x.isFinite = true ∧ (avg.add (r.mul (x.sub avg))).isFinite = true)) :
    dcStep r x avg = ⟨avg, x.sub avg, true⟩ := by
  have hok : (x.isFinite && (avg.add (r.mul (x.sub avg))).isFinite) = false := by
    rwa [← Bool.not_eq_true, Bool.and_eq_true]
  simp [dcStep, hok]

/-- Settles O26: the operand is taken by the common order of checks, and the guard decides which average is kept. -/
theorem dcfStepResult : Obligations.DcfStepResult := by
  intro s w rest hf hd x a s'
  have hrun : exec .dcfStep s = let r := dcStep s.params.dcRatio x s.dcf.avgI
      .next (({ s' with dcf := { s.dcf with avgI := r.avg } }.noteNonfinite r.excluded).doutReal r.out) :=
    show execDcfStep s = _ from command_runs .dcfStep (ws := [w]) hf rfl hd rfl _
  rw [hrun]
  by_cases hok : x.isFinite = true ∧ a.isFinite = true
  · rw [if_pos hok, dcStep_of_finite hok.1 hok.2]
    dsimp only
    rw [State.noteNonfinite_false]
  · rw [if_neg hok, dcStep_of_not_finite hok]
    dsimp only
    rw [State.noteNonfinite_true]

/-- Settles O27: the operands are taken by the common order of checks, and each channel has a guard of its own. -/
theorem dcfStepcResult : Obligations.DcfStepcResult := by
  intro s wi wq rest hf hd i q a b okI okQ avgI avgQ
  refine (show execDcfStepc s = _ from command_runs .dcfStepc (ws := [wi, wq]) hf rfl hd rfl _).trans ?_
  dsimp only
  rw [State.doutReals_pair, Bool.or_assoc]
  rfl

/-! ### The block mean (R123, R124) -/

/-- The mean of a block, its test for no finite sample as in R123. -/
theorem blockMean_eq (xs : List F64) : blockMean xs =
    let finite := xs.filter F64.isFinite
    let quotient := if finite = [] then .zero else (finite.foldl F64.add .zero).div (.ofInt finite.length)
    if quotient.isFinite = true then quotient else .zero := by
  simp only [blockMean, List.isEmpty_iff]

theorem blockExcluded_eq (xs : List F64) : blockExcluded xs = !xs.all F64.isFinite :=
  List.not_all_eq_any_not.symm

/-- Settles O28: the operands are taken by the common order of checks, and the mean is that of R123. -/
theorem dcfBlockResult : Obligations.DcfBlockResult := by
  refine fun s n ws rest => ⟨encode_eq_add (show wordOf 2 2 0 = _ by decide), fun hf hd hn => ?_⟩
  intro xs finite quotient m
  refine (show execDcfBlock n s = _ from command_runs (.dcfBlock n) hf rfl hd hn _).trans ?_
  dsimp only
  rw [blockExcluded_eq, blockOut, blockMean_eq]
  rfl

/-! A block of pairs is split into the I and the Q sequence and joined again (R124). -/

section Pairs

variable {α : Type} (f g : α → F64)

theorem evens_flatMap_pair (l : List α) : evens (l.flatMap fun p => [f p, g p]) = l.map f := by
  induction l with
  | nil => rfl
  | cons p l ih => exact congrArg (f p :: ·) ih

theorem odds_flatMap_pair (l : List α) : odds (l.flatMap fun p => [f p, g p]) = l.map g := by
  induction l with
  | nil => rfl
  | cons p l ih => exact congrArg (g p :: ·) ih

theorem interleave_map (l : List α) : interleave (l.map f) (l.map g) = l.flatMap fun p => [f p, g p] := by
  induction l with
  | nil => rfl
  | cons p l ih => exact congrArg (f p :: g p :: ·) ih

theorem all_flatMap_pair (t : F64 → Bool) (l : List α) :
    (l.flatMap fun p => [f p, g p]).all t = ((l.map f).all t && (l.map g).all t) := by
  induction l with
  | nil => rfl
  | cons p l ih =>
    simp only [List.flatMap_cons, List.all_append, ih, List.map_cons, List.all_cons, List.all_nil, Bool.and_true]
    ac_rfl

end Pairs

/-- Settles O29: the operands are taken by the common order of checks, every second one is the I sequence and the others
the Q sequence, and the results are joined in the same order. -/
theorem dcfBlockcResult : Obligations.DcfBlockcResult := by
  refine fun s n pairs rest => ⟨encode_eq_add (show wordOf 2 3 0 = _ by decide), fun hf hd hn => ?_⟩
  intro mean is qs
  have hlen : (pairs.flatMap fun p : Word64 × Word64 => [p.1, p.2]).length = dinWords (.dcfBlockc n) := by
    simp [dinWords, hn, mul_comm]
  have hreals : dinReals (pairs.flatMap fun p : Word64 × Word64 => [p.1, p.2]) =
      pairs.flatMap fun p : Word64 × Word64 => [F64.ofBits p.1, F64.ofBits p.2] := List.map_flatMap
  have hmean (xs : List F64) : blockMean xs = mean xs := blockMean_eq xs
  refine (show execDcfBlockc n s = _ from command_runs (.dcfBlockc n) hf rfl hd hlen _).trans ?_
  simp only [hreals, evens_flatMap_pair, odds_flatMap_pair, blockExcluded_eq, all_flatMap_pair, blockOut, List.map_map,
    interleave_map, hmean]
  rfl

/-! ### The IQ corrector (R130) -/

/-- The estimates of R130, its guard as a value. -/
theorem iqcUpdate_eq (r i q : F64) (u : Iqc) : iqcUpdate r i q u =
    let a := u.pii.add (r.mul ((i.mul i).sub u.pii))
    let b := u.pqq.add (r.mul ((q.mul q).sub u.pqq))
    let c := u.piq.add (r.mul ((i.mul q).sub u.piq))
    let ok := i.isFinite && q.isFinite && a.isFinite && b.isFinite && c.isFinite
    (if ok = true then ⟨a, b, c⟩ else u, !ok) := by
  simp only [iqcUpdate]
  split_ifs with hok
  · rw [hok, Bool.not_true]
  · rw [Bool.eq_false_iff.2 hok, Bool.not_false]

/-- The corrected Q of R130, its phase term and its gain each under a guard of its own. -/
theorem iqcCorrect_eq (u : Iqc) (i q : F64) : iqcCorrect u i q =
    let t := if F64.lt .zero u.pii = true then u.piq.div u.pii else .zero
    let v := u.pqq.sub (t.mul u.piq)
    let g := if F64.lt .zero u.pii = true ∧ F64.lt .zero v = true then (u.pii.div v).sqrt else .one
    (q.sub (t.mul i)).mul (if g.isFinite = true then g else .one) := by
  by_cases h : F64.lt .zero u.pii = true
  · simp [iqcCorrect, h]
  · simp [iqcCorrect, h]

/-- Settles O30: the operands are taken by the common order of checks, and the output is under the updated estimates. -/
theorem iqcStepResult : Obligations.IqcStepResult := by
  intro s wi wq rest hf hd i q r a b c ok u t v g₀ g
  refine (show execIqcStep s = _ from command_runs .iqcStep (ws := [wi, wq]) hf rfl hd rfl _).trans ?_
  dsimp only
  rw [State.doutReals_pair, iqcUpdate_eq, iqcCorrect_eq]
  rfl

end Sys2Proof.Machine
end

section
/-! No unit but IQC reads IQC state (spec/41_correction.md R131): on two states that differ at most in IQC, every
operation but `IQC.STEP` and `RDS` gives outcomes that differ at most there. -/

namespace Sys2Proof.Machine

open Sys2Proof

/-- The state with `u` in place of its IQC. -/
def State.setIqc (s : State) (u : Iqc) : State := { s with iqc := u }

/-- The same outcome up to IQC: the same stop, or next states that differ at most in IQC. -/
inductive SameButIqc : Result → Result → Prop where
  | next (t : State) (u : Iqc) : SameButIqc (.next t) (.next (t.setIqc u))
  | fault (f : Fault) : SameButIqc (.fault f) (.fault f)
  | refused (r : Refusal) : SameButIqc (.refused r) (.refused r)

/-- Next states, where the one is the other with another IQC. -/
theorem SameButIqc.of_eq {t t' : State} {u : Iqc} (h : t' = t.setIqc u) : SameButIqc (.next t) (.next t') := by
  subst h
  exact .next t u

@[simp] theorem State.setIqc_params (s : State) (u : Iqc) : (s.setIqc u).params = s.params := rfl
@[simp] theorem State.setIqc_rsm (s : State) (u : Iqc) : (s.setIqc u).rsm = s.rsm := rfl
@[simp] theorem State.setIqc_syn (s : State) (u : Iqc) : (s.setIqc u).syn = s.syn := rfl
@[simp] theorem State.setIqc_ntf (s : State) (u : Iqc) : (s.setIqc u).ntf = s.ntf := rfl

/-- A test that reads no IQC chooses the same side of both. -/
theorem SameButIqc.ite {c : Prop} [Decidable c] {a b a' b' : Result} (ha : SameButIqc a a') (hb : SameButIqc b b') :
    SameButIqc (if c then a else b) (if c then a' else b') := by
  split
  · exact ha
  · exact hb

theorem ite_eq_setIqc {c : Prop} [Decidable c] {a b a' b' : State} {u : Iqc} (ha : a' = a.setIqc u)
    (hb : b' = b.setIqc u) : (if c then a' else b') = (if c then a else b).setIqc u := by
  split
  · exact ha
  · exact hb

/-! ### The shared operations -/

section

variable {t t' : State} {u : Iqc}

theorem doutReal_eq_setIqc {v : F64} (h : t' = t.setIqc u) : t'.doutReal v = (t.doutReal v).setIqc u := by
  subst h
  cases v <;> rfl

theorem doutReals_eq_setIqc {vs : List F64} (h : t' = t.setIqc u) :
    t'.doutReals vs = (t.doutReals vs).setIqc u := by
  induction vs generalizing t t' with
  | nil => exact h
  | cons v vs ih => exact ih (doutReal_eq_setIqc h)

theorem doutReg_eq_setIqc {v : RegValue} (h : t' = t.setIqc u) : t'.doutReg v = (t.doutReg v).setIqc u := by
  cases v with
  | real v => exact doutReal_eq_setIqc h
  | int32 v | word v => subst h; rfl

theorem raiseFault_eq_setIqc {c : FaultCode} {w : Word32} (h : t' = t.setIqc u) :
    t'.raiseFault c w = (t.raiseFault c w).setIqc u := by
  subst h
  unfold State.raiseFault
  exact ite_eq_setIqc rfl rfl

theorem afterWrite_eq_setIqc {k : Nat} (h : t' = t.setIqc u) : t'.afterWrite k = (t.afterWrite k).setIqc u := by
  subst h
  unfold State.afterWrite
  exact ite_eq_setIqc rfl rfl

end

/-- A reset of unit 3 makes the two equal; that of another unit keeps them apart in IQC alone. -/
theorem State.resetUnit_setIqc (s : State) (u : Iqc) (k : Nat) :
    ∃ u', (s.setIqc u).resetUnit k = (s.resetUnit k).setIqc u' := by
  unfold State.resetUnit
  split
  case h_2 => exact ⟨.reset, rfl⟩
  all_goals exact ⟨u, rfl⟩

/-- The common order of checks reads no IQC (R99). -/
theorem command_sameButIqc (i : Instr) (s : State) (u : Iqc) {body : State → List Word64 → Result}
    (hb : ∀ s d, SameButIqc (body s d) (body (s.setIqc u) d)) :
    SameButIqc (command i s body) (command i (s.setIqc u) body) := by
  rcases command_cases i s body with ⟨hf, e⟩ | ⟨hf, c, hc, e⟩ | ⟨hh, e⟩ | ⟨hr, e⟩ <;> rw [e]
  · rw [command_faulted (s := s.setIqc u) hf]
    exact .next s.retire u
  · rw [command_badArg i (s := s.setIqc u) hf hc, State.raiseFault_of_clear (s := s.retire) hf]
    exact .of_eq rfl
  · rw [command_holds (s := s.setIqc u) hh]
    exact .next s u
  · rw [command_ready (s := s.setIqc u) hr]
    exact hb (s.consume (dinWords i)) _

theorem readOut_sameButIqc (i : Instr) (v : Option RegValue) (s : State) (u : Iqc) :
    SameButIqc (readOut i v s) (readOut i v (s.setIqc u)) := by
  cases v with
  | none => exact .of_eq (raiseFault_eq_setIqc rfl)
  | some x => exact .of_eq (doutReg_eq_setIqc rfl)

/-- The delivery of a notification reads no IQC (R243). -/
theorem notification_sameButIqc (s : State) (u : Iqc) {body : State → Word64 → State}
    (hb : ∀ s w, body (s.setIqc u) w = (body s w).setIqc u) :
    SameButIqc (notification s body) (notification (s.setIqc u) body) := by
  unfold notification
  rw [State.setIqc_ntf]
  cases s.ntf with
  | nil => exact .next s u
  | cons n ns => exact .ite (.next s.dropNtf u) (.of_eq (hb s.dropNtf n.operand))

/-! ### The transitions with branches of their own -/

/-- Whether the output loop ends, and with which outputs, is the same of both (R181). -/
theorem resample_sameButIqc (tp : Taps) (s : State) (u : Iqc) (ws : List (Vector F64 8)) :
    SameButIqc (resample tp s ws) (resample tp (s.setIqc u) ws) := by
  unfold resample
  rw [State.setIqc_params, State.setIqc_rsm]
  cases resampleLoop tp ws s.params.rsStep 256 s.rsm.pos with
  | none => exact .fault _
  | some r => exact .of_eq (doutReals_eq_setIqc rfl)

theorem synTrackerReset_setIqc (s : State) (u : Iqc) :
    synTrackerReset (s.setIqc u) = (synTrackerReset s).setIqc u := by
  unfold synTrackerReset
  exact ite_eq_setIqc rfl rfl

theorem synIntake_setIqc (s : State) (u : Iqc) (x : F64) :
    synIntake (s.setIqc u) x = (synIntake s x).setIqc u := by
  have h := synTrackerReset_setIqc (s.noteNonfinite (synReplaced s x)) u
  exact congrArg (fun t : State => { t with syn := synAdvance s.params t.syn (synSample s x) }) h

theorem synSymbolStep_setIqc (tp : Taps) (s : State) (u : Iqc) :
    synSymbolStep tp (s.setIqc u) = (synSymbolStep tp s).setIqc u := by
  unfold synSymbolStep
  exact doutReal_eq_setIqc rfl

theorem synStepWith_setIqc (tp : Taps) (s : State) (u : Iqc) (x : F64) :
    synStepWith tp (s.setIqc u) x = (synStepWith tp s x).setIqc u := by
  unfold synStepWith
  rw [synIntake_setIqc]
  exact ite_eq_setIqc (synSymbolStep_setIqc tp _ u) rfl

theorem synEndbuf_setIqc (s : State) (u : Iqc) : synEndbuf (s.setIqc u) = (synEndbuf s).setIqc u := by
  unfold synEndbuf
  rw [State.setIqc_params, State.setIqc_syn]
  refine ite_eq_setIqc rfl ?_
  dsimp only
  split <;> rfl

/-! ### Every operation -/

/-- An operation other than `IQC.STEP` and `RDS` reads no IQC: what it computes is the same of both states. -/
theorem exec_sameButIqc {i : Instr} (s : State) (u : Iqc) (hstep : i ≠ .iqcStep) (hrds : ∀ r, i ≠ .rds r) :
    SameButIqc (exec i s) (exec i (s.setIqc u)) := by
  cases i <;> unfold exec
  case iqcStep => exact absurd rfl hstep
  case rds r => exact absurd rfl (hrds r)
  case nop => exact .next s.retire u
  case rstall => exact .next s.retire.restart .reset
  case rstu k =>
    refine command_sameButIqc _ s u fun s d => ?_
    obtain ⟨u', h⟩ := s.resetUnit_setIqc u k.toNat
    exact .of_eq h
  case wrp k =>
    refine command_sameButIqc _ s u fun s d => ?_
    rw [State.setIqc_params]
    cases s.params.write k.toNat (dinWord d 0) with
    | none => exact .of_eq (raiseFault_eq_setIqc rfl)
    | some p => exact .of_eq (afterWrite_eq_setIqc rfl)
  case rdp k => exact readOut_sameButIqc _ _ s u
  case pcmLd | dcfStep | fmdStep | amdStep | dgcCorrect | intFir =>
    exact command_sameButIqc _ s u fun s d => .of_eq (doutReal_eq_setIqc rfl)
  case pcmLdc | dcfStepc | dcfBlock | dcfBlockc | agcStep | intFirc =>
    exact command_sameButIqc _ s u fun s d => .of_eq (doutReals_eq_setIqc rfl)
  case pcmSt | dgcInc | dgcDec => exact command_sameButIqc _ s u fun s d => .next _ u
  case intFirmu =>
    exact command_sameButIqc _ s u fun s d =>
      .ite (.of_eq (doutReal_eq_setIqc rfl)) (.of_eq (raiseFault_eq_setIqc rfl))
  case intFirmuc =>
    exact command_sameButIqc _ s u fun s d =>
      .ite (.of_eq (doutReals_eq_setIqc rfl)) (.of_eq (raiseFault_eq_setIqc rfl))
  case rsmPush => exact command_sameButIqc _ s u fun s d => resample_sameButIqc _ _ u _
  case rsmPushc => exact command_sameButIqc _ s u fun s d => resample_sameButIqc _ _ u _
  case synStep => exact command_sameButIqc _ s u fun s d => .of_eq (synStepWith_setIqc _ s u _)
  case synEndbuf => exact command_sameButIqc _ s u fun s d => .of_eq (synEndbuf_setIqc s u)
  case synAck => exact notification_sameButIqc s u fun s w => rfl
  case synRate => exact notification_sameButIqc s u fun s w => rfl

/-- Settles O31: the outcome on the second state is that on the first up to IQC, which is the statement of each kind of
outcome. -/
theorem noOtherUnitReadsIqc : Obligations.NoOtherUnitReadsIqc := by
  intro i s u hstep hrds
  have h := exec_sameButIqc s u hstep hrds
  change SameButIqc (exec i s) (exec i { s with iqc := u }) at h
  generalize exec i s = a at h ⊢
  generalize exec i { s with iqc := u } = b at h ⊢
  cases h with
  | next t u' => exact ⟨u', rfl⟩
  | fault f => rfl
  | refused r => rfl

end Sys2Proof.Machine
end

section
/-! Binary64 results near exact ones: how far an operation's result is from the result on the numbers that its operands
stand near, for the operands of the FM discriminator (spec/00_scope.md R10; spec/42_demod.md R141, R142). -/

namespace Sys2Proof.Machine

open Sys2Proof

/-- A finite real within `e` of the number `r`. -/
def Near (x : F64) (r e : ℝ) : Prop := x.isFinite = true ∧ |((value x : ℚ) : ℝ) - r| ≤ e

/-- The one is exact. -/
theorem near_one : Near .one 1 0 := by
  have h : value .one = 1 := by decide +kernel
  exact ⟨by rw [one_eq_fin]; rfl, by rw [h]; simp⟩

section

variable {x y : F64} {a b d e : ℝ}

theorem Near.mono (h : Near x a d) (hde : d ≤ e) : Near x a e := ⟨h.1, h.2.trans hde⟩

/-- A result that is one rounding away from an exact number of size at most 2^12, itself within `e` of `r`. -/
theorem near_of_rounding {r v : ℝ} (hsize : |v| ≤ 4096)
    (hround : |v| < 2 ^ 900 → x.isFinite = true ∧ |((value x : ℚ) : ℝ) - v| ≤ |v| / 2 ^ 53 + 1 / 2 ^ 1075)
    (hv : |v - r| ≤ e) : Near x r (e + 1 / 2 ^ 40) := by
  have hbig : (4096 : ℝ) < 2 ^ 900 :=
    lt_of_lt_of_le (show (4096 : ℝ) < 2 ^ 13 by norm_num) (pow_le_pow_right₀ one_le_two (by norm_num))
  have htiny : (1 : ℝ) / 2 ^ 1075 ≤ 1 / 2 ^ 41 :=
    one_div_le_one_div_of_le (by positivity) (pow_le_pow_right₀ one_le_two (by norm_num))
  obtain ⟨hfin, herr⟩ := hround (hsize.trans_lt hbig)
  have hunit : |v| / 2 ^ 53 + 1 / 2 ^ 1075 ≤ 1 / 2 ^ 40 :=
    calc |v| / 2 ^ 53 + 1 / 2 ^ 1075 ≤ 4096 / 2 ^ 53 + 1 / 2 ^ 41 := add_le_add (by gcongr) htiny
      _ = 1 / 2 ^ 40 := by norm_num
  refine ⟨hfin, (abs_sub_le _ v r).trans ?_⟩
  rw [add_comm e]
  exact add_le_add (herr.trans hunit) hv

theorem near_add (hx : Near x a d) (hy : Near y b e) (hsize : |a + b| + (d + e) ≤ 4096) :
    Near (x.add y) (a + b) (d + e + 1 / 2 ^ 40) := by
  have hsum : |((value x : ℚ) : ℝ) + ((value y : ℚ) : ℝ) - (a + b)| ≤ d + e := by
    rw [add_sub_add_comm]
    exact (abs_add_le _ _).trans (add_le_add hx.2 hy.2)
  exact near_of_rounding (by linarith [abs_sub_abs_le_abs_sub (((value x : ℚ) : ℝ) + ((value y : ℚ) : ℝ)) (a + b)])
    (add_near hx.1 hy.1) hsum

theorem near_neg (hx : Near x a d) : Near x.neg (-a) d := by
  refine ⟨(isFinite_neg x).trans hx.1, ?_⟩
  rw [value_neg, ← neg_sub', abs_neg]
  exact hx.2

theorem near_sub (hx : Near x a d) (hy : Near y b e) (hsize : |a - b| + (d + e) ≤ 4096) :
    Near (x.sub y) (a - b) (d + e + 1 / 2 ^ 40) := by
  rw [sub_eq_add_neg] at hsize ⊢
  exact near_add hx (near_neg hy) hsize

/-- A real near a number is not larger in size than that number and the distance. -/
theorem Near.abs_le (hx : Near x a d) : |((value x : ℚ) : ℝ)| ≤ |a| + d := by
  linarith [abs_sub_abs_le_abs_sub ((value x : ℚ) : ℝ) a, hx.2]

theorem near_mul (hx : Near x a d) (hy : Near y b e) (ha : |a| ≤ 2) (hb : |b| ≤ 2) (hd : d ≤ 1) (he : e ≤ 1) :
    Near (x.mul y) (a * b) (2 * d + 3 * e + 1 / 2 ^ 40) := by
  have hX : |((value x : ℚ) : ℝ)| ≤ 3 := hx.abs_le.trans (by linarith)
  have hY : |((value y : ℚ) : ℝ)| ≤ 3 := hy.abs_le.trans (by linarith)
  refine near_of_rounding ?_ (mul_near hx.1 hy.1) ?_
  · rw [abs_mul]
    exact (mul_le_mul hX hY (abs_nonneg _) (by norm_num)).trans (by norm_num)
  · calc |((value x : ℚ) : ℝ) * ((value y : ℚ) : ℝ) - a * b|
        = |(((value x : ℚ) : ℝ) - a) * b + ((value x : ℚ) : ℝ) * (((value y : ℚ) : ℝ) - b)| := by congr 1; ring
      _ ≤ |((value x : ℚ) : ℝ) - a| * |b| + |((value x : ℚ) : ℝ)| * |((value y : ℚ) : ℝ) - b| :=
        (abs_add_le _ _).trans_eq (by rw [abs_mul, abs_mul])
      _ ≤ d * 2 + 3 * e := add_le_add
        (mul_le_mul hx.2 hb (abs_nonneg _) ((abs_nonneg _).trans hx.2))
        (mul_le_mul hX hy.2 (abs_nonneg _) (by norm_num))
      _ = 2 * d + 3 * e := by ring

/-- A quotient is off by at most the operands' distances over the square of the least denominator. -/
theorem abs_div_sub_div_le {X Y c : ℝ} (hc : 0 < c) (hY : c ≤ Y) (hcb : c ≤ b) (ha : |a| ≤ 1) (hb : |b| ≤ 1)
    (hX : |X - a| ≤ d) (hYb : |Y - b| ≤ d) : |X / Y - a / b| ≤ 2 * d / c ^ 2 := by
  have hY0 : 0 < Y := hc.trans_le hY
  have hb0 : 0 < b := hc.trans_le hcb
  have hd : 0 ≤ d := (abs_nonneg _).trans hX
  have hnum : |X * b - Y * a| ≤ 2 * d := by
    calc |X * b - Y * a| = |(X - a) * b - a * (Y - b)| := by congr 1; ring
      _ ≤ |X - a| * |b| + |a| * |Y - b| := (abs_sub _ _).trans_eq (by rw [abs_mul, abs_mul])
      _ ≤ d * 1 + 1 * d := add_le_add (mul_le_mul hX hb (abs_nonneg _) hd)
        (mul_le_mul ha hYb (abs_nonneg _) zero_le_one)
      _ = 2 * d := by ring
  have hden : c ^ 2 ≤ Y * b := by rw [sq]; exact mul_le_mul hY hcb hc.le hY0.le
  rw [div_sub_div _ _ hY0.ne' hb0.ne', abs_div, abs_of_pos (mul_pos hY0 hb0)]
  exact div_le_div₀ (by positivity) hnum (by positivity) hden

/-- A quotient of a sine and a cosine that is not near zero. -/
theorem near_div (hx : Near x a d) (hy : Near y b d) (ha : |a| ≤ 1) (hb : |b| ≤ 1) (hb0 : 1 / 2000 ≤ b)
    (hd : d ≤ 1 / 2 ^ 20) : Near (x.div y) (a / b) (2 ^ 23 * d + 1 / 2 ^ 40) := by
  have hX : |((value x : ℚ) : ℝ)| ≤ 2 := hx.abs_le.trans (by linarith)
  have hY : 1 / 2048 ≤ ((value y : ℚ) : ℝ) := by
    have := (abs_le.1 hy.2).1
    linarith
  have hY0 : 0 < ((value y : ℚ) : ℝ) := by linarith
  refine near_of_rounding ?_ (div_near hx.1 hy.1 hY0.ne') ?_
  · rw [abs_div, abs_of_pos hY0, div_le_iff₀ hY0]
    linarith
  · refine (abs_div_sub_div_le (by norm_num) hY (by linarith) ha hb hx.2 hy.2).trans_eq ?_
    ring

end

/-! ### The arctangent (R142) -/

/-- The arctangent moves by no more than its argument. -/
theorem abs_arctan_sub_arctan_le (x y : ℝ) : |Real.arctan x - Real.arctan y| ≤ |x - y| := by
  have hlip : LipschitzWith 1 Real.arctan := by
    refine lipschitzWith_of_nnnorm_deriv_le Real.differentiable_arctan fun z => ?_
    rw [← NNReal.coe_le_coe, coe_nnnorm, Real.deriv_arctan, Real.norm_eq_abs, abs_of_pos (by positivity), NNReal.coe_one,
      div_le_one (by positivity)]
    linarith [sq_nonneg z]
  simpa [Real.dist_eq] using hlip.dist_le_mul x y

/-- Up to the code of pi/2, a unit in the last place is at most 2^-52. -/
theorem ulpAt_le {m : Nat} (hm : m ≤ atanBound.val) : ((ulpAt m : ℚ) : ℝ) ≤ 1 / 2 ^ 52 := by
  have hexp : m / 2 ^ 52 - 1 ≤ 1022 :=
    (Nat.sub_le_sub_right (Nat.div_le_div_right hm) 1).trans (by decide)
  rw [ulpAt_eq, show (1074 : Nat) = 1022 + 52 from rfl, pow_add, ← div_div]
  gcongr
  exact (div_le_one (by positivity)).2 (pow_le_pow_right₀ one_le_two hexp)

/-- `ATAN` of a finite argument is within 2^-52 of the arctangent (`ATAN_ACC` with `ATAN_RANGE`). -/
theorem atan_near (s : Bool) (m : Fin infMag) :
    Near (atan (.fin s m)) (Real.arctan ((value (.fin s m) : ℚ) : ℝ)) (1 / 2 ^ 52) := by
  obtain ⟨t, n, hval, hacc⟩ := Config.atan.acc s m
  have hrange := Config.atan.range.1 (.fin s m) (by simp)
  rw [hval, F64.abs, le_fin_iff, toUnits_fin, toUnits_fin, ← signed_le_iff] at hrange
  have hn : n.val ≤ atanBound.val := Int.ofNat_le.1 hrange
  rw [atan, hval]
  exact ⟨rfl, hacc.trans (ulpAt_le hn)⟩

theorem near_atan {x : F64} {a d : ℝ} (hx : Near x a d) : Near (atan x) (Real.arctan a) (d + 1 / 2 ^ 52) := by
  obtain ⟨hfin, herr⟩ := hx
  cases x with
  | nan => cases hfin
  | inf s => cases hfin
  | fin s m =>
    obtain ⟨hfin', hnear⟩ := atan_near s m
    have hmove := abs_arctan_sub_arctan_le ((value (.fin s m) : ℚ) : ℝ) a
    refine ⟨hfin', (abs_sub_le _ (Real.arctan ((value (.fin s m) : ℚ) : ℝ)) _).trans ?_⟩
    rw [add_comm d]
    exact add_le_add hnear (hmove.trans herr)

end Sys2Proof.Machine
end

section
/-! The demodulators (spec/42_demod.md R140 to R145): what `FMD.STEP` and `AMD.STEP` compute, the named properties of
`ATAN`, and the deviation of a carrier that the discriminator recovers. -/

namespace Sys2Proof.Machine

open Sys2Proof

/-- Settles O33: a configuration's arctangent carries the six properties, the bound being the pattern of pi/2 and the unit
in the last place the distance to the next code. -/
theorem atanNamedProperties : Obligations.AtanNamedProperties := by
  have hbound : F64.fin false atanBound = .ofBits 0x3FF921FB54442D18 := by decide +kernel
  obtain ⟨hzero, hzero'⟩ := Config.atan.zero
  obtain ⟨hrange, hinf⟩ := Config.atan.range
  refine ⟨hzero, hzero', Config.atan.odd, Config.atan.mono, hbound ▸ hrange, hbound ▸ hinf, Config.atan.nan, fun s m => ?_⟩
  obtain ⟨t, n, hval, hacc⟩ := Config.atan.acc s m
  refine ⟨t, n, hval, hacc.trans_eq ?_⟩
  rw [ulpAt]
  push_cast
  rfl

/-- Settles O35: the operands are taken by the common order of checks, and the envelope of R145 is appended. -/
theorem amdStepResult : Obligations.AmdStepResult :=
  ⟨rfl, fun s wi wq _ hf hd =>
    show execAmdStep s = _ from command_runs .amdStep (ws := [wi, wq]) hf rfl hd rfl _⟩

/-- Settles O32: the operands are taken by the common order of checks, and the angle of R141 is appended. -/
theorem fmdStepResult : Obligations.FmdStepResult :=
  ⟨rfl, fun s wi wq _ hf hd =>
    show execFmdStep s = _ from command_runs .fmdStep (ws := [wi, wq]) hf rfl hd rfl _⟩

/-! ### The discriminator on a carrier (R144) -/

/-- On the range of R144 the denominator stays away from zero. -/
theorem cos_ge_of_abs_le {θ : ℝ} (hθ : |θ| ≤ 157 / 100) : 1 / 2000 ≤ Real.cos θ := by
  have hpi := Real.pi_gt_d6
  have hjordan := Real.one_sub_mul_le_cos (abs_nonneg θ) (by linarith)
  rw [Real.cos_abs] at hjordan
  have hslope : 2 / Real.pi * |θ| ≤ 1999 / 2000 := by
    rw [div_mul_eq_mul_div, div_le_iff₀ Real.pi_pos]
    linarith
  linarith

/-- A real near a number that is not near zero does not compare equal to zero. -/
theorem feq_zero_of_near {x : F64} {a d : ℝ} (hx : Near x a d) (hda : d < a) : ¬F64.feq x .zero = true := by
  obtain ⟨hfin, herr⟩ := hx
  cases x with
  | nan => cases hfin
  | inf s => cases hfin
  | fin s m =>
    intro h
    have h0 : (F64.fin s m).toUnits = 0 := (feq_fin_iff s false m 0).1 h
    rw [value_cast, h0, Int.cast_zero, zero_div, zero_sub, abs_neg] at herr
    linarith [le_abs_self a]

/-- A product of two parts of the carrier is within 2^-39. -/
theorem near_mul_parts {x y : F64} {a b : ℝ} (hx : Near x a (1 / 2 ^ 52)) (hy : Near y b (1 / 2 ^ 52)) (ha : |a| ≤ 1)
    (hb : |b| ≤ 1) : Near (x.mul y) (a * b) (1 / 2 ^ 39) :=
  (near_mul hx hy (by linarith) (by linarith) (by norm_num) (by norm_num)).mono (by norm_num)

section

variable {prevI prevQ i q : F64} {φ ψ : ℝ}

/-- The real part of the product with the conjugate is near the cosine of the deviation. -/
theorem near_conjugate_re (hpi : Near prevI (Real.cos φ) (1 / 2 ^ 52)) (hpq : Near prevQ (Real.sin φ) (1 / 2 ^ 52))
    (hi : Near i (Real.cos ψ) (1 / 2 ^ 52)) (hq : Near q (Real.sin ψ) (1 / 2 ^ 52)) :
    Near ((i.mul prevI).add (q.mul prevQ)) (Real.cos (ψ - φ)) (1 / 2 ^ 37) := by
  have hcos := Real.abs_cos_le_one (ψ - φ)
  rw [Real.cos_sub] at hcos ⊢
  exact (near_add (near_mul_parts hi hpi (Real.abs_cos_le_one ψ) (Real.abs_cos_le_one φ))
    (near_mul_parts hq hpq (Real.abs_sin_le_one ψ) (Real.abs_sin_le_one φ)) (by linarith)).mono (by norm_num)

/-- The imaginary part of the product with the conjugate is near the sine of the deviation. -/
theorem near_conjugate_im (hpi : Near prevI (Real.cos φ) (1 / 2 ^ 52)) (hpq : Near prevQ (Real.sin φ) (1 / 2 ^ 52))
    (hi : Near i (Real.cos ψ) (1 / 2 ^ 52)) (hq : Near q (Real.sin ψ) (1 / 2 ^ 52)) :
    Near ((q.mul prevI).sub (i.mul prevQ)) (Real.sin (ψ - φ)) (1 / 2 ^ 37) := by
  have hsin := Real.abs_sin_le_one (ψ - φ)
  rw [Real.sin_sub] at hsin ⊢
  exact (near_sub (near_mul_parts hq hpi (Real.abs_sin_le_one ψ) (Real.abs_cos_le_one φ))
    (near_mul_parts hi hpq (Real.abs_cos_le_one ψ) (Real.abs_sin_le_one φ)) (by linarith)).mono (by norm_num)

/-- With the gain 1.0 the output of the discriminator on a carrier is near the deviation. -/
theorem near_fmdOut (hpi : Near prevI (Real.cos φ) (1 / 2 ^ 52)) (hpq : Near prevQ (Real.sin φ) (1 / 2 ^ 52))
    (hi : Near i (Real.cos ψ) (1 / 2 ^ 52)) (hq : Near q (Real.sin ψ) (1 / 2 ^ 52)) (hdev : |ψ - φ| ≤ 157 / 100) :
    Near (fmdOut atan .one ⟨prevI, prevQ⟩ i q) (ψ - φ) (1 / 1000) := by
  have hre := near_conjugate_re hpi hpq hi hq
  have him := near_conjugate_im hpi hpq hi hq
  generalize ψ - φ = θ at *
  have hcos := cos_ge_of_abs_le hdev
  have hquotient := near_div him hre (Real.abs_sin_le_one θ) (Real.abs_cos_le_one θ) hcos (by norm_num)
  have hangle := near_atan hquotient
  obtain ⟨hlo, hhi⟩ := abs_le.1 hdev
  have hpi2 := Real.pi_gt_d6
  rw [← Real.tan_eq_sin_div_cos, Real.arctan_tan (by linarith) (by linarith)] at hangle
  have hscaled := near_mul hangle near_one (by linarith) (by norm_num) (by norm_num) (by norm_num)
  rw [mul_one] at hscaled
  have hguard := feq_zero_of_near hre (lt_of_lt_of_le (by norm_num) hcos)
  rw [fmdOut, if_neg hguard]
  exact hscaled.mono (by norm_num)

end

/-- Settles O34: the product with the conjugate is near (cos θ, sin θ), its denominator is not near zero, and the quotient,
`ATAN` and the gain each keep the distance small. -/
theorem fmRoundTrip : Obligations.FmRoundTrip := by
  intro s wi wq rest φ θ hf hd hgain hpi hpq hi hq hθ
  refine ⟨fmdOut atan .one s.fmd (F64.ofBits wi) (F64.ofBits wq), ?_, ?_⟩
  · rw [← hgain]
    exact fmdStepResult.2 s wi wq rest hf hd
  · have hout := near_fmdOut hpi hpq hi hq (by rwa [add_sub_cancel_left])
    rwa [add_sub_cancel_left] at hout

end Sys2Proof.Machine
end

section
/-! The automatic gain control in the spec's formulas (spec/43_gain.md R151 to R153): which sample enters the window,
which maximum the window then has, and which gain is applied. -/

namespace Sys2Proof.Machine

open Sys2Proof

/-- Inside the ring the new envelope replaces one entry. -/
theorem ringSet_eq_set (ring : Vector F64 256) {i : Nat} (h : i < 256) (e : F64) : ringSet ring i e = ring.set i e := by
  apply Vector.toList_inj.1
  rw [ringSet_toList, Vector.toList_set]

/-- The rescan of a window of at least one entry starts from the first. -/
theorem ringMax_eq_foldl (ring : Vector F64 256) {n : Nat} (hn : 1 ≤ n) :
    ringMax ring n = ((ring.toList.take n).drop 1).foldl F64.fmax ring[0] := by
  have hpos : 0 < (ring.toList.take n).length := by rw [List.length_take, Vector.length_toList]; omega
  have hcons : ring.toList.take n = ring[0] :: (ring.toList.take n).drop 1 := by
    simpa using List.drop_eq_getElem_cons hpos
  rw [ringMax, hcons]
  rfl

/-- The update of R152 for an index inside the ring, its three branches by the sample against the maximum and the
evicted entry against it. -/
theorem agcUpdate_eq {p : Params} {u : Agc} (e : F64) (h : u.idx < 256) (hn : 1 ≤ p.agcWindow.toNat) :
    agcUpdate p u e =
      let ring := u.ring.set u.idx e
      let idx := (u.idx + 1) % p.agcWindow.toNat
      let m := ((ring.toList.take p.agcWindow.toNat).drop 1).foldl F64.fmax ring[0]
      if F64.lt u.max e = true then ⟨agcGain p e, e, idx, ring⟩
      else if F64.feq u.ring[u.idx] u.max = true then ⟨agcGain p m, m, idx, ring⟩
      else ⟨u.gain, u.max, idx, ring⟩ := by
  have hold : u.ring.toList.getD u.idx .zero = u.ring[u.idx] := by simp [h]
  dsimp only
  rw [← ringMax_eq_foldl _ hn, ← ringSet_eq_set _ h]
  split_ifs with hlt hfeq
  · exact agcUpdate_raised hlt
  · exact agcUpdate_rescanned (Bool.eq_false_iff.2 hlt) (hold ▸ hfeq)
  · exact agcUpdate_kept (Bool.eq_false_iff.2 hlt) (hold ▸ Bool.eq_false_iff.2 hfeq)

/-- Settles O36: the operands are taken by the common order of checks, and a sample that is not accepted leaves AGC. -/
theorem agcStepResult : Obligations.AgcStepResult := by
  intro s wi wq rest h hf hd hn i q e gainFor ring idx m accepted u
  have hu : (if agcAccepts i q = true then agcUpdate s.params s.agc e else s.agc) = u := by
    change (if accepted = true then _ else _) = if accepted = false then _ else _
    rw [agcUpdate_eq e h hn]
    cases accepted <;> rfl
  refine (show execAgcStep s = _ from command_runs .agcStep (ws := [wi, wq]) hf rfl hd rfl _).trans ?_
  rw [← hu]
  rfl

end Sys2Proof.Machine
end

section
/-! The direct gain (spec/43_gain.md R156 to R159): what `DGC.CORRECT` and the two steps do, and every move of the gain
against the bounds of R159. -/

namespace Sys2Proof.Machine

open Sys2Proof

/-- Settles O38: the operand is taken by the common order of checks, and its product with the gain is appended. -/
theorem dgcCorrectResult : Obligations.DgcCorrectResult :=
  ⟨rfl, fun s w _ hf hd => show execDgcCorrect s = _ from command_runs .dgcCorrect (ws := [w]) hf rfl hd rfl _⟩

/-! ### The two steps (R157, R158) -/

theorem not_lt_of_le_F64 {a b : F64} (h : F64.le a b = true) : F64.lt b a = false := by
  unfold F64.le at h
  unfold F64.lt
  cases ha : a.key <;> cases hb : b.key <;> simp_all

theorem fmin_of_le {a b : F64} (h : F64.le b a = true) : F64.fmin a b = b := by
  rw [F64.fmin, not_lt_of_le_F64 h, if_neg Bool.false_ne_true]

theorem fmax_of_le {a b : F64} (h : F64.le a b = true) : F64.fmax a b = b := by
  rw [F64.fmax, not_lt_of_le_F64 h, if_neg Bool.false_ne_true]

/-- `increase()` from a gain at or above the maximum ends at the maximum. -/
theorem dgcIncrease_of_max_le {p : Params} (hp : p.Legal) {u : Dgc} (hu : legalPositive u.gain = true)
    (h : F64.le p.dgcMax u.gain = true) : (dgcIncrease p u).gain = p.dgcMax :=
  fmin_of_le (le_trans_F64 h (le_add_of_legalPositive hu hp.dgcStep))

/-- `decrease()` from a gain at or below the minimum ends at the minimum. -/
theorem dgcDecrease_of_le_min {p : Params} (hp : p.Legal) {u : Dgc} (hu : legalPositive u.gain = true)
    (h : F64.le u.gain p.dgcMin = true) : (dgcDecrease p u).gain = p.dgcMin :=
  fmax_of_le (le_trans_F64 (sub_le_of_legalPositive hu hp.dgcStep) h)

theorem exec_dgcInc {s : State} (hf : s.status.fault = false) :
    exec .dgcInc s = .next { s with cmd := s.cmd.tail, dgc := dgcIncrease s.params s.dgc } :=
  show execDgcInc s = _ from command_runs .dgcInc (ws := []) hf rfl rfl rfl _

theorem exec_dgcDec {s : State} (hf : s.status.fault = false) :
    exec .dgcDec s = .next { s with cmd := s.cmd.tail, dgc := dgcDecrease s.params s.dgc } :=
  show execDgcDec s = _ from command_runs .dgcDec (ws := []) hf rfl rfl rfl _

/-! ### Every move of the direct gain -/

/-- The moves of the direct gain: it stays, takes one step up or down, or is reset (R157, R158, R200, R262). -/
inductive DgcMove (p : Params) (u : Dgc) : Dgc → Prop where
  | kept : DgcMove p u u
  | increased : DgcMove p u (dgcIncrease p u)
  | decreased : DgcMove p u (dgcDecrease p u)
  | restarted : DgcMove p u (.reset p)

/-- Every move but a reset keeps a gain between the bounds there, and under the relation of R41 a reset puts it
there. -/
theorem DgcMove.in_bounds {p : Params} {u v : Dgc} (h : DgcMove p u v) (hp : p.Legal) (ho : p.DgcOrdered)
    (hu : legalPositive u.gain = true) (hmin : F64.le p.dgcMin u.gain = true) (hmax : F64.le u.gain p.dgcMax = true) :
    F64.le p.dgcMin v.gain = true ∧ F64.le v.gain p.dgcMax = true := by
  obtain ⟨hinit, hinit'⟩ := ho
  have hb : F64.le p.dgcMin p.dgcMax = true := le_trans_F64 hinit hinit'
  cases h with
  | kept => exact ⟨hmin, hmax⟩
  | increased => exact ⟨min_le_dgcIncrease hp hu hb hmin, dgcIncrease_le_max hp u⟩
  | decreased => exact ⟨min_le_dgcDecrease hp u, dgcDecrease_le_max hp hu hb hmax⟩
  | restarted => exact ⟨hinit, hinit'⟩

theorem synGainStep_dgcMove (p : Params) (sp : F64) (u : Dgc) : DgcMove p u (synGainStep p sp u) := by
  unfold synGainStep
  split
  · exact .increased
  · split
    · exact .decreased
    · exact .kept

theorem synIntake_params_dgc (s : State) (x : F64) :
    (synIntake s x).params = s.params ∧ (synIntake s x).dgc = s.dgc := by
  unfold synIntake synTrackerReset
  dsimp only
  split <;> exact ⟨rfl, rfl⟩

theorem synStepWith_dgcMove (tp : Taps) (s : State) (x : F64) : DgcMove s.params s.dgc (synStepWith tp s x).dgc := by
  obtain ⟨hparams, hdgc⟩ := synIntake_params_dgc s x
  unfold synStepWith
  split
  · rw [synSymbolStep, State.doutReal_dgc, hparams, hdgc]
    exact synGainStep_dgcMove ..
  · rw [hdgc]
    exact .kept

theorem resetUnit_dgcMove (s : State) (u : Nat) : DgcMove s.params s.dgc (s.resetUnit u).dgc := by
  unfold State.resetUnit
  split
  case h_5 => exact .restarted
  all_goals exact .kept

/-- A command moves the gain as its transition does. -/
theorem command_dgcMove {i : Instr} {s t : State} {body : State → List Word64 → Result} (h : command i s body = .next t)
    (hb : ∀ s₁ d, body s₁ d = .next t → DgcMove s₁.params s₁.dgc t.dgc) : DgcMove s.params s.dgc t.dgc := by
  rcases command_next h with rfl | ⟨c, -, rfl⟩ | rfl | ⟨-, hrun⟩
  · exact .kept
  · rw [State.raiseFault_dgc]
    exact .kept
  · exact .kept
  · exact hb (s.consume _) _ hrun

/-- Every operation moves the gain in one of the four ways. -/
theorem exec_dgcMove {i : Instr} {s t : State} (h : exec i s = .next t) : DgcMove s.params s.dgc t.dgc := by
  by_cases hi : i = .rstall
  · subst hi
    cases h
    exact .restarted
  · obtain ⟨s₁, htaken, heff⟩ := exec_effect h hi
    rw [htaken.frame] at heff
    rcases heff.dgc with e | rfl | rfl | rfl | rfl
    · rw [e]
      exact .kept
    · refine command_dgcMove (show execDgcInc s = .next t from h) fun s₁ d hb => ?_
      cases hb
      exact .increased
    · refine command_dgcMove (show execDgcDec s = .next t from h) fun s₁ d hb => ?_
      cases hb
      exact .decreased
    · refine command_dgcMove (show execSynStep s = .next t from h) fun s₁ d hb => ?_
      cases hb
      exact synStepWith_dgcMove ..
    · refine command_dgcMove (show execRstu 7 s = .next t from h) fun s₁ d hb => ?_
      cases hb
      exact resetUnit_dgcMove ..

/-! ### The interval of R159 -/

/-- After a reset the gain is `P.DGC_INIT`, between the bounds under the relation of R41. -/
theorem gainInBounds_of_reset {s : State} (ho : s.params.DgcOrdered) (h : s.dgc = .reset s.params) :
    s.GainInBounds := by
  rw [State.GainInBounds, h]
  exact ho

theorem default_dgcOrdered : Params.default.DgcOrdered := by
  unfold Params.DgcOrdered
  decide +kernel

/-- A gain between the bounds stays there under every operation that leaves the bounds. -/
theorem exec_keeps_gainInBounds {i : Instr} {s t : State} (hp : s.params.Legal) (ho : s.params.DgcOrdered)
    (hu : legalPositive s.dgc.gain = true) (hg : s.GainInBounds) (h : exec i s = .next t)
    (hmin : t.params.dgcMin = s.params.dgcMin) (hmax : t.params.dgcMax = s.params.dgcMax) : t.GainInBounds := by
  obtain ⟨hlow, hhigh⟩ := hg
  rw [State.GainInBounds, hmin, hmax]
  exact (exec_dgcMove h).in_bounds hp ho hu hlow hhigh

/-- Settles O39: the steps by their formulas, and the interval by what each move of the gain does to it. -/
theorem dgcStepsSaturate : Obligations.DgcStepsSaturate := by
  refine ⟨rfl, rfl, fun s hf => ⟨exec_dgcInc hf, exec_dgcDec hf⟩, fun s t hf hp hu => ⟨fun h hle => ?maximum,
    fun h heq => ?minimum⟩, fun s t hf hp hu hb => ⟨fun h hle => ?up, fun h hle => ?down⟩,
    fun i s t hp ho hu hg h hmin hmax => exec_keeps_gainInBounds hp ho hu hg h hmin hmax,
    fun s t ho => ⟨fun h => ?rstall, fun hf h => ?rstu⟩, default_dgcOrdered,
    gainInBounds_of_reset default_dgcOrdered rfl⟩
  case maximum =>
    cases (exec_dgcInc hf).symm.trans h
    exact dgcIncrease_of_max_le hp hu hle
  case minimum =>
    cases (exec_dgcDec hf).symm.trans h
    exact dgcDecrease_of_le_min hp hu (heq ▸ le_refl_of_legalPositive hu)
  case up =>
    cases (exec_dgcInc hf).symm.trans h
    exact ⟨min_le_dgcIncrease hp hu hb hle, dgcIncrease_le_max hp s.dgc⟩
  case down =>
    cases (exec_dgcDec hf).symm.trans h
    exact ⟨min_le_dgcDecrease hp s.dgc, dgcDecrease_le_max hp hu hb hle⟩
  case rstall =>
    cases (exec_rstall s).symm.trans h
    exact gainInBounds_of_reset ho rfl
  case rstu =>
    cases (exec_rstu hf (by decide)).symm.trans h
    exact gainInBounds_of_reset ho rfl

end Sys2Proof.Machine
end

section
/-! The interpolator (spec/44_interp.md R171 to R176): a row of the table against a window, the row given by `ARG` or by
the phase `mu`. -/

namespace Sys2Proof.Machine

open Sys2Proof

/-- The row an `ARG` inside the table names. -/
theorem rowIndex_of_lt {k : Nat} (hk : k < 129) : rowIndex k = ⟨k, hk⟩ :=
  Fin.ext (min_eq_left (Nat.le_of_lt_succ hk))

/-- The dot product of R171 written out, oldest sample first. -/
theorem interp_eq (t : Taps) (w : Vector F64 8) {k : Nat} (hk : k < 129) : interp t w k =
    let row := t ⟨k, hk⟩
    ((((((((row 0).mul w[0]).add ((row 1).mul w[1])).add ((row 2).mul w[2])).add ((row 3).mul w[3])).add
      ((row 4).mul w[4])).add ((row 5).mul w[5])).add ((row 6).mul w[6])).add ((row 7).mul w[7]) := by
  rw [interp, rowIndex_of_lt hk]
  rfl

theorem argFault_fir {k : Arg} (hk : k.toNat < 129) : argFault (.intFir k) = none ∧ argFault (.intFirc k) = none :=
  have h : ¬k.toNat > 128 := by omega
  ⟨if_neg h, if_neg h⟩

/-- Settles O40: the operands are taken by the common order of checks, and the sum is that of R171. -/
theorem intFirResult : Obligations.IntFirResult := by
  unfold Obligations.IntFirResult
  intro fir
  refine ⟨fun s k hk a b c d e f g h rest hf hd => ?real,
    fun s k hk a b c d e f g h a' b' c' d' e' f' g' h' rest hf hd => ?complex⟩
  case real =>
    refine (show execIntFir k s = _ from
      command_runs (.intFir k) (ws := [a, b, c, d, e, f, g, h]) hf (argFault_fir hk).1 hd rfl _).trans ?_
    rw [interp_eq taps _ hk]
    simp only [dinWindow, Vector.getElem_ofFn]
    rfl
  case complex =>
    refine (show execIntFirc k s = _ from
      command_runs (.intFirc k) (ws := [a, a', b, b', c, c', d, d', e, e', f, f', g, g', h, h']) hf (argFault_fir hk).2
        hd rfl _).trans ?_
    rw [interp_eq taps _ hk, interp_eq taps _ hk, State.doutReals_pair]
    simp only [dinWindowI, dinWindowQ, Vector.getElem_ofFn]
    rfl

/-- A transition that asks for `mu` in range is made where it is (R175). -/
theorem runs_of_mu_inside {mu : F64} (hmu : F64.le .zero mu = true ∧ F64.lt mu .one = true) (r r' : Result) :
    (if muInRange mu then r else r') = r :=
  if_pos (by rwa [muInRange, Bool.and_eq_true])

/-- Settles O41: the operands are taken by the common order of checks, and the row is that of the last, `mu`. -/
theorem intFirmuResult : Obligations.IntFirmuResult := by
  unfold Obligations.IntFirmuResult
  intro row inRange
  refine ⟨fun s ws rest hf hd hn hmu => ?real, fun s ws rest hf hd hn hmu => ?complex⟩
  case real =>
    exact (show execIntFirmu s = _ from command_runs .intFirmu hf rfl hd hn _).trans (runs_of_mu_inside hmu _ _)
  case complex =>
    exact (show execIntFirmuc s = _ from command_runs .intFirmuc hf rfl hd hn _).trans (runs_of_mu_inside hmu _ _)

end Sys2Proof.Machine
end

section
/-! The resampler (spec/44_interp.md R181, R182): its positions grow by at least 2^-8, so at most 256 of them lie below
1.0, and the output loop emits at exactly these. -/

namespace Sys2Proof.Machine

open Sys2Proof

/-! ### The positions of one push (R181 (a)) -/

/-- What a finite real is not above is infinite, or a finite real of at least its value. -/
theorem eq_inf_or_fin_of_le {a : F64} {s : Bool} {m : Fin infMag} (h : F64.le (.fin s m) a = true) :
    a = .inf false ∨ ∃ t n, a = .fin t n ∧ (F64.fin s m).toUnits ≤ (F64.fin t n).toUnits := by
  cases a with
  | nan => exact absurd rfl (ne_nan_of_le h).2
  | inf t =>
    obtain ⟨-, hle, -⟩ := finite_against_inf s t m
    rw [hle, Bool.not_eq_true'] at h
    exact .inl (congrArg _ h)
  | fin t n => exact .inr ⟨t, n, rfl, (le_fin_iff s t m n).1 h⟩

theorem le_inf (s : Bool) (m : Fin infMag) : F64.le (.fin s m) (.inf false) = true := by
  obtain ⟨-, hle, -⟩ := finite_against_inf s false m
  exact hle

/-- A sum of finite reals is at least any code whose value the exact sum reaches: rounding keeps to its side. -/
theorem le_add_fin {s t : Bool} {m n c : Fin infMag}
    (h : (F64.units c : Int) ≤ (F64.fin s m).toUnits + (F64.fin t n).toUnits) :
    F64.le (.fin false c) ((F64.fin s m).add (.fin t n)) = true := by
  unfold F64.add
  dsimp only
  generalize (F64.fin s m).toUnits + (F64.fin t n).toUnits = v at h ⊢
  split_ifs with h0
  · rw [le_fin_iff, toUnits_fin, toUnits_fin, show F64.units (0 : Fin infMag) = 0 from rfl]
    cases (s && t) <;> simp only [signed, Bool.false_eq_true, if_true, if_false] <;> omega
  · have hcode : c ≤ F64.roundMag v.natAbs 1 := le_roundMag (by omega)
    rw [decide_eq_false (by omega), F64.roundUnits, F64.ofMag]
    split
    · simpa [F64.le, F64.key] using hcode
    · exact le_inf false c

/-- A sum is at least any code whose value its operands' lower bounds add up to. -/
theorem le_add_of_le {a b : F64} {s t : Bool} {m n c : Fin infMag} (ha : F64.le (.fin s m) a = true)
    (hb : F64.le (.fin t n) b = true)
    (hc : (F64.units c : Int) ≤ (F64.fin s m).toUnits + (F64.fin t n).toUnits) :
    F64.le (.fin false c) (a.add b) = true := by
  rcases eq_inf_or_fin_of_le ha with rfl | ⟨s', m', rfl, hm⟩ <;>
    rcases eq_inf_or_fin_of_le hb with rfl | ⟨t', n', rfl, hn⟩
  · exact le_inf false c
  · exact le_inf false c
  · exact le_inf false c
  · exact le_add_fin (by omega)

/-- A multiple of 2^-8 is a real exactly. -/
theorem exists_lit_256_eq {n : Nat} (hn : n < 2 ^ 53) :
    ∃ c : Fin infMag, F64.lit n 256 = .fin false c ∧ F64.units c * 256 = n * 2 ^ 1074 := by
  obtain ⟨c, hc⟩ := exists_units_mul_two_pow hn (show 8 ≤ 1022 by norm_num)
  exact ⟨c, roundUnits_of_eq _ (by norm_num) hc, hc⟩

/-- A step of at least 2^-8 takes a position to the next multiple of 2^-8, or beyond. -/
theorem le_add_rsStep {k : Nat} (hk : k < 256) {p step : F64} (hp : F64.le (.lit k 256) p = true)
    (hs : F64.le (.lit 1 256) step = true) : F64.le (.lit (k + 1) 256) (p.add step) = true := by
  obtain ⟨m, hm, hmu⟩ := exists_lit_256_eq (n := k) (by omega)
  obtain ⟨n, hn, hnu⟩ := exists_lit_256_eq (n := 1) (by norm_num)
  obtain ⟨c, hc, hcu⟩ := exists_lit_256_eq (n := k + 1) (by omega)
  have hsum : F64.units c = F64.units m + F64.units n := by omega
  rw [hm] at hp
  rw [hn] at hs
  rw [hc]
  refine le_add_of_le hp hs ?_
  rw [toUnits_fin, toUnits_fin, hsum]
  exact le_rfl

/-- The position after `k` outputs (R181). -/
def positionAfter (step pos : F64) (k : Nat) : F64 := (fun p => p.add step)^[k] pos

theorem positionAfter_succ (step pos : F64) (k : Nat) :
    positionAfter step pos (k + 1) = (positionAfter step pos k).add step := Function.iterate_succ_apply' ..

theorem positionAfter_add_step (step pos : F64) (k : Nat) :
    positionAfter step (pos.add step) k = positionAfter step pos (k + 1) := rfl

/-- After `k` outputs the position is at least `k` times 2^-8. -/
theorem le_positionAfter {step pos : F64} (hs : F64.le (.lit 1 256) step = true) (hp : F64.le .zero pos = true)
    {k : Nat} (hk : k ≤ 256) : F64.le (.lit k 256) (positionAfter step pos k) = true := by
  induction k with
  | zero => rwa [show F64.lit 0 256 = .zero by decide +kernel]
  | succ k ih =>
    rw [positionAfter_succ]
    exact le_add_rsStep hk (ih (by omega)) hs

theorem le_zero_positionAfter {step pos : F64} (hs : F64.le .zero step = true) (hp : F64.le .zero pos = true) (k : Nat) :
    F64.le .zero (positionAfter step pos k) = true := by
  induction k with
  | zero => exact hp
  | succ k ih =>
    rw [positionAfter_succ]
    exact le_zero_add ih hs

/-- `m` outputs bring the position to 1.0, and fewer do not. -/
structure OutputCount (step pos : F64) (m : Nat) : Prop where
  below : ∀ k < m, F64.lt (positionAfter step pos k) .one = true
  reached : F64.lt (positionAfter step pos m) .one = false

theorem legalRsStep_bounds {step : F64} (h : legalRsStep step = true) :
    F64.le (.lit 1 256) step = true ∧ F64.le .zero step = true := by
  simp only [legalRsStep, Bool.and_eq_true] at h
  obtain ⟨⟨-, hlow⟩, -⟩ := h
  exact ⟨hlow, le_trans_F64 (le_zero_roundUnits _ _) hlow⟩

/-- At most 256 outputs bring the position to 1.0 (R181 (a)). -/
theorem exists_outputCount {step pos : F64} (hs : legalRsStep step = true) (hp : F64.le .zero pos = true) :
    ∃ m ≤ 256, OutputCount step pos m := by
  have h256 : F64.lt (positionAfter step pos 256) .one = false := by
    have h := le_positionAfter (legalRsStep_bounds hs).1 hp le_rfl
    rw [show F64.lit 256 256 = .one by decide +kernel] at h
    exact not_lt_of_le_F64 h
  have hex : ∃ k, F64.lt (positionAfter step pos k) .one = false := ⟨256, h256⟩
  exact ⟨Nat.find hex, Nat.find_min' hex h256, fun k hk => by simpa using Nat.find_min hex hk, Nat.find_spec hex⟩

/-- The position left is not negative (R181 (b)). -/
theorem OutputCount.le_zero_rest {step pos : F64} {m : Nat} (h : OutputCount step pos m)
    (hs : legalRsStep step = true) (hp : F64.le .zero pos = true) :
    F64.le .zero ((positionAfter step pos m).sub .one) = true := by
  have hnan := (ne_nan_of_le (le_zero_positionAfter (legalRsStep_bounds hs).2 hp m)).2
  have hone : F64.le .one (positionAfter step pos m) = true :=
    le_of_not_lt_F64 hnan (by rw [one_eq_fin]; nofun) h.reached
  rw [one_eq_fin] at hone ⊢
  exact le_zero_sub hone

/-! ### The output loop -/

/-- With fuel for all its outputs, the loop emits at every position below 1.0 and ends at the first that is not. -/
theorem resampleLoop_eq (t : Taps) (ws : List (Vector F64 8)) {step pos : F64} {m fuel : Nat}
    (h : OutputCount step pos m) (hm : m ≤ fuel) : resampleLoop t ws step fuel pos =
      some ((List.range m).flatMap fun k => outputsAt t ws (positionAfter step pos k), positionAfter step pos m) := by
  induction m generalizing pos fuel with
  | zero =>
    have hdone : F64.lt pos .one = false := h.reached
    cases fuel <;> simp [resampleLoop, hdone, positionAfter]
  | succ m ih =>
    obtain ⟨fuel, rfl⟩ : ∃ n, fuel = n + 1 := ⟨fuel - 1, by omega⟩
    have hgo : F64.lt pos .one = true := h.below 0 (Nat.succ_pos m)
    have hrest : OutputCount step (pos.add step) m := ⟨fun k hk => h.below (k + 1) (by omega), h.reached⟩
    rw [resampleLoop, if_pos hgo, ih hrest (by omega), List.range_succ_eq_map, List.flatMap_cons, List.flatMap_map]
    rfl

/-- A push emits the outputs of its positions below 1.0 and leaves the first other one, less 1.0. -/
theorem resample_eq (t : Taps) (s : State) (ws : List (Vector F64 8)) {m : Nat}
    (h : OutputCount s.params.rsStep s.rsm.pos m) (hm : m ≤ 256) :
    let pos := positionAfter s.params.rsStep s.rsm.pos
    resample t s ws = .next ({ s with rsm := { s.rsm with pos := (pos m).sub .one } }.doutReals
      ((List.range m).flatMap fun k => outputsAt t ws (pos k))) := by
  rw [resample, resampleLoop_eq t ws h hm]

/-! ### The two operations -/

/-- Settles O43: the operand is taken by the common order of checks, and the loop ends within 256 outputs. -/
theorem rsmPushResult : Obligations.RsmPushResult := by
  intro s w rest hf hd hs hp x wI pos
  obtain ⟨m, hm, h⟩ := exists_outputCount hs hp
  refine ⟨m, hm, h.below, h.reached, h.le_zero_rest hs hp, ?_⟩
  refine (show execRsmPush s = _ from command_runs .rsmPush (ws := [w]) hf rfl hd rfl _).trans ?_
  let s' : State := { s with cmd := s.cmd.tail, din := rest, rsm := { s.rsm with wI := wI } }
  refine (resample_eq taps (s'.noteNonfinite (!x.isFinite)) [wI] h hm).trans ?_
  rw [List.map_eq_flatMap]
  rfl

/-- Settles O44: as `RSM.PUSH`, with one output of each window at every position. -/
theorem rsmPushcResult : Obligations.RsmPushcResult := by
  intro s wi wq rest hf hd hs hp i q wI wQ pos
  obtain ⟨m, hm, h⟩ := exists_outputCount hs hp
  refine ⟨m, hm, h.below, h.reached, h.le_zero_rest hs hp, ?_⟩
  refine (show execRsmPushc s = _ from command_runs .rsmPushc (ws := [wi, wq]) hf rfl hd rfl _).trans ?_
  let s' : State := { s with cmd := s.cmd.tail, din := rest, rsm := { s.rsm with wI := wI, wQ := wQ } }
  exact resample_eq taps (s'.noteNonfinite (!i.isFinite || !q.isFinite)) [wI, wQ] h hm

end Sys2Proof.Machine
end

section
/-! No operation stops the model in a state that meets the invariants, and every turn that is asked for takes a word, so
runs end (spec/44_interp.md R181 (a); spec/60_exceptions.md R234, R239; spec/70_reset_and_hazards.md R277). -/

namespace Sys2Proof.Machine

open Sys2Proof

/-! ### Nothing stops a turn -/

/-- The answer is a next state. -/
def Answers (r : Result) : Prop := ∃ t, r = .next t

theorem answers_next (t : State) : Answers (.next t) := ⟨t, rfl⟩

theorem answers_ite {c : Prop} [Decidable c] {r r' : Result} (h : Answers r) (h' : Answers r') :
    Answers (if c then r else r') := by
  split
  · exact h
  · exact h'

/-- A command answers where its transition does. -/
theorem command_answers (i : Instr) (s : State) {body : State → List Word64 → Result}
    (hb : ∀ d, Answers (body (s.consume (dinWords i)) d)) : Answers (command i s body) := by
  rcases command_cases i s body with ⟨-, e⟩ | ⟨-, c, -, e⟩ | ⟨-, e⟩ | ⟨-, e⟩ <;> rw [e]
  · exact answers_next _
  · exact answers_next _
  · exact answers_next _
  · exact hb _

theorem notification_answers (s : State) (body : State → Word64 → State) : Answers (notification s body) := by
  rcases notification_cases s body with ⟨-, e⟩ | ⟨-, -, -, -, e⟩ | ⟨n, -, -, -, e⟩ <;> exact ⟨_, e⟩

theorem readOut_answers (i : Instr) (v : Option RegValue) (s : State) : Answers (readOut i v s) := by
  rcases readOut_cases i v s with ⟨-, e⟩ | ⟨x, -, e⟩ <;> exact ⟨_, e⟩

/-- The one stop of the model needs a step that is not legal or a negative position (R181 (a)). -/
theorem resample_answers (tp : Taps) {s : State} (ws : List (Vector F64 8)) (hs : legalRsStep s.params.rsStep = true)
    (hp : F64.le .zero s.rsm.pos = true) : Answers (resample tp s ws) := by
  obtain ⟨m, hm, h⟩ := exists_outputCount hs hp
  exact ⟨_, resample_eq tp s ws h hm⟩

theorem exec_answers (i : Instr) {s : State} (h : Inv s) : Answers (exec i s) := by
  cases i <;> unfold exec
  case nop | rstall => exact answers_next _
  case rdp | rds => exact readOut_answers ..
  case synAck | synRate => exact notification_answers ..
  case wrp =>
    refine command_answers _ s fun d => ?_
    split <;> exact answers_next _
  case intFirmu | intFirmuc => exact command_answers _ s fun d => answers_ite (answers_next _) (answers_next _)
  case rsmPush | rsmPushc => exact command_answers _ s fun d => resample_answers taps _ h.params.rsStep h.position
  all_goals exact command_answers _ s fun d => answers_next _

theorem stepCommand_answers {s : State} (h : Inv s) : Answers (stepCommand s) := by
  unfold stepCommand
  split
  · exact answers_next _
  · split
    · exact exec_answers _ h
    · exact answers_next _

theorem stepNotification_answers {s : State} (h : Inv s) : Answers (stepNotification s) := by
  unfold stepNotification
  split
  · exact answers_next _
  · split
    · exact exec_answers _ h
    · exact answers_next _

theorem step_answers {s : State} (h : Inv s) : Answers (step s) := by
  rcases step_cases s with e | e | ⟨-, -, e⟩ <;> rw [e]
  · exact stepCommand_answers h
  · exact stepNotification_answers h
  · have h' : Inv { s with boundary := s.boundary + 1 } := { h with }
    cases Config.arbiter s.boundary with
    | command => exact stepCommand_answers h'
    | notification => exact stepNotification_answers h'

/-! ### Every turn takes a word -/

/-- A command agent that can move has an illegal word at its head, or an operation of CMD that does not hold. -/
theorem commandReady_cases {s : State} (h : s.commandReady = true) : ∃ w ws, s.cmd = w :: ws ∧
    ((∃ e, decode .cmd w = .error e) ∨ ∃ i, decode .cmd w = .ok i ∧ i.port = .cmd ∧ s.holds i = false) := by
  cases hc : s.cmd with
  | nil => rw [commandReady_of_empty hc] at h; cases h
  | cons w ws =>
    refine ⟨w, ws, rfl, ?_⟩
    cases hd : decode .cmd w with
    | error e => exact .inl ⟨e, rfl⟩
    | ok i =>
      obtain ⟨-, -, hport, -⟩ := decode_eq_ok_iff.1 hd
      rw [commandReady_of_decode hc hd, Bool.not_eq_true'] at h
      exact .inr ⟨i, rfl, hport, h⟩

/-- The turn of a command agent that can move takes the head of CMD and leaves NTF. -/
theorem stepCommand_takes {s t : State} (hr : s.commandReady = true) (h : stepCommand s = .next t) :
    t.cmd = s.cmd.tail ∧ t.ntf = s.ntf := by
  obtain ⟨w, ws, hc, ⟨e, hd⟩ | ⟨i, hd, hport, hh⟩⟩ := commandReady_cases hr
  · have hrun : stepCommand s = .next (s.retire.raiseFault .illegalOp w) := by simp [stepCommand, hc, hd]
    cases hrun.symm.trans h
    simp
  · rw [stepCommand_of_decode hc hd] at h
    obtain ⟨-, -, -, -, -, -, hntf, -⟩ := queuesMoveInOrder i s t h
    exact ⟨exec_takes hport hh h, hntf hport⟩

/-- A notification takes its entry, run or discarded. -/
theorem notification_takes {s t : State} {body : State → Word64 → State} (hb : ∀ s w, (body s w).ntf = s.ntf)
    (h : notification s body = .next t) : t.ntf = s.ntf.tail := by
  rcases notification_cases s body with ⟨hn, e⟩ | ⟨-, -, -, -, e⟩ | ⟨n, -, -, -, e⟩ <;> rw [e] at h <;> cases h
  · rw [hn, List.tail_nil]
  · rfl
  · exact hb _ _

theorem exec_ntf_takes {i : Instr} {s t : State} (hp : i.port = .ntf) (h : exec i s = .next t) :
    t.ntf = s.ntf.tail := by
  cases i <;> try cases hp
  case synAck => exact notification_takes (by intros; rfl) (show execSynAck s = .next t from h)
  case synRate => exact notification_takes (by intros; rfl) (show execSynRate s = .next t from h)

/-- The turn of the notification agent takes the head of NTF and leaves CMD. -/
theorem stepNotification_takes {s t : State} (h : stepNotification s = .next t) :
    t.cmd = s.cmd ∧ t.ntf = s.ntf.tail := by
  cases hn : s.ntf with
  | nil =>
    rw [stepNotification, hn] at h
    cases h
    exact ⟨rfl, hn⟩
  | cons n ns =>
    cases hd : decode .ntf n.word with
    | error e =>
      have hrun : stepNotification s = .next (s.dropNtf.raiseFault .illegalOp n.word) := by
        simp [stepNotification, hn, hd]
      cases hrun.symm.trans h
      simp [hn]
    | ok j =>
      obtain ⟨-, -, hport, -⟩ := decode_eq_ok_iff.1 hd
      rw [stepNotification_of_decode hn hd] at h
      obtain ⟨-, -, -, -, -, -, -, hcmd⟩ := queuesMoveInOrder j s t h
      exact ⟨(hcmd hport).1, hn ▸ exec_ntf_takes hport h⟩

/-- The words on CMD and the entries on NTF. -/
def State.queued (s : State) : Nat := s.cmd.length + s.ntf.length

theorem cmd_pos_of_commandReady {s : State} (h : s.commandReady = true) : 0 < s.cmd.length := by
  obtain ⟨w, ws, hc, -⟩ := commandReady_cases h
  simp [hc]

/-- The turn of a command agent that can move leaves fewer words on CMD. -/
theorem stepCommand_length_lt {s t : State} (hr : s.commandReady = true) (h : stepCommand s = .next t) :
    t.cmd.length < s.cmd.length := by
  have hpos := cmd_pos_of_commandReady hr
  rw [(stepCommand_takes hr h).1, List.length_tail]
  omega

/-- A step before the end of a run takes a word from CMD or an entry from NTF. -/
theorem step_queued_lt {s t : State} (hr : s.commandReady = true) (h : step s = .next t) : t.queued < s.queued := by
  have hcommand {s : State} (hr : s.commandReady = true) (h : stepCommand s = .next t) : t.queued < s.queued := by
    have hlt := stepCommand_length_lt hr h
    rw [State.queued, State.queued, (stepCommand_takes hr h).2]
    omega
  by_cases hn : s.ntf = []
  · exact hcommand hr (step_of_ntf_empty hn ▸ h)
  · rcases step_of_contested hn hr with e | e <;> rw [e] at h
    · exact hcommand (s := { s with boundary := s.boundary + 1 }) hr h
    · obtain ⟨hcmd, hntf⟩ := stepNotification_takes h
      have hpos := List.length_pos_iff.2 hn
      rw [State.queued, State.queued, hcmd, hntf, List.length_tail]
      dsimp only
      omega

/-! ### Runs end (R277) -/

/-- The turns of a run, each of which keeps the invariants and none of which stops, end in a state that meets them. -/
theorem turns_inv {more : State → Bool} {turn : State → Result} (ha : ∀ s, Inv s → Answers (turn s))
    (hk : ∀ s t, Inv s → turn s = .next t → Inv t) (n : Nat) {s : State} (h : Inv s) :
    ∃ t, turns more turn n s = .next t ∧ Inv t :=
  turns_answer (fun s hs _ => (ha s hs).imp fun t e => ⟨e, hk s t hs e⟩) n h

/-- The run of the block ends. -/
theorem runToEnd_answers {s : State} (h : Inv s) :
    ∃ t, runToEnd s = .next t ∧ Inv t ∧ t.runEnded = true := by
  obtain ⟨t, hrun, ht⟩ :=
    turns_inv (more := fun t => !t.runEnded) (fun _ => step_answers) stepKeepsTheInvariants s.queued h
  have hready {s : State} (hm : (!s.runEnded) = true) : s.commandReady = true := by simpa [State.runEnded] using hm
  have hend := turns_done (size := State.queued)
    (fun s hm => Nat.add_pos_left (cmd_pos_of_commandReady (hready hm)) _)
    (fun s t hm e => step_queued_lt (hready hm) e) le_rfl hrun
  exact ⟨t, hrun, ht, by simpa using hend⟩

/-- The commands run until CMD is empty or one holds. -/
theorem runCommands_answers {s : State} (h : Inv s) :
    ∃ t, runCommands s = .next t ∧ Inv t ∧ t.runEnded = true := by
  obtain ⟨t, hrun, ht⟩ :=
    turns_inv (more := State.commandReady) (fun _ => stepCommand_answers) (fun _ _ => Inv.stepCommand) s.cmd.length h
  have hend := turns_done (size := fun s => s.cmd.length) (fun s => cmd_pos_of_commandReady)
    (fun s t => stepCommand_length_lt) le_rfl hrun
  exact ⟨t, hrun, ht, by rw [State.runEnded, hend]; rfl⟩

/-- The effect of a line keeps the invariants, and nothing stops it (R91). -/
theorem runLine_answers (l : Line) {s : State} (h : Inv s) : ∃ t, runLine l s = .next t ∧ Inv t := by
  have hcommands {s : State} (h : Inv s) : ∃ t, runCommands s = .next t ∧ Inv t := by
    obtain ⟨t, hrun, ht, -⟩ := runCommands_answers h
    exact ⟨t, hrun, ht⟩
  cases l with
  | op i => exact hcommands (s := s.hostCommand (encode i)) { h with }
  | din ws => exact hcommands (s := s.hostData ws) { h with }
  | ntf e =>
    have h' : Inv (s.tunerNotify e) := { h with }
    obtain ⟨s', hdeliver, hs'⟩ := turns_inv (more := fun t => !t.ntf.isEmpty) (fun _ => stepNotification_answers)
      (fun _ _ => Inv.stepNotification) (s.tunerNotify e).ntf.length h'
    obtain ⟨t, hrun, ht⟩ := hcommands hs'
    exact ⟨t, andThen_eq_next.2 ⟨s', hdeliver, hrun⟩, ht⟩

/-- The lines of a program end with the commands run as far as they can. -/
theorem runLines_answers (ls : List Line) {s : State} (h : Inv s) :
    ∃ t, runLines ls s = .next t ∧ Inv t ∧ t.runEnded = true := by
  induction ls generalizing s with
  | nil => exact runCommands_answers h
  | cons l ls ih =>
    obtain ⟨s', hline, hs'⟩ := runLine_answers l h
    obtain ⟨t, hrest, ht⟩ := ih hs'
    exact ⟨t, andThen_eq_next.2 ⟨s', hline, hrest⟩, ht⟩

/-- Settles O56: the resampler answers under the invariants, and each turn of a run takes a word. -/
theorem invariantStatesNeverStop : Obligations.InvariantStatesNeverStop := by
  refine ⟨fun s => step_answers, fun s h => ?run, fun ls s h => ?program⟩
  case run =>
    obtain ⟨t, hrun, ht, hend⟩ := runToEnd_answers h
    exact ⟨t, ht, hend, andThen_eq_next.2 ⟨t, hrun, rfl⟩, turns_eq_steps hrun⟩
  case program =>
    obtain ⟨t, hrun, ht, hend⟩ := runLines_answers ls h
    exact ⟨t, ht, hend, andThen_eq_next.2 ⟨t, hrun, rfl⟩⟩

end Sys2Proof.Machine
end

section
/-! The symbol synchronizer (spec/45_sync.md R190 to R207): what `SYN.STEP` does between and at symbol boundaries, what
`SYN.ENDBUF` asks of the tuner, and who may change the latch while a request is outstanding. -/

namespace Sys2Proof.Machine

open Sys2Proof

/-! ### `SYN.STEP` -/

/-- Steps 1 to 3 of `SYN.STEP`, field by field (R192 to R195). -/
theorem synIntake_eq (s : State) (x : F64) : synIntake s x = { s with
    syn := { s.syn with
      clock := s.syn.clock.add s.params.symbolStep
      hist := s.syn.hist.set s.syn.hidx (synSample s x)
      hidx := s.syn.hidx + 1
      coarse := if s.status.resetPending = true then .zero else s.syn.coarse
      fine := if s.status.resetPending = true then .zero else s.syn.fine }
    evt := if s.status.resetPending = true then s.evt ++ [0] else s.evt
    status := { s.status with
      resetPending := false, nonfinite := s.status.nonfinite || synReplaced s x } } := by
  cases hr : s.status.resetPending with
  | true => simp [synIntake, synTrackerReset, synAdvance, hr, State.noteNonfinite, State.emitEvt, evtZeroCorrection]
  | false => simp [synIntake, synTrackerReset, synAdvance, hr, State.noteNonfinite]

theorem synStepWith_of_not_crossed (tp : Taps) {s : State} {x : F64} (h : synCrossed (synIntake s x).syn = false) :
    synStepWith tp s x = synIntake s x := by
  simp [synStepWith, h]

theorem synStepWith_of_crossed (tp : Taps) {s : State} {x : F64} (h : synCrossed (synIntake s x).syn = true) :
    synStepWith tp s x = synSymbolStep tp (synIntake s x) := by
  simp [synStepWith, h]

/-- A `SYN.STEP` that can start takes its one word. -/
theorem exec_synStep_cons {s : State} {w : Word64} {rest : List Word64} (hf : s.status.fault = false)
    (hd : s.din = w :: rest) : exec .synStep s =
      .next (synStepWith taps { s with cmd := s.cmd.tail, din := rest } (F64.ofBits w)) :=
  show execSynStep s = _ from command_runs .synStep (ws := [w]) hf rfl hd rfl _

/-- Settles O45: without a crossing the step is its intake. -/
theorem synStepBetweenSymbols : Obligations.SynStepBetweenSymbols := by
  intro s w rest hf hd v₀ v clock hclock
  rw [exec_synStep_cons hf hd, synStepWith_of_not_crossed, synIntake_eq]
  · rfl
  · rw [synIntake_eq]
    exact hclock

/-- Steps 4 to 11 of `SYN.STEP`, by the symbol error and the spread before its clamp that step 7 finds (R199, R200). -/
theorem synSymbolStep_eq (tp : Taps) (s : State) {err sp : F64}
    (herr : synError s.syn.spread (synBoundary tp s.params s.syn).a = err)
    (hspread : synSpread s.params s.syn.spread (synBoundary tp s.params s.syn).a = sp) :
    synSymbolStep tp s = { s with
      dgc := synGainStep s.params sp s.dgc
      syn := { s.syn with
        clock := synTiming s.params (synBoundary tp s.params s.syn) err
        spread := synClamp s.params sp
        coarse := synCoarse s.params s.syn
        fine := synFine s.params s.syn err
        err := err
        pending := synLatch s.params s.status.reqOutstanding (synCoarse s.params s.syn) s.syn.pending }
      }.doutReal (synSymbol s.syn.spread (synBoundary tp s.params s.syn).a) := by
  subst herr hspread
  rfl

/-- Settles O46: with a crossing the step is its intake and then the symbol step; its error and its spread are those of
the tests in order. -/
theorem synStepAtSymbol : Obligations.SynStepAtSymbol := by
  intro s w rest hf hd p v₀ v coarse₀ fine₀ clock₀ hist hidx hclock clock₁ imu win a b sp y err sp₁ low high coarse
  have herr : synError sp a = err := synError_eq sp a
  have hspread : synSpread p sp a = sp₁ := by
    rw [synSpread_eq, herr]
    rfl
  rw [exec_synStep_cons hf hd, synStepWith_of_crossed, synIntake_eq]
  · exact congrArg _ (synSymbolStep_eq taps _ herr hspread)
  · rw [synIntake_eq]
    exact hclock

/-! ### `SYN.ENDBUF` -/

theorem synEndbuf_of_not_latched {s : State} (h : s.syn.pending = 0) : synEndbuf s = s := by
  rw [synEndbuf, if_pos h]

/-- A request whose delta has the latched sign is emitted (R205). -/
theorem synEndbuf_of_request {s : State} (h : s.syn.pending ≠ 0)
    (hd : 0 < requestDelta s.params s.syn * s.syn.pending.toInt) : synEndbuf s = { s with
      syn := { s.syn with pending := 0 }
      evt := s.evt ++ [(1#32 ++ BitVec.ofInt 32 (requestDelta s.params s.syn) : Word64)]
      status := { s.status with reqOutstanding := true } } := by
  simp only [synEndbuf, if_neg h, gt_iff_lt, if_pos hd]
  rfl

/-- A request that would not move the total, or would move it the other way, is dropped (R205). -/
theorem synEndbuf_of_dropped {s : State} (h : s.syn.pending ≠ 0)
    (hd : ¬0 < requestDelta s.params s.syn * s.syn.pending.toInt) :
    synEndbuf s = { s with syn := { s.syn with pending := 0 } } := by
  simp only [synEndbuf, if_neg h, gt_iff_lt, if_neg hd]

/-- Settles O47: the three cases of the latch and the delta. -/
theorem synEndbufResult : Obligations.SynEndbufResult := by
  refine ⟨rfl, fun s hf => ?_⟩
  intro pend acked limit t₀ t d
  rw [exec_synEndbuf hf]
  refine ⟨fun h => ?none, fun h hd => ?request, fun h hd => ?dropped⟩
  case none => exact congrArg _ (synEndbuf_of_not_latched (s := s.consume 0) h)
  case request => exact congrArg _ (synEndbuf_of_request (s := s.consume 0) h hd)
  case dropped => exact congrArg _ (synEndbuf_of_dropped (s := s.consume 0) h hd)

/-! ### The size of a request -/

/-- The clamp of an upward request only lowers it. -/
theorem requestDelta_le_pending {p : Params} {u : Syn} (h : 0 < u.pending.toInt) :
    requestDelta p u ≤ u.pending.toInt := by
  unfold requestDelta requestTotal
  dsimp only
  split_ifs <;> omega

/-- The clamp of a downward request only raises it. -/
theorem pending_le_requestDelta {p : Params} {u : Syn} (h : u.pending.toInt < 0) :
    u.pending.toInt ≤ requestDelta p u := by
  unfold requestDelta requestTotal
  dsimp only
  split_ifs <;> omega

/-- An emitted delta lies between zero and the latch, on the side of the latch. -/
theorem requestDelta_between {p : Params} {u : Syn} (h : 0 < requestDelta p u * u.pending.toInt) :
    (0 < requestDelta p u ∧ requestDelta p u ≤ u.pending.toInt) ∨
      (requestDelta p u < 0 ∧ u.pending.toInt ≤ requestDelta p u) := by
  rcases pos_and_pos_or_neg_and_neg_of_mul_pos h with ⟨hd, hp⟩ | ⟨hd, hp⟩
  · exact .inl ⟨hd, requestDelta_le_pending hp⟩
  · exact .inr ⟨hd, pending_le_requestDelta hp⟩

/-- Settles O48: a delta between zero and an int32 is an int32. -/
theorem requestsAreBoundedByTheStep : Obligations.RequestsAreBoundedByTheStep := by
  intro p u h
  have hlow := u.pending.le_toInt
  have hhigh := u.pending.toInt_lt
  have hpayload (hmin : -2 ^ 31 ≤ requestDelta p u) (hmax : requestDelta p u < 2 ^ 31) :
      (BitVec.ofInt 32 (requestDelta p u)).toInt = requestDelta p u :=
    BitVec.toInt_ofInt_eq_self (by decide) hmin hmax
  rcases requestDelta_between h with ⟨hd, hle⟩ | ⟨hd, hle⟩
  · rw [abs_of_pos hd, abs_of_pos (hd.trans_le hle)]
    exact ⟨hd, hle, iff_of_true hd (hd.trans_le hle), hpayload (by omega) (by omega)⟩
  · rw [abs_of_neg hd, abs_of_neg (hle.trans_lt hd)]
    exact ⟨by omega, by omega, by omega, hpayload (by omega) (by omega)⟩

/-! ### The latch while a request is outstanding (R203) -/

/-- The moves of the latch while a request is outstanding: it stays, or an operation that ends the request drops it. -/
def LatchMove (i : Instr) (a b : BitVec 32) : Prop :=
  b = a ∨ (b = 0 ∧ (i = .synEndbuf ∨ i = .synAck ∨ i = .synRate ∨ i = .rstall ∨ i = .rstu 10))

theorem synIntake_pending_reqOutstanding (s : State) (x : F64) : (synIntake s x).syn.pending = s.syn.pending ∧
    (synIntake s x).status.reqOutstanding = s.status.reqOutstanding := by
  rw [synIntake_eq]
  exact ⟨rfl, rfl⟩

/-- With a request outstanding step 10 leaves the latch. -/
theorem synLatch_of_outstanding (p : Params) (coarse : F64) (pending : BitVec 32) :
    synLatch p true coarse pending = pending := if_pos rfl

/-- Step 10 is the only one of `SYN.STEP` that writes the latch, and does not while a request is outstanding. -/
theorem synStepWith_pending (tp : Taps) {s : State} (h : s.status.reqOutstanding = true) (x : F64) :
    (synStepWith tp s x).syn.pending = s.syn.pending := by
  obtain ⟨hpending, hout⟩ := synIntake_pending_reqOutstanding s x
  unfold synStepWith
  split
  · simp only [synSymbolStep, State.doutReal_syn, hout, h, hpending, synLatch_of_outstanding]
  · exact hpending

theorem synEndbuf_pending (s : State) : (synEndbuf s).syn.pending = 0 := by
  unfold synEndbuf
  split
  · assumption
  · rfl

/-- A command moves the latch as its transition does, which begins with the flags as they were. -/
theorem command_latchMove {i : Instr} {s t : State} {body : State → List Word64 → Result}
    (h : command i s body = .next t)
    (hb : ∀ s₁ d, s₁.status = s.status → body s₁ d = .next t → LatchMove i s₁.syn.pending t.syn.pending) :
    LatchMove i s.syn.pending t.syn.pending := by
  rcases command_next h with rfl | ⟨c, -, rfl⟩ | rfl | ⟨-, hrun⟩
  · exact .inl rfl
  · exact .inl (by simp)
  · exact .inl rfl
  · exact hb (s.consume _) _ rfl hrun

/-- A notification that is discarded leaves the latch. -/
theorem notification_latchMove {i : Instr} {s t : State} {body : State → Word64 → State}
    (h : notification s body = .next t) (hb : ∀ s₁ w, LatchMove i s₁.syn.pending (body s₁ w).syn.pending) :
    LatchMove i s.syn.pending t.syn.pending := by
  rcases notification_cases s body with ⟨-, e⟩ | ⟨-, -, -, -, e⟩ | ⟨n, -, -, -, e⟩ <;> rw [e] at h <;> cases h
  · exact .inl rfl
  · exact .inl rfl
  · exact hb s.dropNtf _

/-- Settles O49: of the operations that write SYN, `SYN.STEP` finds the request outstanding and the others drop the
latch. -/
theorem nothingLatchedWhileOutstanding : Obligations.NothingLatchedWhileOutstanding := by
  intro i s t hout h
  change LatchMove i s.syn.pending t.syn.pending
  by_cases hi : i = .rstall
  · subst hi
    cases h
    exact .inr ⟨rfl, by simp⟩
  · obtain ⟨s₁, htaken, heff⟩ := exec_effect h hi
    rw [htaken.frame] at heff
    rcases heff.syn with e | rfl | rfl | rfl | rfl | rfl
    case inl => exact .inl (congrArg Syn.pending e)
    · refine command_latchMove (show execSynStep s = .next t from h) fun s₁ d hs hb => ?_
      cases hb
      exact .inl (synStepWith_pending taps (hs ▸ hout) _)
    · refine command_latchMove (show execSynEndbuf s = .next t from h) fun s₁ d _ hb => ?_
      cases hb
      exact .inr ⟨synEndbuf_pending s₁, by simp⟩
    · exact notification_latchMove (show execSynAck s = .next t from h) fun s₁ w => .inr ⟨rfl, by simp⟩
    · exact notification_latchMove (show execSynRate s = .next t from h) fun s₁ w => .inr ⟨rfl, by simp⟩
    · refine command_latchMove (show execRstu 10 s = .next t from h) fun s₁ d _ hb => ?_
      cases hb
      exact .inr ⟨rfl, by simp⟩

end Sys2Proof.Machine
end

section
/-! What the exceptions leave alone (spec/60_exceptions.md R233, R236, R241, R242, R254;
spec/70_reset_and_hazards.md R276, R277): an idle or holding block, a delivered notification, and the precision of a
fault. -/

namespace Sys2Proof.Machine

open Sys2Proof

/-! ### Notifications (R241, R242) -/

/-- With no fault recorded the head of NTF is removed and makes its transition. -/
theorem notification_delivered {s : State} {e : NtfEntry} {rest : List NtfEntry} (hf : s.status.fault = false)
    (hn : s.ntf = e :: rest) (body : State → Word64 → State) :
    notification s body = .next (body { s with ntf := rest } e.operand) := by
  simp [notification, hn, hf, State.dropNtf]

/-- Settles O51: both notifications are delivered, and each is its own transition. -/
theorem notificationResults : Obligations.NotificationResults := by
  refine ⟨by decide, by decide, fun s e rest hf hn => ⟨?ack, ?rate⟩⟩
  case ack => exact show execSynAck s = _ from notification_delivered hf hn _
  case rate => exact show execSynRate s = _ from notification_delivered hf hn _

/-! ### Idling, holding and the end of a run (R254, R276, R277) -/

/-- With CMD empty the command agent is idle. -/
theorem stepCommand_of_empty {s : State} (hc : s.cmd = []) : stepCommand s = .next s := by
  simp [stepCommand, hc]

/-- A run has ended where CMD is empty or the command at its head holds. -/
theorem State.runEnded_iff {s : State} : s.runEnded = true ↔
    s.cmd = [] ∨ ∃ w ws i, s.cmd = w :: ws ∧ decode .cmd w = .ok i ∧ s.holds i = true := by
  rw [State.runEnded, Bool.not_eq_true']
  constructor
  · intro hready
    cases hc : s.cmd with
    | nil => exact .inl rfl
    | cons w ws =>
      cases hd : decode .cmd w with
      | error e => simp [commandReady_of_illegal hc hd] at hready
      | ok i =>
        rw [commandReady_of_decode hc hd, Bool.not_eq_false'] at hready
        exact .inr ⟨w, ws, i, rfl, hd, hready⟩
  · rintro (hc | ⟨w, ws, i, hc, hd, hh⟩)
    · exact commandReady_of_empty hc
    · rw [commandReady_of_decode hc hd, hh, Bool.not_true]

/-- A run that has ended takes no turn. -/
theorem run_of_runEnded {s : State} (h : s.runEnded = true) : run s = .next s.outcome := by
  have hdone : runToEnd s = .next s := turns_of_not_more (by simp [h]) step _
  rw [run, hdone, andThen_next]

/-- Settles O6: the turn is the command agent's, which is idle or meets a command that holds. -/
theorem idleAndHoldChangeNothing : Obligations.IdleAndHoldChangeNothing := by
  refine ⟨fun s hc hn => ?idle, fun s w rest i hn hc hd hf ha hshort => ?hold, fun s => ?ended,
    fun s => run_of_runEnded⟩
  case idle => rw [step_of_ntf_empty hn, stepCommand_of_empty hc]
  case hold => rw [step_of_ntf_empty hn, stepCommand_of_decode hc hd, exec_holds (State.holds_iff.2 ⟨hf, ha, hshort⟩)]
  case ended => simp only [State.runEnded_iff, State.holds_iff]

/-! ### Fault entry is precise (R233, R236) -/

/-- From `s` to `t` operation `i` records a fault and does nothing else but take its word and none or all of its
operands (R233, R236). -/
def FaultEntry (i : Instr) (s t : State) : Prop :=
  ∃ (k : Nat) (c : FaultCode), c ≠ .noFault ∧ (k = 0 ∨ (k = dinWords i ∧ k ≤ s.din.length)) ∧
    t = { s with
      cmd := s.cmd.tail, din := s.din.drop k, status := { s.status with fault := true }
      faultCode := c, faultCmd := encode i }

/-- A transition of `i` that keeps `FAULT`, or is fault entry with the word of `i` and nothing else. -/
def KeepsOrRaises (i : Instr) (s t : State) : Prop :=
  t.status.fault = s.status.fault ∨ ∃ c, c ≠ .noFault ∧ t = s.raiseFault c (encode i)

theorem KeepsOrRaises.raised {i : Instr} (s : State) {c : FaultCode} (hc : c ≠ .noFault) :
    KeepsOrRaises i s (s.raiseFault c (encode i)) := .inr ⟨c, hc, rfl⟩

/-- The check on `ARG` fails with a code (R231). -/
theorem argFault_ne_noFault {i : Instr} {c : FaultCode} (h : argFault i = some c) : c ≠ .noFault := by
  rintro rfl
  cases i <;> simp [argFault] at h
  case wrp => split at h <;> simp at h

/-- Fault entry before any operand is consumed. -/
theorem FaultEntry.of_retire {i : Instr} {s : State} {c : FaultCode} (hf : s.status.fault = false)
    (hc : c ≠ .noFault) : FaultEntry i s (s.retire.raiseFault c (encode i)) :=
  ⟨0, c, hc, .inl rfl, State.raiseFault_of_clear (s := s.retire) hf _ _⟩

/-- Fault entry after all operands have been consumed. -/
theorem FaultEntry.of_consume {i : Instr} {s : State} {c : FaultCode} (h : s.Ready i) (hc : c ≠ .noFault) :
    FaultEntry i s ((s.consume (dinWords i)).raiseFault c (encode i)) := by
  obtain ⟨hf, -, hd⟩ := h
  exact ⟨dinWords i, c, hc, .inr ⟨rfl, hd⟩, State.raiseFault_of_clear (s := s.consume _) hf _ _⟩

/-- A command records a fault on its `ARG`, or in its transition after all operands have been consumed. -/
theorem command_faultEntry {i : Instr} {s t : State} {body : State → List Word64 → Result}
    (hf : s.status.fault = false) (ht : t.status.fault = true) (h : command i s body = .next t)
    (hb : ∀ s₁ d, body s₁ d = .next t → KeepsOrRaises i s₁ t) : FaultEntry i s t := by
  rcases command_next h with rfl | ⟨c, ha, rfl⟩ | rfl | ⟨hready, hrun⟩
  · simp [hf] at ht
  · exact .of_retire hf (argFault_ne_noFault ha)
  · simp [hf] at ht
  · rcases hb _ _ hrun with hkept | ⟨c, hc, rfl⟩
    · simp [hkept, hf] at ht
    · exact .of_consume hready hc

/-- A read records a fault only where its index is unmapped. -/
theorem readOut_faultEntry {i : Instr} {v : Option RegValue} {s t : State} (hf : s.status.fault = false)
    (ht : t.status.fault = true) (h : readOut i v s = .next t) : FaultEntry i s t := by
  rcases readOut_cases i v s with ⟨-, e⟩ | ⟨x, -, e⟩ <;> rw [e] at h <;> cases h
  · exact .of_retire hf nofun
  · obtain ⟨w, n, e⟩ := s.retire.doutReg_frame x
    simp [e, hf] at ht

/-! ### The transitions that keep `FAULT` -/

/-- A notification whose transition keeps `FAULT` keeps it. -/
theorem notification_fault {s t : State} {body : State → Word64 → State} (h : notification s body = .next t)
    (hb : ∀ s₁ w, (body s₁ w).status.fault = s₁.status.fault) : t.status.fault = s.status.fault := by
  rcases notification_cases s body with ⟨-, e⟩ | ⟨-, -, -, -, e⟩ | ⟨n, -, -, -, e⟩ <;> rw [e] at h <;> cases h
  · rfl
  · rfl
  · exact hb _ _

theorem State.resetUnit_fault (s : State) (u : Nat) : (s.resetUnit u).status.fault = s.status.fault := by
  unfold State.resetUnit
  split <;> rfl

theorem resample_status {tp : Taps} {s t : State} {ws : List (Vector F64 8)} (h : resample tp s ws = .next t) :
    t.status = s.status := by
  rcases resample_cases tp s ws with ⟨-, e⟩ | ⟨out, pos, -, e⟩ <;> rw [e] at h <;> cases h
  simp

theorem synStepWith_fault (tp : Taps) (s : State) (x : F64) :
    (synStepWith tp s x).status.fault = s.status.fault := by
  rw [(synStepWith_evt_status tp s x).2, synIntake_eq]

theorem synEndbuf_fault (s : State) : (synEndbuf s).status.fault = s.status.fault := by
  unfold synEndbuf
  split
  · rfl
  · dsimp only
    split <;> rfl

/-- An operation records a fault by fault entry alone: on its `ARG`, on the value of a `WRP`, or on a `mu`. -/
theorem exec_faultEntry {i : Instr} {s t : State} (hf : s.status.fault = false) (h : exec i s = .next t)
    (ht : t.status.fault = true) : FaultEntry i s t := by
  cases i <;> unfold exec at h
  case nop | rstall => cases h; simp [hf] at ht
  case rdp | rds => exact readOut_faultEntry hf ht h
  case synAck | synRate =>
    have hkept := notification_fault h fun s₁ w => by simp
    simp [hkept, hf] at ht
  case rstu => exact command_faultEntry hf ht h fun s₁ d hb => by cases hb; exact .inl (s₁.resetUnit_fault _)
  case wrp =>
    refine command_faultEntry hf ht h fun s₁ d hb => ?_
    split at hb <;> cases hb
    · exact .raised s₁ nofun
    · exact .inl (by simp)
  case intFirmu | intFirmuc =>
    refine command_faultEntry hf ht h fun s₁ d hb => ?_
    dsimp only at hb
    split at hb <;> cases hb
    · exact .inl (by simp)
    · exact .raised s₁ nofun
  case rsmPush | rsmPushc =>
    exact command_faultEntry hf ht h fun s₁ d hb => .inl (by rw [resample_status hb, State.noteNonfinite_status])
  case synStep => exact command_faultEntry hf ht h fun s₁ d hb => by cases hb; exact .inl (synStepWith_fault ..)
  case synEndbuf => exact command_faultEntry hf ht h fun s₁ d hb => by cases hb; exact .inl (synEndbuf_fault _)
  all_goals exact command_faultEntry hf ht h fun s₁ d hb => by cases hb; exact .inl (by simp)

/-- Settles O10: the operations that record a fault do so by fault entry alone. -/
theorem faultsArePrecise : Obligations.FaultsArePrecise := fun _ _ _ => exec_faultEntry

end Sys2Proof.Machine
end
